-- ==== Sys2Proof/Word.lean ====
section
/-! DEFINITION. Word.lean: the byte, the line feed, and text written as characters. -/

namespace Sys2Proof

/-- A byte is 8 bits everywhere (20_memory.md R40). -/
abbrev Byte := BitVec 8

/-- LF, the code that ends every line (30_encoding.md R72). PRESUMED: ASCII code, entry 20. -/
def lineFeed : Byte := 0x0A#8

/-- A text as its 8-bit character codes (00_scope.md section 5). -/
def chars (cs : List Char) : List Byte := cs.map fun c => BitVec.ofNat 8 c.toNat

end Sys2Proof
end

