-- ==== Sys2Proof/Config.lean ====
section
/-! DEFINITION. Config.lean: the instance parameters of 00_scope.md section 4, when an instance is legal
(R4), the spec's default instance, and the free values. -/

namespace Sys2Proof

/-- Which chip-access collaborator is meant (10_state.md R12): SPI is 0, I2C is 1. -/
inductive IfKind where
  | spi
  | i2c
  deriving DecidableEq, Repr

/-- How DONE completes a partial page (43_write_buffer.md R213, `TAIL_FILL`). -/
inductive TailFill where
  | preserve
  | pad (v : Byte)
  deriving DecidableEq, Repr

/-- One transaction at the chip-access master (20_memory.md R47, R48): the variant, ADDR_WIDTH and the address as a
number (R43), then the length or the page. -/
inductive ChipTxn where
  | read (kind : IfKind) (width : BitVec 3) (addr n : Nat)
  | writePage (kind : IfKind) (width : BitVec 3) (addr : Nat) (page : List Byte)
  deriving DecidableEq, Repr

/-- The byte arrays of the block (20_memory.md R40, 10_state.md R25). -/
inductive Buffer where
  | line
  | write
  | response
  deriving DecidableEq, Repr

/-- The parameters of 00_scope.md section 4 that enter a rule. The three message texts the source fixes are no
parameters (60_exceptions.md R231). `F_CLK` and `BAUD` enter no rule (entry 19). -/
structure Params where
  tTx : Nat
  tRx : Nat
  tHalf : Nat
  txPre : Nat
  dlyUnit : Nat
  singleWire : Bool
  aMax : Nat
  nMax : Nat
  bannerText : List Byte
  okText : List Byte
  msgUnrecognised : List Byte
  msgBadMode : List Byte
  msgIdent : List Byte
  msgReserved : List Byte
  msgLength : List Byte
  kbDiv : Nat
  hexUpper : Bool
  tailFill : TailFill
  deriving DecidableEq, Repr

/-- A delay count divided by `DLY_UNIT` is an integer in 1..255 (00_scope.md R4). -/
def Params.delayFits (unit t : Nat) : Bool := decide (t % unit = 0 ∧ 1 ≤ t / unit ∧ t / unit ≤ 255)

/-- A text without an LF (60_exceptions.md R231 "A message never contains an LF", 30_encoding.md R81). -/
def Params.oneLine (text : List Byte) : Bool := text.all fun c => c != lineFeed

/-- What makes an instance legal: R4 for the delays, the ranges of 00_scope.md section 4 for the rest, and texts
that hold no LF (entry 21). -/
def Params.legal (p : Params) : Bool :=
  decide (1 ≤ p.dlyUnit) && Params.delayFits p.dlyUnit p.tTx && Params.delayFits p.dlyUnit p.tRx
    && Params.delayFits p.dlyUnit p.tHalf && decide (p.aMax ≤ 7) && decide (1 ≤ p.nMax) && decide (1 ≤ p.kbDiv)
    && Params.oneLine p.bannerText && Params.oneLine p.okText && Params.oneLine p.msgUnrecognised
    && Params.oneLine p.msgBadMode && Params.oneLine p.msgIdent && Params.oneLine p.msgReserved
    && Params.oneLine p.msgLength

/-- A legal instance. An illegal profile cannot be built (00_scope.md R4 "A model refuses to build an instance
with an illegal profile"). Entry 1. -/
abbrev Config := { p : Params // p.legal = true }

/-- The defaults of 00_scope.md section 4 and 60_exceptions.md R231. DESIGN CHOICE: entry 2. -/
def Params.defaults : Params where
  tTx := 8
  tRx := 8
  tHalf := 4
  txPre := 0
  dlyUnit := 1
  singleWire := false
  aMax := 7
  nMax := 16
  bannerText := chars ['e', 'e', 'p', 'r', 'o', 'g']
  okText := []
  msgUnrecognised := chars ['U', 'n', 'r', 'e', 'c', 'o', 'g', 'n', 'i', 's', 'e', 'd', ' ',
    'c', 'o', 'm', 'm', 'a', 'n', 'd', '.']
  msgBadMode := chars ['C', 'o', 'm', 'm', 'a', 'n', 'd', ' ', 'i', 'n', 'v', 'a', 'l', 'i', 'd', ' ',
    'f', 'o', 'r', ' ', 'm', 'o', 'd', 'e', '.']
  msgIdent := chars ['B', 'a', 'd', ' ', 'd', 'e', 'v', 'i', 'c', 'e', ' ',
    'i', 'd', 'e', 'n', 't', 'i', 'f', 'i', 'e', 'r', '.']
  msgReserved := chars ['R', 'e', 's', 'e', 'r', 'v', 'e', 'd', ' ', 'b', 'i', 't', 's', ' ', 's', 'e', 't', '.']
  msgLength := chars ['P', 'a', 'y', 'l', 'o', 'a', 'd', ' ', 't', 'o', 'o', ' ', 's', 'h', 'o', 'r', 't', '.']
  kbDiv := 128
  hexUpper := true
  tailFill := .preserve

/-- The default instance. -/
def Config.default : Config := ⟨Params.defaults, by decide⟩

/-- FREE VALUE: the byte the collaborator returns at an offset of the last read of a history of transactions
(20_memory.md R47 "the returned bytes are the answer of an oracle", 93_implementation_defined.md U6 "any
value"). It has no body: nothing can be proved of its value. Entry 6. -/
opaque Config.chipAnswer (history : List ChipTxn) (offset : Nat) : Byte

/-- FREE VALUE: what a byte of the block's arrays that holds no value reads as (00_scope.md section 5,
93_implementation_defined.md U8). No rule reads one. Entry 9. -/
opaque Config.unwrittenByte (buffer : Buffer) (draw index : Nat) : Byte

/-- FREE VALUE: the identifier whose fields the session registers are left with when they are given no value
(42_commands.md R172, 90_conflicts.md C3). No rule reads them then. Entry 10. -/
opaque Config.unsetIdentifier (draw : Nat) : BitVec 16

/-- FREE VALUE: what WB_BASE is left with when it is given no value (42_commands.md R172, 90_conflicts.md C10). No
rule reads it then. Entry 25. -/
opaque Config.unsetBase (draw : Nat) : BitVec 33

end Sys2Proof
end

