-- ==== Sys2Proof/Syntax.lean ====
section
/-! DEFINITION. Syntax.lean: the instructions, one constructor per row of the opcode table. -/

namespace Sys2Proof

/-- Why a line is no command (42_commands.md R179): badly framed, or a well-framed line whose first character is
none of the five. A badly framed line keeps nothing: after it CMD, DLEN and LB are read by no rule (41_framer.md
R147). -/
inductive BadLine where
  | framing
  | command (c : Byte) (payload : List Byte)
  deriving DecidableEq, Repr

/-- One decoded input line (10_state.md R24 "Decoded Line"). `payload` is LB[1 .. DLEN]; how READ and WRITE split
it depends on ADDR_WIDTH, which is state (30_encoding.md R77), so every command carries the bytes whole. -/
inductive Instr where
  | reset (payload : List Byte)
  | init (payload : List Byte)
  | read (payload : List Byte)
  | write (payload : List Byte)
  | done (payload : List Byte)
  | unrecognised (line : BadLine)
  deriving DecidableEq, Repr

/-- Why a stream of characters gives no line: it holds no LF (41_framer.md R142, the reader goes on waiting). -/
inductive StreamError where
  | noTerminator
  deriving DecidableEq, Repr

end Sys2Proof
end

