-- ==== Sys2Proof/WellFormed.lean ====
section
/-! DEFINITION. WellFormed.lean: which instructions a line can spell. -/

namespace Sys2Proof

/-- The five command characters (30_encoding.md R72, R84). -/
def commandCharacters : List Byte := [0x21#8, 0x69#8, 0x72#8, 0x77#8, 0x64#8]

/-- The longest payload a line can carry, `A_MAX + N_MAX + CKS_BYTES` (10_state.md R24, 30_encoding.md R73). -/
def maxPayload (p : Params) : Nat := p.aMax + p.nMax + 2

/-- What is wrong with an instruction no line spells. -/
inductive IllFormed where
  | payloadTooLong
  | commandIsRecognised
  | commandIsLineFeed
  deriving DecidableEq, Repr

/-- The payload fits the line buffer (30_encoding.md R73). -/
def checkPayload (p : Params) (payload : List Byte) : Option IllFormed :=
  if payload.length ≤ maxPayload p then none else some .payloadTooLong

/-- The first failed check of an instruction, if any. -/
def Instr.illFormed (p : Params) : Instr → Option IllFormed
  | .reset payload => checkPayload p payload
  | .init payload => checkPayload p payload
  | .read payload => checkPayload p payload
  | .write payload => checkPayload p payload
  | .done payload => checkPayload p payload
  | .unrecognised .framing => none
  | .unrecognised (.command c payload) =>
    if c = lineFeed then some .commandIsLineFeed
    else if commandCharacters.contains c then some .commandIsRecognised
    else checkPayload p payload

/-- Some line of the instance spells the instruction. -/
def Instr.wellFormed (p : Params) (i : Instr) : Bool := (i.illFormed p).isNone

end Sys2Proof
end

