-- ==== Sys2Proof/Decode.lean ====
section
/-! DEFINITION. Decode.lean: the hex codec, the line decoder, the choice of the command, and the encoder. -/

namespace Sys2Proof

/-- `LINE_CAP = 1 + 2*A_MAX + 2*N_MAX + 2*CKS_BYTES + 1` (00_scope.md R5). -/
def lineCap (p : Params) : Nat := 1 + 2 * p.aMax + 2 * p.nMax + 2 * 2 + 1

/-- `hexval(c)` (30_encoding.md R75): both letter cases are accepted on input. -/
def hexValue (c : Byte) : Option (BitVec 4) :=
  if 0x30 ≤ c.toNat ∧ c.toNat ≤ 0x39 then some (BitVec.ofNat 4 (c.toNat - 0x30))
  else if 0x41 ≤ c.toNat ∧ c.toNat ≤ 0x46 then some (BitVec.ofNat 4 (c.toNat - 0x41 + 10))
  else if 0x61 ≤ c.toNat ∧ c.toNat ≤ 0x66 then some (BitVec.ofNat 4 (c.toNat - 0x61 + 10))
  else none

/-- The byte a pair of characters spells, high nibble first (30_encoding.md R75): `hexval(hi)*16 + hexval(lo)`. -/
def hexPair (hi lo : Byte) : Option Byte :=
  match hexValue hi, hexValue lo with
  | some h, some l => some (h ++ l)
  | _, _ => none

/-- The bytes an even run of hex characters spells (41_framer.md R144); none for a non-hex character (R147) or an
odd run (R145). -/
def hexPairs : List Byte → Option (List Byte)
  | [] => some []
  | [_] => none
  | hi :: lo :: rest =>
    match hexPair hi lo, hexPairs rest with
    | some b, some bs => some (b :: bs)
    | _, _ => none

/-- The character of a hex digit (30_encoding.md R83). -/
def hexDigit (upper : Bool) (d : BitVec 4) : Byte :=
  if d.toNat ≤ 9 then BitVec.ofNat 8 (0x30 + d.toNat)
  else if upper then BitVec.ofNat 8 (0x41 + (d.toNat - 10))
  else BitVec.ofNat 8 (0x61 + (d.toNat - 10))

/-- The two characters of a byte, high nibble first (30_encoding.md R83). -/
def hexByte (upper : Bool) (b : Byte) : List Byte :=
  [hexDigit upper (b.extractLsb' 4 4), hexDigit upper (b.extractLsb' 0 4)]

/-- `hex(bs)` (30_encoding.md R83). -/
def hexText (upper : Bool) (bs : List Byte) : List Byte := bs.flatMap (hexByte upper)

/-- The command is selected by all 8 bits of the first character and by nothing else (30_encoding.md R84). -/
def selectCommand (cmd : Byte) (payload : List Byte) : Instr :=
  if cmd = 0x21#8 then .reset payload
  else if cmd = 0x69#8 then .init payload
  else if cmd = 0x72#8 then .read payload
  else if cmd = 0x77#8 then .write payload
  else if cmd = 0x64#8 then .done payload
  else .unrecognised (.command cmd payload)

/-- Decode the characters of one line, without its LF (30_encoding.md R74, R75, R84, R85; 41_framer.md R144):
too long, even count, non-hex character, each UNRECOGNISED by its framing; then the command. -/
def decode (p : Params) (line : List Byte) : Instr :=
  if lineCap p - 1 < line.length then .unrecognised .framing
  else
    match line with
    | [] => .unrecognised .framing
    | cmd :: digits =>
      match hexPairs digits with
      | none => .unrecognised .framing
      | some payload => selectCommand cmd payload

/-- Split a character stream at its first LF (30_encoding.md R91: only LF ends a line). -/
def splitLine : List Byte → Option (List Byte × List Byte)
  | [] => none
  | c :: cs =>
    if c = lineFeed then some ([], cs)
    else
      match splitLine cs with
      | none => none
      | some (line, rest) => some (c :: line, rest)

/-- Decode the first line of a character stream and give back the rest. -/
def decodeStream (p : Params) (stream : List Byte) : Except StreamError (Instr × List Byte) :=
  match splitLine stream with
  | none => .error .noTerminator
  | some (line, rest) => .ok (decode p line, rest)

/-- The characters of a command (30_encoding.md R73, R89), digits in upper case (entry 24). -/
def encodeCommand (cmd : Byte) (payload : List Byte) : List Byte := cmd :: hexText true payload

/-- The line of an instruction, without its LF. A badly framed line is written as the empty line (30_encoding.md
R74: a count of 0 is even and is rejected; entry 24). -/
def encode : Instr → List Byte
  | .reset payload => encodeCommand 0x21#8 payload
  | .init payload => encodeCommand 0x69#8 payload
  | .read payload => encodeCommand 0x72#8 payload
  | .write payload => encodeCommand 0x77#8 payload
  | .done payload => encodeCommand 0x64#8 payload
  | .unrecognised .framing => []
  | .unrecognised (.command c payload) => encodeCommand c payload

/-- The line with its LF, as it stands in the serial stream (30_encoding.md R73). -/
def encodeLine (i : Instr) : List Byte := encode i ++ [lineFeed]

/-- The bytes of a number, the least significant first: how the opcode table numbers an instruction's bits. -/
def bytesOfWord : Nat → Nat → List Byte
  | 0, _ => []
  | k + 1, w => BitVec.ofNat 8 w :: bytesOfWord k (w / 256)

/-- The line a row of the opcode table stands for: its characters, then, for INIT, whose format F-ID has two
bytes of operand (30_encoding.md R77), the operand bytes written as zeros. Entry 14. -/
def tableLine (nbits w : Nat) : List Byte :=
  match bytesOfWord ((nbits + 7) / 8) w with
  | [] => []
  | cmd :: digits => if cmd = 0x69#8 then (cmd :: digits) ++ List.replicate (4 - digits.length) 0x30#8 else cmd :: digits

/-- The instruction the decoder reads from a row of the opcode table, for the default parameters. -/
def decodeTableWord (nbits w : Nat) : Option Instr :=
  match decodeStream Params.defaults (tableLine nbits w ++ [lineFeed]) with
  | .ok (i, _) => some i
  | .error _ => none

end Sys2Proof
end

