-- ==== Sys2Proof/Machine/State.lean ====
section
/-! DEFINITION. State.lean: all the state of the block (10_state.md), the world it talks to, why a run can stop,
and the state after reset. -/

namespace Sys2Proof.Machine

/-- MODE (10_state.md R11). `invalid` is the value 3, which no rule writes (42_commands.md R180). -/
inductive Mode where
  | waiting
  | ready
  | writing
  | invalid
  deriving DecidableEq, Repr

/-- PHASE, the sequencer (10_state.md R22). -/
inductive Phase where
  | banner
  | rxLine
  | decode
  | exec
  | respond
  deriving DecidableEq, Repr

/-- UPHASE, what SUART is doing (10_state.md R26). -/
inductive UPhase where
  | idle
  | tx
  | rxWait
  | rxFrame
  deriving DecidableEq, Repr

/-- The causes of a rejection a line can raise (60_exceptions.md R231, causes 1 to 8). Cause 9 is never raised
(42_commands.md R180) and has no text; its case is the fault `Fault.invalidMode`. -/
inductive Cause where
  | unrecognised
  | badMode
  | ident
  | reserved
  | length
  | checksum
  | range
  | sequence
  deriving DecidableEq, Repr

/-- A byte array or the known cells of a chip: addresses strictly rising, an unlisted address holding no value (entry
9) or, of a chip, not known (entry 6). -/
abbrev Memory := List Host.Cell

/-- The session fields (10_state.md R12 to R16). PAGE_SIZE and CAPACITY are held as their exponents, as R13 allows:
the values they can take are exactly the powers (entry 10). -/
structure Session where
  ifkind : IfKind
  pageExp : BitVec 3
  capExp : BitVec 5
  addrWidth : BitVec 3
  deriving DecidableEq, Repr

/-- SUART's registers and pins (10_state.md R26 to R28). `dlySub` counts the clk cycles left in the current count
of DLY, `preLeft` those left of `wait(TX_PRE)` (entry 11). -/
structure Suart where
  uphase : UPhase
  txsr : BitVec 10
  rxsr : BitVec 8
  bitcnt : Nat
  dly : BitVec 8
  dlySub : Nat
  preLeft : Nat
  crit : Bool
  txd : Bool
  txdOe : Bool
  deriving DecidableEq, Repr

/-- The inputs at one rising edge of `clk` (10_state.md R31), and how long ENGINE takes, which is open
(92_eei_decisions.md D35): `hold` means ENGINE, if it is its turn, does not act at this edge, and `passes` that it
acts and the edge passes with it, so that its next turn meets the next edge. `issued` matters only when `rst` comes
while ENGINE runs a command: how many of its chip accesses had been issued by then (70_reset_and_hazards.md R270
"including the middle ... of a chip access"). Entries 3, 4, 5. -/
structure Edge where
  rst : Bool
  rxd : Bool
  hold : Bool
  passes : Bool
  issued : Nat
  deriving DecidableEq, Repr

/-- The edge at which nothing happens: no reset, the idle level, ENGINE free to act and in no need of time. -/
def Edge.quiet : Edge := { rst := false, rxd := true, hold := false, passes := false, issued := 0 }

/-- The chip-access collaborator, an agent outside the block (10_state.md R33): an oracle (20_memory.md R47), or
the reference array of R59 with the cells known of it. Entry 6. -/
inductive Collaborator where
  | oracle
  | reference (cells : Memory)
  deriving DecidableEq, Repr

/-- The state: the block's registers (10_state.md R30), then `cfg`, the constant instance; `inputs`, what the
host drives at the coming edges, and `steady`, every edge after those; `chip` and `chipLog`, the collaborator and
the transactions issued to it; `draws`, the counter of the free values. -/
structure State where
  mode : Mode
  session : Session
  wb : Memory
  wbBase : Nat
  wbFill : Nat
  lb : Memory
  lbLen : Nat
  cmd : Byte
  dlen : Nat
  lbOvf : Bool
  lineInvalid : Bool
  phase : Phase
  resp : List Byte
  txptr : Nat
  suart : Suart
  cfg : Config
  inputs : List Edge
  steady : Edge
  chip : Collaborator
  chipLog : List ChipTxn
  draws : Nat
  deriving DecidableEq, Repr

/-- Why a run stops: the one fault of a model, which no state that a run reaches raises (60_exceptions.md R239). -/
inductive Fault where
  /-- Raised by the dispatcher when MODE is 3 (42_commands.md R180, 90_conflicts.md C2). Safe: the model stops
  where an implementation may answer and go to WAITING. -/
  | invalidMode
  deriving DecidableEq, Repr

/-- Why an instruction has no meaning. -/
inductive Refusal where
  /-- Raised by exec's arm of an instruction whose meaning is not written. Safe. -/
  | notModelled (mnemonic : String)
  deriving DecidableEq, Repr

/-- What a step or an instruction answers. -/
abbrev Outcome := Host.Outcome State Fault Refusal

/-- SUART after reset (10_state.md R30). TXSR and RXSR: DESIGN CHOICE 0, entry 8; the hidden counters, entry 11. -/
def Suart.reset (p : Params) : Suart where
  uphase := .idle
  txsr := 0
  rxsr := 0
  bitcnt := 0
  dly := 0
  dlySub := 0
  preLeft := 0
  crit := false
  txd := true
  txdOe := !p.singleWire

/-- The session fields after reset, which the spec gives no value: DESIGN CHOICE all fields 0, entry 10. -/
def Session.reset : Session where
  ifkind := .spi
  pageExp := 0
  capExp := 0
  addrWidth := 0

/-- Every register at its value after reset (10_state.md R30, 70_reset_and_hazards.md R270), with what lies outside
the block given: the instance, the edges to come, the collaborator, its transactions, the counter of the free
values. CMD and DLEN: DESIGN CHOICE 0, entry 8; WB_BASE: DESIGN CHOICE 0, entry 25. -/
def State.resetWith (cfg : Config) (inputs : List Edge) (steady : Edge) (chip : Collaborator)
    (chipLog : List ChipTxn) (draws : Nat) : State where
  mode := .waiting
  session := Session.reset
  wb := []
  wbBase := 0
  wbFill := 0
  lb := []
  lbLen := 0
  cmd := 0
  dlen := 0
  lbOvf := false
  lineInvalid := false
  phase := .banner
  resp := []
  txptr := 0
  suart := Suart.reset cfg.val
  cfg := cfg
  inputs := inputs
  steady := steady
  chip := chip
  chipLog := chipLog
  draws := draws

/-- The state after reset, for the default instance (entry 2), with no input listed and quiet edges after (entry 3),
an oracle as the collaborator and no transaction issued (entries 6, 7). -/
def State.reset : State := State.resetWith Config.default [] Edge.quiet .oracle [] 0

end Sys2Proof.Machine
end

