-- ==== Sys2Proof/Machine/Operands.lean ====
section
/-! DEFINITION. Operands.lean: how a command's payload is read, and how results are written as text. -/

namespace Sys2Proof.Machine

/-- `be(bs)`, the first byte the most significant (00_scope.md section 5). -/
def be (bs : List Byte) : Nat := bs.foldl (fun v b => v * 256 + b.toNat) 0

/-- `Checksum(bs) = sum(bs) mod 65536` (41_framer.md R150). -/
def checksum (bs : List Byte) : BitVec 16 := bs.foldl (fun acc b => acc + b.zeroExtend 16) 0

/-- The two bytes of a checksum on the wire, the high byte first (30_encoding.md R79). -/
def checksumBytes (c : BitVec 16) : List Byte := [c.extractLsb' 8 8, c.extractLsb' 0 8]

/-- A 16-bit field, the most significant byte first (30_encoding.md R76, R79). -/
def field16 (hi lo : Byte) : BitVec 16 := hi ++ lo

/-- Bit 15 of the identifier, the interface kind (30_encoding.md R76). -/
def idKind (id : BitVec 16) : IfKind := if id.getLsbD 15 then .i2c else .spi

/-- Bits 14:12, the page-size exponent (30_encoding.md R76). -/
def idPageExp (id : BitVec 16) : BitVec 3 := id.extractLsb' 12 3

/-- Bits 11:7, the capacity exponent (30_encoding.md R76). -/
def idCapExp (id : BitVec 16) : BitVec 5 := id.extractLsb' 7 5

/-- Bits 6:4, the address byte count (30_encoding.md R76). -/
def idAddrWidth (id : BitVec 16) : BitVec 3 := id.extractLsb' 4 3

/-- Bits 3:0, reserved (30_encoding.md R86). -/
def idReserved (id : BitVec 16) : BitVec 4 := id.extractLsb' 0 4

/-- What a device identifier loads (10_state.md section 2, table of the identifier's fields). -/
def idSession (id : BitVec 16) : Session where
  ifkind := idKind id
  pageExp := idPageExp id
  capExp := idCapExp id
  addrWidth := idAddrWidth id

/-- `PAGE_SIZE = 2^(e+1)` (10_state.md R13). -/
def Session.pageSize (x : Session) : Nat := 2 ^ (x.pageExp.toNat + 1)

/-- `CAPACITY = 2^(c+1)` (10_state.md R14). -/
def Session.capacity (x : Session) : Nat := 2 ^ (x.capExp.toNat + 1)

/-- The address bytes of a READ or WRITE payload (30_encoding.md R77). -/
def addrBytes (x : Session) (payload : List Byte) : List Byte := payload.take x.addrWidth.toNat

/-- `addr = be(LB[1 .. AW])` (30_encoding.md R78). -/
def addrOf (x : Session) (payload : List Byte) : Nat := be (addrBytes x payload)

/-- `n = DLEN - ADDR_WIDTH - 2`, the number of data bytes of a WRITE (42_commands.md R175 step 2). -/
def dataCount (x : Session) (payload : List Byte) : Nat := payload.length - x.addrWidth.toNat - 2

/-- The data bytes of a WRITE, `LB[AW+1 .. AW+n]` (30_encoding.md R77). -/
def dataBytes (x : Session) (payload : List Byte) : List Byte :=
  (payload.drop x.addrWidth.toNat).take (dataCount x payload)

/-- The bytes a WRITE's checksum covers, `LB[1 .. AW+n]` (41_framer.md R150). -/
def checkedBytes (x : Session) (payload : List Byte) : List Byte :=
  payload.take (x.addrWidth.toNat + dataCount x payload)

/-- The last two bytes of a payload, the checksum field of a WRITE (30_encoding.md R77, R79). -/
def checksumField (payload : List Byte) : BitVec 16 :=
  field16 (payload.getD (payload.length - 2) 0) (payload.getD (payload.length - 1) 0)

/-- The character of a decimal digit (41_framer.md R161). -/
def decDigit (d : Nat) : Byte := BitVec.ofNat 8 (0x30 + d)

/-- The decimal digits of `v` before `tail`, for `v` of at most `fuel + 1` digits. -/
def decDigits : Nat → Nat → List Byte → List Byte
  | 0, v, tail => decDigit (v % 10) :: tail
  | fuel + 1, v, tail =>
    if v < 10 then decDigit v :: tail else decDigits fuel (v / 10) (decDigit (v % 10) :: tail)

/-- `dec(v)`: no sign, no leading zeros, `0` for zero (41_framer.md R161). A number has at most as many decimal
digits as binary ones. -/
def dec (v : Nat) : List Byte := decDigits (Nat.log2 v) v []

/-- The word of the INIT response that names the interface (42_commands.md R173 step 7). -/
def kindText : IfKind → List Byte
  | .spi => chars ['S', 'P', 'I']
  | .i2c => chars ['I', '2', 'C']

/-- The INIT success text after its `+` (42_commands.md R173 step 7). -/
def initText (p : Params) (x : Session) : List Byte :=
  kindText x.ifkind ++ chars [' '] ++ dec (x.capacity / p.kbDiv) ++ chars ['K', 'b', ',', ' '] ++ dec x.pageSize
    ++ chars [' ', 'b', 'y', 't', 'e', ' ', 'p', 'a', 'g', 'e', '.']

/-- The message of a cause after its `-` (60_exceptions.md R231): three texts are the source's, five parameters. -/
def message (p : Params) : Cause → List Byte
  | .unrecognised => p.msgUnrecognised
  | .badMode => p.msgBadMode
  | .ident => p.msgIdent
  | .reserved => p.msgReserved
  | .length => p.msgLength
  | .checksum => chars ['I', 'n', 'v', 'a', 'l', 'i', 'd', ' ', 'c', 'h', 'e', 'c', 'k', 's', 'u', 'm', '.']
  | .range => chars ['A', 'd', 'd', 'r', 'e', 's', 's', ' ', 'o', 'u', 't', ' ', 'o', 'f', ' ',
      'r', 'a', 'n', 'g', 'e', '.']
  | .sequence => chars ['D', 'a', 't', 'a', ' ', 'i', 's', ' ', 'n', 'o', 't', ' ',
      's', 'e', 'q', 'u', 'e', 'n', 't', 'i', 'a', 'l', '.']

/-- The text of a success, `+` and then the payload (30_encoding.md R81). -/
def plus (text : List Byte) : List Byte := 0x2B#8 :: text

/-- The text of a rejection, `-` and then the message (30_encoding.md R81). -/
def minus (text : List Byte) : List Byte := 0x2D#8 :: text

/-- The numbers of MODE's values (10_state.md R11). -/
def modeCode : Mode → BitVec 2
  | .waiting => 0
  | .ready => 1
  | .writing => 2
  | .invalid => 3

/-- The numbers of PHASE's values (10_state.md R22). -/
def phaseCode : Phase → BitVec 3
  | .banner => 0
  | .rxLine => 1
  | .decode => 2
  | .exec => 3
  | .respond => 4

/-- The numbers of UPHASE's values (10_state.md R26). -/
def uphaseCode : UPhase → BitVec 2
  | .idle => 0
  | .tx => 1
  | .rxWait => 2
  | .rxFrame => 3

/-- The numbers of IFKIND's values (10_state.md R12). -/
def kindCode : IfKind → BitVec 1
  | .spi => 0
  | .i2c => 1

/-- The numbers of the causes (60_exceptions.md R231); they are stored nowhere. -/
def causeCode : Cause → Nat
  | .unrecognised => 1
  | .badMode => 2
  | .ident => 3
  | .reserved => 4
  | .length => 5
  | .checksum => 6
  | .range => 7
  | .sequence => 8

end Sys2Proof.Machine
end

