-- ==== Sys2Proof/Machine/Ops.lean ====
section
/-! DEFINITION. Ops.lean: the operations everything else is written with: byte arrays, chip accesses, the response,
a rejection, and the admission of a command by MODE. -/

namespace Sys2Proof.Machine

/-- The byte at an address; none where it holds no value. -/
def Memory.get : Memory → Nat → Option Byte
  | [], _ => none
  | (b, v) :: m, a => if a = b then some v else Memory.get m a

/-- Store a byte, keeping the addresses strictly rising. -/
def Memory.set : Memory → Nat → Byte → Memory
  | [], a, v => [(a, v)]
  | (b, w) :: m, a, v =>
    if a < b then (a, v) :: (b, w) :: m
    else if a = b then (a, v) :: m
    else (b, w) :: Memory.set m a v

/-- Store a byte sequence at rising addresses. -/
def Memory.setBytes : Memory → Nat → List Byte → Memory
  | m, _, [] => m
  | m, a, v :: vs => Memory.setBytes (m.set a v) (a + 1) vs

/-- Drop the value of every byte at or above an address. -/
def Memory.truncate (m : Memory) (top : Nat) : Memory := m.filter fun c => c.1 < top

/-- Move every byte down by `d`, dropping those below `d` (43_write_buffer.md R212, the slide). -/
def Memory.slideDown (m : Memory) (d : Nat) : Memory :=
  m.filterMap fun c => if d ≤ c.1 then some (c.1 - d, c.2) else none

/-- The canonical form: addresses strictly rising. An unlisted address holds no value, so no entry repeats it. -/
def Memory.wf : Memory → Bool
  | [] => true
  | [_] => true
  | (a, _) :: (b, w) :: m => decide (a < b) && Memory.wf ((b, w) :: m)

/-- The array whose bytes from an address on are the given ones, and hold no value elsewhere. -/
def Memory.ofBytes : Nat → List Byte → Memory
  | _, [] => []
  | a, v :: vs => (a, v) :: Memory.ofBytes (a + 1) vs

/-- `WB_CAP = PAGE_MAX + N_MAX` (00_scope.md R5 and section 4). -/
def wbCap (p : Params) : Nat := 256 + p.nMax

/-- Store bytes in an array of the block with `cap` cells: an index at or past it has no cell to store to (10_state.md
R18, R20, R21; entry 17). -/
def storeBytes (cap : Nat) (m : Memory) (a : Nat) (vs : List Byte) : Memory := m.setBytes a (vs.take (cap - a))

/-- Read one byte of an array of the block; one that holds no value reads as a free value (entry 9). -/
def readByte (buffer : Buffer) (draw : Nat) (m : Memory) (a : Nat) : Byte :=
  (m.get a).getD (Config.unwrittenByte buffer draw a)

/-- Read `n` bytes of an array of the block, from an index on. -/
def readBytes (buffer : Buffer) (draw : Nat) (m : Memory) (a : Nat) : Nat → List Byte
  | 0 => []
  | n + 1 => readByte buffer draw m a :: readBytes buffer draw m (a + 1) n

/-- The instance parameters of a state. -/
def State.par (s : State) : Params := s.cfg.val

/-- The byte the collaborator answers for offset `i` of a read at `addr` (20_memory.md R47, R59; entry 6). -/
def chipByte (chip : Collaborator) (history : List ChipTxn) (addr i : Nat) : Byte :=
  match chip with
  | .oracle => Config.chipAnswer history i
  | .reference cells => (Memory.get cells (addr + i)).getD (Config.chipAnswer history i)

/-- The read of `n` bytes at `addr` that the block issues in a session (20_memory.md R43, R46, R47). -/
def readTxn (x : Session) (addr n : Nat) : ChipTxn := .read x.ifkind x.addrWidth addr n

/-- The write of a page at `addr` that the block issues in a session (20_memory.md R43, R46, R48). -/
def writeTxn (x : Session) (addr : Nat) (page : List Byte) : ChipTxn := .writePage x.ifkind x.addrWidth addr page

/-- The bytes the collaborator answers to a read that is issued after `history` (20_memory.md R47). -/
def chipAnswers (chip : Collaborator) (history : List ChipTxn) (x : Session) (addr n : Nat) : List Byte :=
  (List.range n).map (chipByte chip (history ++ [readTxn x addr n]) addr)

/-- `ChipRead(IFKIND, addr, n)` (20_memory.md R47): one read transaction, answered with exactly `n` bytes. -/
def chipRead (x : Session) (addr n : Nat) (s : State) : List Byte × State :=
  (chipAnswers s.chip s.chipLog x addr n, { s with chipLog := s.chipLog ++ [readTxn x addr n] })

/-- The collaborator after it has taken a page (20_memory.md R59). -/
def chipTake (addr : Nat) (page : List Byte) : Collaborator → Collaborator
  | .oracle => .oracle
  | .reference cells => .reference (Memory.setBytes cells addr page)

/-- The collaborator after a run of transactions: only a page write changes it (20_memory.md R51, R59). -/
def chipAfter : Collaborator → List ChipTxn → Collaborator
  | chip, [] => chip
  | chip, .read _ _ _ _ :: txns => chipAfter chip txns
  | chip, .writePage _ _ addr page :: txns => chipAfter (chipTake addr page chip) txns

/-- `ChipWritePage(IFKIND, addr, page)` (20_memory.md R48): one write transaction carrying the whole page. -/
def chipWritePage (x : Session) (addr : Nat) (page : List Byte) (s : State) : State :=
  { s with chip := chipTake addr page s.chip, chipLog := s.chipLog ++ [writeTxn x addr page] }

/-- `Respond(text)` (41_framer.md R160): the response line is `text` and then LF, sent from its start. RESP holds
the LF (10_state.md R25, "plus 2"; entry 13). -/
def respond (text : List Byte) (s : State) : State := { s with resp := text ++ [lineFeed], txptr := 0 }

/-- `raise Reject(E)` (60_exceptions.md R233), the one operation by which a command is rejected: nothing is saved,
no mode changes, the response becomes `"-" ++ message(E)`. There is no return from it (R236). -/
def reject (c : Cause) (s : State) : State := respond (minus (message s.par c)) s

/-- The dispatcher's mode test (42_commands.md R170, R171): the invalid mode first, then the modes that admit the
command, then E_BADMODE, before any look at the payload. -/
def admitted (admits : Mode → Bool) (run : State → Outcome) (s : State) : Outcome :=
  if s.mode = .invalid then .fault .invalidMode
  else if admits s.mode then run s
  else .next (reject .badMode s)

/-- The banner line's text (70_reset_and_hazards.md R272, 42_commands.md R172). -/
def bannerLine (p : Params) : List Byte := plus p.bannerText

/-- The longest response line: a READ response, or the longest text response plus 2 (10_state.md R25). -/
def respCap (p : Params) : Nat :=
  max (1 + 2 * (p.aMax + p.nMax + 2) + 1)
    (2 + [p.bannerText.length, p.okText.length,
      (initText p { ifkind := .spi, pageExp := 7, capExp := 31, addrWidth := 0 }).length,
      p.msgUnrecognised.length, p.msgBadMode.length, p.msgIdent.length, p.msgReserved.length, p.msgLength.length,
      (message p .checksum).length, (message p .range).length, (message p .sequence).length].foldr max 0)

end Sys2Proof.Machine
end

