-- ==== Sys2Proof/Machine/SystemCommands.lean ====
section
/-! DEFINITION. SystemCommands.lean: RESET, INIT and the unrecognised line (42_commands.md sections 2, 3, 7). -/

namespace Sys2Proof.Machine

/-- RESET's effect (42_commands.md R172): WAITING, no write buffer, the banner as the response; the session fields and
WB_BASE get no value, that is a free one each (90_conflicts.md C3, C10; entries 10, 25). -/
def doReset (s : State) : State :=
  respond (bannerLine s.par) { s with
    mode := .waiting
    session := idSession (Config.unsetIdentifier s.draws)
    wb := []
    wbBase := (Config.unsetBase s.draws).toNat
    wbFill := 0
    draws := s.draws + 1 }

/-- RESET (42_commands.md R172): admitted in every mode, the payload ignored (D18). -/
def execReset (_payload : List Byte) (s : State) : Outcome :=
  admitted (fun _ => true) (fun s => .next (doReset s)) s

/-- INIT's checks (42_commands.md R173 steps 1, 3, 4): the cause of the first that fails, or the identifier. -/
def initCheck (p : Params) (payload : List Byte) : Except Cause (BitVec 16) :=
  match payload with
  | [hi, lo] =>
    if idReserved (field16 hi lo) ≠ 0 then .error .reserved
    else if p.aMax < (idAddrWidth (field16 hi lo)).toNat then .error .ident
    else .ok (field16 hi lo)
  | _ => .error .ident

/-- INIT's effect (42_commands.md R173 steps 5 to 7): the session fields, READY, the success text. -/
def doInit (id : BitVec 16) (s : State) : State :=
  respond (plus (initText s.par (idSession id))) { s with session := idSession id, mode := .ready }

/-- INIT (42_commands.md R173): admitted in WAITING only. -/
def execInit (payload : List Byte) (s : State) : Outcome :=
  admitted (fun m => m == .waiting)
    (fun s =>
      match initCheck s.par payload with
      | .error c => .next (reject c s)
      | .ok id => .next (doInit id s)) s

/-- UNRECOGNISED (42_commands.md R179, R170): a framing error is rejected before the mode is looked at, an unknown
command character after the invalid-mode guard. -/
def execUnrecognised (line : BadLine) (s : State) : Outcome :=
  match line with
  | .framing => .next (reject .unrecognised s)
  | .command _ _ => admitted (fun _ => true) (fun s => .next (reject .unrecognised s)) s

end Sys2Proof.Machine
end

