-- ==== Sys2Proof/Machine/WriteBuffer.lean ====
section
/-! DEFINITION. WriteBuffer.lean: the page-write buffer manager (43_write_buffer.md). -/

namespace Sys2Proof.Machine

/-- `WbPrime(addr)` (43_write_buffer.md R210). What WB held before is overwritten and not read (42_commands.md
R176): nothing but the primed bytes is content afterwards (10_state.md R18). -/
def wbPrime (x : Session) (addr : Nat) (s : State) : State :=
  let k := addr % x.pageSize
  if k = 0 then { s with wb := [], wbBase := addr, wbFill := 0 }
  else
    let answer := chipRead x (addr - k) k s
    { answer.2 with wb := storeBytes (wbCap s.par) [] 0 answer.1, wbBase := addr - k, wbFill := k }

/-- `WbAppend(data)` (43_write_buffer.md R211). -/
def wbAppend (data : List Byte) (s : State) : State :=
  { s with wb := storeBytes (wbCap s.par) s.wb s.wbFill data, wbFill := s.wbFill + data.length }

/-- One turn of the loop of `WbFlush()` (43_write_buffer.md R212): write out the first page, slide the rest down. -/
def wbFlushPage (x : Session) (s : State) : State :=
  { chipWritePage x s.wbBase (readBytes .write s.draws s.wb 0 x.pageSize) s with
    wb := Memory.slideDown (Memory.truncate s.wb s.wbFill) x.pageSize
    wbBase := s.wbBase + x.pageSize
    wbFill := s.wbFill - x.pageSize }

/-- The loop of `WbFlush()`, at most `fuel` turns. -/
def wbFlushLoop (x : Session) : Nat → State → State
  | 0, s => s
  | fuel + 1, s => if s.wbFill < x.pageSize then s else wbFlushLoop x fuel (wbFlushPage x s)

/-- `WbFlush()` (43_write_buffer.md R212). WB_FILL falls by at least 2 each turn, so WB_FILL turns are enough. -/
def wbFlush (x : Session) (s : State) : State := wbFlushLoop x s.wbFill s

/-- The bytes that complete the last page, and the state after fetching them (43_write_buffer.md R213): read from
the chip, or a constant without a read. -/
def tailBytes (x : Session) (s : State) : List Byte × State :=
  match s.par.tailFill with
  | .preserve => chipRead x (s.wbBase + s.wbFill) (x.pageSize - s.wbFill) s
  | .pad v => (List.replicate (x.pageSize - s.wbFill) v, s)

/-- `WbFinalise()` (43_write_buffer.md R213). WB_BASE is left as it is. -/
def wbFinalise (x : Session) (s : State) : State :=
  if s.wbFill = 0 then s
  else
    let tail := tailBytes x s
    let wb := storeBytes (wbCap s.par) s.wb s.wbFill tail.1
    { chipWritePage x s.wbBase (readBytes .write s.draws wb 0 x.pageSize) tail.2 with wb := [], wbFill := 0 }

end Sys2Proof.Machine
end

