-- ==== Sys2Proof/Machine/TransferCommands.lean ====
section
/-! DEFINITION. TransferCommands.lean: READ, WRITE and DONE (42_commands.md sections 4 to 6). -/

namespace Sys2Proof.Machine

/-- READ's checks (42_commands.md R174 steps 1, 3). -/
def readCheck (x : Session) (payload : List Byte) : Option Cause :=
  if payload.length ≠ x.addrWidth.toNat then some .length
  else if x.capacity ≤ addrOf x payload then some .range
  else none

/-- `n = min(N_MAX, CAPACITY - addr)` (42_commands.md R174 step 4). -/
def readLength (p : Params) (x : Session) (payload : List Byte) : Nat :=
  min p.nMax (x.capacity - addrOf x payload)

/-- The READ success text after its `+` (30_encoding.md R82, 42_commands.md R174 steps 6, 7). -/
def readText (p : Params) (addr data : List Byte) : List Byte :=
  hexText p.hexUpper (addr ++ data ++ checksumBytes (checksum (addr ++ data)))

/-- READ's effect (42_commands.md R174 steps 4 to 7): one chip read, its bytes staged in LB after the address. -/
def doRead (x : Session) (payload : List Byte) (s : State) : State :=
  let answer := chipRead x (addrOf x payload) (readLength s.par x payload) s
  respond (plus (readText s.par payload answer.1))
    { answer.2 with lb := storeBytes (lineCap s.par) s.lb (x.addrWidth.toNat + 1) answer.1 }

/-- READ (42_commands.md R174): admitted in READY only. -/
def execRead (payload : List Byte) (s : State) : Outcome :=
  admitted (fun m => m == .ready)
    (fun s =>
      match readCheck s.session payload with
      | some c => .next (reject c s)
      | none => .next (doRead s.session payload s)) s

/-- WRITE's checks in their order (42_commands.md R175 steps 1 to 7): the cause of the first that fails, if any. In
READY the continuity check does not apply (R176, R177). -/
def writeCheck (x : Session) (payload : List Byte) (s : State) : Option Cause :=
  if payload.length < x.addrWidth.toNat + 1 + 2 then some .length
  else if s.par.nMax < dataCount x payload then some .length
  else if checksum (checkedBytes x payload) ≠ checksumField payload then some .checksum
  else if s.mode = .writing ∧ addrOf x payload ≠ s.wbBase + s.wbFill then some .sequence
  else if x.capacity ≤ addrOf x payload ∨ x.capacity < addrOf x payload + dataCount x payload then some .range
  else none

/-- Step 8 of WRITE (42_commands.md R175): prime in READY, nothing in WRITING. -/
def writePrime (x : Session) (addr : Nat) (s : State) : State := if s.mode = .ready then wbPrime x addr s else s

/-- Steps 8 to 10 of WRITE (42_commands.md R175): prime, append, flush. -/
def writeBuffer (x : Session) (payload : List Byte) (s : State) : State :=
  wbFlush x (wbAppend (dataBytes x payload) (writePrime x (addrOf x payload) s))

/-- WRITE's effect (42_commands.md R175 steps 8 to 12). -/
def doWrite (x : Session) (payload : List Byte) (s : State) : State :=
  respond (plus s.par.okText) { writeBuffer x payload s with mode := .writing }

/-- WRITE (42_commands.md R175): admitted in READY and WRITING. -/
def execWrite (payload : List Byte) (s : State) : Outcome :=
  admitted (fun m => m == .ready || m == .writing)
    (fun s =>
      match writeCheck s.session payload s with
      | some c => .next (reject c s)
      | none => .next (doWrite s.session payload s)) s

/-- DONE's effect (42_commands.md R178). -/
def doDone (x : Session) (s : State) : State :=
  respond (plus s.par.okText) { wbFinalise x s with mode := .ready }

/-- DONE (42_commands.md R178): admitted in WRITING only, the payload ignored (D18). -/
def execDone (_payload : List Byte) (s : State) : Outcome :=
  admitted (fun m => m == .writing) (fun s => .next (doDone s.session s)) s

end Sys2Proof.Machine
end

