-- ==== Sys2Proof/Machine/Dispatch.lean ====
section
/-! DEFINITION. Dispatch.lean: the command dispatcher (42_commands.md R170), one arm per row of the opcode table. -/

namespace Sys2Proof.Machine

-- The dispatcher of 42_commands.md R170; each meaning makes R170's mode test itself, first.
def exec (i : Instr) (s : State) : Host.Outcome State Fault Refusal :=
  match i with
  | .reset payload => Sys2Proof.Machine.execReset payload s
  | .init payload => Sys2Proof.Machine.execInit payload s
  | .read payload => Sys2Proof.Machine.execRead payload s
  | .write payload => Sys2Proof.Machine.execWrite payload s
  | .done payload => Sys2Proof.Machine.execDone payload s
  | .unrecognised line => Sys2Proof.Machine.execUnrecognised line s

end Sys2Proof.Machine
end

