-- ==== Sys2Proof/Machine/Flags.lean ====
section
/-! DEFINITION. Flags.lean: the block's three flags (10_state.md R23); it has no arithmetic condition codes. -/

namespace Sys2Proof.Machine

/-- LB_OVF is cleared at the start of each line (41_framer.md R141). -/
def clearOverflow (s : State) : State := { s with lbOvf := false }

/-- LB_OVF is set when a character arrives and the line buffer is full (41_framer.md R143). -/
def setOverflow (s : State) : State := { s with lbOvf := true }

/-- LINE_INVALID is cleared at the start of each decode (41_framer.md R144). -/
def clearInvalid (s : State) : State := { s with lineInvalid := false }

/-- A framing error (41_framer.md R147): LINE_INVALID is set, and LB holds no value any more (entry 9). -/
def markInvalid (s : State) : State := { s with lineInvalid := true, lb := [] }

/-- CRIT is set by SUART at the start of a frame (40_softuart.md R115, R125). -/
def critOn (u : Suart) : Suart := { u with crit := true }

/-- CRIT is cleared by SUART at the end of a frame (40_softuart.md R115, R125). -/
def critOff (u : Suart) : Suart := { u with crit := false }

end Sys2Proof.Machine
end

