-- ==== Sys2Proof/Machine/SoftUart.lean ====
section
/-! DEFINITION. SoftUart.lean: SUART at bit level (40_softuart.md). One definition here runs one cycle of `clk`. -/

namespace Sys2Proof.Machine

/-- Start `wait(t)`: `DLY <- t / DLY_UNIT` (40_softuart.md R128). -/
def loadDelay (p : Params) (t : Nat) (u : Suart) : Suart :=
  { u with dly := BitVec.ofNat 8 (t / p.dlyUnit), dlySub := p.dlyUnit }

/-- One cycle of a wait: `DLY <- DLY - 1` every `DLY_UNIT` cycles (40_softuart.md R128). -/
def tickDelay (p : Params) (u : Suart) : Suart :=
  if 1 < u.dlySub then { u with dlySub := u.dlySub - 1 }
  else if u.dly.toNat ≤ 1 then { u with dly := 0, dlySub := 0 }
  else { u with dly := u.dly - 1, dlySub := p.dlyUnit }

/-- The frame of a byte, bit 0 sent first: start 0, the data bits, stop 1 (40_softuart.md R113). -/
def txFrame (b : Byte) : BitVec 10 := 1#1 ++ b ++ 0#1

/-- The first bit period of a frame: `TXSR <- {1, b, 0}`, `TXD <- TXSR[0]`, `wait(T_TX)` (40_softuart.md R112). -/
def startBits (p : Params) (b : Byte) (u : Suart) : Suart :=
  loadDelay p p.tTx { u with txsr := txFrame b, bitcnt := 10, preLeft := 0, txd := (txFrame b).getLsbD 0 }

/-- `UartTransmit(b)` is entered: TX, CRIT, the direction, idle-high, then `wait(TX_PRE)` if there is one, else
the frame (40_softuart.md R112). -/
def txEnter (p : Params) (b : Byte) (u : Suart) : Suart :=
  let u := { critOn u with uphase := .tx, txdOe := p.singleWire || u.txdOe, txd := true }
  if p.txPre = 0 then startBits p b u else { u with preLeft := p.txPre }

/-- The frame has ended: CRIT off, IDLE; TXD is left at the stop level (40_softuart.md R112). -/
def endFrame (u : Suart) : Suart :=
  { critOff u with uphase := .idle, bitcnt := 0, dly := 0, dlySub := 0, preLeft := 0 }

/-- One bit period of the transmit frame has ended and another follows: `TXD <- TXSR[k]` (40_softuart.md R112). -/
def txNextBit (p : Params) (u : Suart) : Suart :=
  loadDelay p p.tTx { u with bitcnt := u.bitcnt - 1, txd := u.txsr.getLsbD (11 - u.bitcnt) }

/-- `UartReceive()` is entered: the pin direction, then RX_WAIT (40_softuart.md R120). -/
def rxEnter (p : Params) (u : Suart) : Suart :=
  { u with uphase := .rxWait, txdOe := !p.singleWire && u.txdOe }

/-- One cycle of the poll: the first 0 read starts the frame (40_softuart.md R120, R121). BITCNT counts the start
bit, the eight data bits and the stop bit (entry 12). -/
def rxPoll (p : Params) (rxd : Bool) (u : Suart) : Suart :=
  if rxd then u else loadDelay p p.tHalf { critOn u with uphase := .rxFrame, bitcnt := 10 }

/-- A wait of the receive frame has ended and another follows: after the half-bit pre-roll nothing is sampled
(BITCNT 10); after each of the next eight waits `RXSR[i] <- rxd`, with `i = 9 - BITCNT` (40_softuart.md R120). -/
def rxNextBit (p : Params) (rxd : Bool) (u : Suart) : Suart :=
  let sampled : BitVec 8 :=
    if u.bitcnt = 10 then u.rxsr
    else (u.rxsr &&& ~~~(BitVec.twoPow 8 (9 - u.bitcnt))) ||| (if rxd then BitVec.twoPow 8 (9 - u.bitcnt) else 0)
  loadDelay p p.tRx { u with rxsr := sampled, bitcnt := u.bitcnt - 1 }

end Sys2Proof.Machine
end

