-- ==== Sys2Proof/Machine/Framer.lean ====
section
/-! DEFINITION. Framer.lean: the line reader, the hex decoder in place, the fetched instruction, and the sending of
a response (41_framer.md). -/

namespace Sys2Proof.Machine

/-- P_RXLINE is entered: `LB_LEN <- 0`, `LB_OVF <- 0` (41_framer.md R141); nothing of the last line survives
(20_memory.md R57; entry 9). -/
def enterRxLine (s : State) : State := { clearOverflow s with phase := .rxLine, lbLen := 0, lb := [] }

/-- One character of `ReadLine()` (41_framer.md R141, R143): LF ends the line and is not stored; any other
character is stored while there is room, else dropped with LB_OVF set. -/
def takeChar (c : Byte) (s : State) : State :=
  if c = lineFeed then { s with phase := .decode }
  else if s.lbLen < lineCap s.par - 1 then { s with lb := Memory.set s.lb s.lbLen c, lbLen := s.lbLen + 1 }
  else setOverflow s

/-- The loop of `DecodeLine()` for the `k` pairs from number `j` on, left to right and in place (41_framer.md R144,
R146): `none` is a non-hex character (R147). -/
def decodeLoop (draw : Nat) : Nat → Nat → Memory → Option Memory
  | 0, _, lb => some lb
  | k + 1, j, lb =>
    match hexPair (readByte .line draw lb (1 + 2 * j)) (readByte .line draw lb (2 + 2 * j)) with
    | some b => decodeLoop draw k (j + 1) (Memory.set lb (1 + j) b)
    | none => none

/-- The decoder after the count tests: CMD and DLEN, then the pairs; on success `LB[DLEN+1 ..]` holds no value
(20_memory.md R41; entry 9). -/
def decodeDigits (s : State) : State :=
  let t := { s with cmd := readByte .line s.draws s.lb 0, dlen := (s.lbLen - 1) / 2 }
  match decodeLoop s.draws ((s.lbLen - 1) / 2) 0 s.lb with
  | none => markInvalid t
  | some lb => { t with lb := Memory.truncate lb ((s.lbLen - 1) / 2 + 1) }

/-- `DecodeLine()` (41_framer.md R144): too long, then even count, then the digits. -/
def decodeLine (s : State) : State :=
  if s.lbOvf then markInvalid s
  else if s.lbLen % 2 = 0 then markInvalid s
  else decodeDigits (clearInvalid s)

/-- The instruction in CMD, LB[1 .. DLEN] and LINE_INVALID: what `Dispatch()` looks at (42_commands.md R170). -/
def fetchInstr (s : State) : Instr :=
  if s.lineInvalid then .unrecognised .framing
  else selectCommand s.cmd (readBytes .line s.draws s.lb 1 s.dlen)

/-- ENGINE's turn while a line is sent (41_framer.md R160): transmit the next character, or, after the last, read
the next line. -/
def sendNext (s : State) : State :=
  match s.resp[s.txptr]? with
  | some b => { s with suart := txEnter s.par b s.suart }
  | none => enterRxLine s

/-- ENGINE's turn in P_BANNER (41_framer.md R140): the banner line is staged, then sent like a response (entry
13). -/
def sendBanner (s : State) : State :=
  if s.resp = [] then respond (bannerLine s.par) s else sendNext s

/-- ENGINE's turn in P_RXLINE: `UartReceive()` is called (41_framer.md R141). -/
def beginReceive (s : State) : State := { s with suart := rxEnter s.par s.suart }

/-- The character being sent, `text[TXPTR]` (41_framer.md R160). -/
def currentChar (s : State) : Byte := (s.resp[s.txptr]?).getD (Config.unwrittenByte .response s.draws s.txptr)

/-- One cycle of `UartTransmit` (40_softuart.md R112): the idle-high hold, then the bit periods. -/
def txCycle (s : State) : State :=
  if 1 < s.suart.preLeft then { s with suart := { s.suart with preLeft := s.suart.preLeft - 1 } }
  else if s.suart.preLeft = 1 then { s with suart := startBits s.par (currentChar s) s.suart }
  else
    let u := tickDelay s.par s.suart
    if u.dly ≠ 0 then { s with suart := u }
    else if 1 < u.bitcnt then { s with suart := txNextBit s.par u }
    else { s with suart := endFrame u, txptr := s.txptr + 1 }

/-- One cycle of the start-edge poll (40_softuart.md R121, R124). -/
def rxPollCycle (rxd : Bool) (s : State) : State := { s with suart := rxPoll s.par rxd s.suart }

/-- One cycle of a receive frame (40_softuart.md R120, R122). At the end of the last wait the call returns RXSR
and the line reader takes it; the stop bit is not looked at (R123). -/
def rxCycle (rxd : Bool) (s : State) : State :=
  let u := tickDelay s.par s.suart
  if u.dly ≠ 0 then { s with suart := u }
  else if 1 < u.bitcnt then { s with suart := rxNextBit s.par rxd u }
  else takeChar u.rxsr { s with suart := endFrame u }

end Sys2Proof.Machine
end

