-- ==== Sys2Proof/Machine/Fetch.lean ====
section
/-! DEFINITION. Fetch.lean: what `step` is made of: the edge it looks at, `rst`, the turn of ENGINE and the cycle of
SUART (41_framer.md R140, 70_reset_and_hazards.md R270), and how a row of the opcode table is put in place. -/

namespace Sys2Proof.Machine

/-- The inputs at the coming edge of `clk`: the first listed, or the steady one (entry 3). -/
def State.edge (s : State) : Edge := s.inputs.headD s.steady

/-- The edge has passed. -/
def State.tick (s : State) : State := { s with inputs := s.inputs.tail }

/-- The state in which ENGINE takes its turn: the edge has passed, if this turn takes it (entry 4). -/
def State.turn (s : State) : State := if s.edge.passes then s.tick else s

/-- PHASE moves on from P_EXEC to P_RESPOND, whatever the command did (10_state.md R22). -/
def leaveExec : Outcome → Outcome
  | .next s => .next { s with phase := .respond }
  | .fault f => .fault f
  | .refused r => .refused r

/-- P_DECODE, then P_EXEC (41_framer.md R140). -/
def decodePhase (s : State) : State := { decodeLine s with phase := .exec }

/-- P_EXEC, then P_RESPOND (41_framer.md R140): run the instruction in CMD, LB and LINE_INVALID. -/
def execPhase (s : State) : Outcome := leaveExec (exec (fetchInstr s) s)

/-- ENGINE's turn, by PHASE (41_framer.md R140). -/
def engineTurn (s : State) : Outcome :=
  match s.phase with
  | .banner => .next (sendBanner s)
  | .rxLine => .next (beginReceive s)
  | .decode => .next (decodePhase s)
  | .exec => execPhase s
  | .respond => .next (sendNext s)

/-- The chip accesses ENGINE has issued in P_EXEC when `rst` comes: the first `issued` of those its command makes, in
their order (70_reset_and_hazards.md R270, R284). In any other phase there are none. -/
def issuedByEngine (s : State) : List ChipTxn :=
  match s.phase, s.suart.uphase with
  | .exec, .idle =>
    match execPhase s with
    | .next t => (t.chipLog.drop s.chipLog.length).take s.edge.issued
    | .fault _ => []
    | .refused _ => []
  | _, _ => []

/-- An edge with `rst = 1` (70_reset_and_hazards.md R270): every register takes its reset value; the host, the
collaborator and what it was told are outside the block (R271), so pages handed over stay written. -/
def rstEdge (s : State) : State :=
  State.resetWith s.cfg s.inputs.tail s.steady (chipAfter s.chip (issuedByEngine s))
    (s.chipLog ++ issuedByEngine s) (s.draws + 1)

/-- One edge without `rst`: a cycle of SUART if it is busy, else ENGINE's turn unless it is held. -/
def runEdge (s : State) : Outcome :=
  match s.suart.uphase with
  | .tx => .next (txCycle s.tick)
  | .rxWait => .next (rxPollCycle s.edge.rxd s.tick)
  | .rxFrame => .next (rxCycle s.edge.rxd s.tick)
  | .idle => if s.edge.hold then .next s.tick else engineTurn s.turn

/-- SUART at rest, with the frame in progress given up. -/
def suartAtRest (u : Suart) : Suart := { endFrame u with txd := true }

/-- The line reader is given characters and then LF (41_framer.md R141); characters after a first LF stay unread. -/
def receiveLine : List Byte → State → State
  | [], s => takeChar lineFeed s
  | c :: cs, s => if c = lineFeed then takeChar lineFeed s else receiveLine cs (takeChar c s)

/-- The line has been received and decoded: PHASE is P_EXEC, and at the coming edge nothing keeps ENGINE from
running it (entry 15). -/
def placeLine (line : List Byte) (s : State) : State :=
  decodePhase
    (receiveLine line (enterRxLine { s with suart := suartAtRest s.suart, inputs := Edge.quiet :: s.inputs }))

end Sys2Proof.Machine
end

