-- ==== Sys2Proof/Machine/Step.lean ====
section
/-! DEFINITION. Step.lean: one step of the block. -/

namespace Sys2Proof.Machine

/-- One step: `rst` first, whatever the block is doing (70_reset_and_hazards.md R270), else SUART's cycle or
ENGINE's turn (41_framer.md R140). -/
def step (s : State) : Host.Outcome State Fault Refusal :=
  if s.edge.rst then .next (rstEdge s) else runEdge s

/-- The state whose very next step runs the instruction of a row of the opcode table (entries 14, 15). -/
def State.withFetchWord (s : State) (nbits w : Nat) : State := placeLine (tableLine nbits w) s

end Sys2Proof.Machine
end

