-- ==== Sys2Proof/Safety.lean ====
section
/-! DEFINITION. Safety.lean: the invariant of the block, and what a safe run is, in the terms claims use. -/

namespace Sys2Proof.Machine

/-- Exactly the bytes below `top` hold a value (10_state.md R18, R21; this implies the canonical form). -/
abbrev Memory.spans (m : Memory) (top : Nat) : Prop := m.map Prod.fst = List.range top

/-- The known cells of the collaborator. -/
def Collaborator.cells : Collaborator → Memory
  | .oracle => []
  | .reference cells => cells

/-- The pages, buffered bytes and cursors of a write transaction that is open: the points of 10_state.md R32, and at
least one byte accepted (42_commands.md R175 (d)). -/
structure OpenWrite (x : Session) (base fill : Nat) : Prop where
  aligned : x.pageSize ∣ base
  partialPage : fill < x.pageSize
  within : base + fill ≤ x.capacity
  started : 0 < base + fill

/-- Mode and session (10_state.md R11, R17, 42_commands.md R173 step 4, R180). -/
structure SessionInv (s : State) : Prop where
  modeLegal : s.mode ≠ .invalid
  widthAdmitted : s.mode ≠ .waiting → s.session.addrWidth.toNat ≤ s.par.aMax

/-- The write buffer (10_state.md R18, R20, R32) and the canonical form of the known cells. -/
structure BufferInv (s : State) : Prop where
  wbSpans : s.wb.spans s.wbFill
  closed : s.mode ≠ .writing → s.wbFill = 0
  opened : s.mode = .writing → OpenWrite s.session s.wbBase s.wbFill
  cellsWf : Memory.wf s.chip.cells = true

/-- The line buffer, the decoded line and the response (10_state.md R21, R24, R25; 20_memory.md R41). -/
structure FramerInv (s : State) : Prop where
  lbWf : Memory.wf s.lb = true
  lbWithin : ∀ c ∈ s.lb, c.1 < lineCap s.par
  lbLenFits : s.lbLen < lineCap s.par
  dlenFits : s.dlen ≤ maxPayload s.par
  reading : s.phase = .rxLine ∨ s.phase = .decode → s.lb.spans s.lbLen
  decoded : s.phase = .exec → s.lineInvalid = false → s.lb.spans (s.dlen + 1)
  banner : s.phase = .banner →
    (s.resp = [] ∧ s.txptr = 0 ∧ s.suart.uphase = .idle) ∨ s.resp = bannerLine s.par ++ [lineFeed]
  txptrFits : s.txptr ≤ s.resp.length

/-- A transmit frame in progress: held idle-high, or at bit period `10 - BITCNT` of the frame of the character at
TXPTR (40_softuart.md R112, R113). -/
def Transmitting (s : State) : Prop :=
  (0 < s.suart.preLeft ∧ s.suart.preLeft ≤ s.par.txPre ∧ s.suart.bitcnt = 0 ∧ s.suart.dly = 0 ∧ s.suart.dlySub = 0
    ∧ s.suart.txd = true)
  ∨ (s.suart.preLeft = 0 ∧ 1 ≤ s.suart.bitcnt ∧ s.suart.bitcnt ≤ 10 ∧ s.suart.dly ≠ 0 ∧ 1 ≤ s.suart.dlySub
    ∧ s.suart.dlySub ≤ s.par.dlyUnit
    ∧ (∃ b, s.resp[s.txptr]? = some b ∧ s.suart.txsr = txFrame b)
    ∧ s.suart.txd = s.suart.txsr.getLsbD (10 - s.suart.bitcnt))

/-- SUART (10_state.md R26 to R28, 60_exceptions.md R241): CRIT is 1 exactly in a frame, TXD is idle outside a
transmit, the counters rest outside a frame, and a frame runs only in the phase that calls it. -/
structure SuartInv (s : State) : Prop where
  critInFrame : s.suart.crit = (s.suart.uphase == .tx || s.suart.uphase == .rxFrame)
  idleHigh : s.suart.uphase ≠ .tx → s.suart.txd = true
  twoWires : s.par.singleWire = false → s.suart.txdOe = true
  rests : s.suart.uphase = .idle ∨ s.suart.uphase = .rxWait →
    s.suart.bitcnt = 0 ∧ s.suart.dly = 0 ∧ s.suart.dlySub = 0 ∧ s.suart.preLeft = 0
  sends : s.suart.uphase = .tx →
    (s.phase = .banner ∨ s.phase = .respond) ∧ s.txptr < s.resp.length ∧ Transmitting s
  receives : s.suart.uphase = .rxWait ∨ s.suart.uphase = .rxFrame → s.phase = .rxLine
  samples : s.suart.uphase = .rxFrame →
    1 ≤ s.suart.bitcnt ∧ s.suart.bitcnt ≤ 10 ∧ s.suart.dly ≠ 0 ∧ 1 ≤ s.suart.dlySub
      ∧ s.suart.dlySub ≤ s.par.dlyUnit ∧ s.suart.preLeft = 0

/-- The invariant of the block: it rules out the states no run reaches. -/
structure Inv (s : State) : Prop where
  sessionInv : SessionInv s
  bufferInv : BufferInv s
  framerInv : FramerInv s
  suartInv : SuartInv s

/-- The page writes that put out the first `q` pages of `content`, which belongs at `base`, in ascending order
(43_write_buffer.md R212, R215). -/
def pageWrites (x : Session) : Nat → Nat → List Byte → List ChipTxn
  | 0, _, _ => []
  | q + 1, base, content =>
    writeTxn x base (content.take x.pageSize)
      :: pageWrites x q (base + x.pageSize) (content.drop x.pageSize)

/-- Which modes admit which instruction (42_commands.md R171). -/
def admits : Instr → Mode → Bool
  | .reset _, m => m != .invalid
  | .init _, m => m == .waiting
  | .read _, m => m == .ready
  | .write _, m => m == .ready || m == .writing
  | .done _, m => m == .writing
  | .unrecognised _, _ => false

/-- MODE after an instruction, given whether it was accepted (42_commands.md R171, R181); DONE in WRITING always leads
to READY. -/
def modeAfter : Instr → Mode → Bool → Mode
  | .reset _, _, _ => .waiting
  | .init _, m, accepted => if accepted then .ready else m
  | .read _, m, _ => m
  | .write _, m, accepted => if accepted then .writing else m
  | .done _, m, _ => if m = .writing then .ready else m
  | .unrecognised _, m, _ => m

/-- Which causes an instruction can raise, by mode (60_exceptions.md R232). -/
def causesOf : Instr → Mode → List Cause
  | .reset _, _ => []
  | .init _, _ => [.badMode, .ident, .reserved]
  | .read _, _ => [.badMode, .length, .range]
  | .write _, .writing => [.badMode, .length, .checksum, .sequence, .range]
  | .write _, _ => [.badMode, .length, .checksum, .range]
  | .done _, _ => [.badMode]
  | .unrecognised _, _ => [.unrecognised]

/-- The response of the state is a success line (30_encoding.md R81). -/
def accepted (t : State) : Bool := t.resp.head? == some 0x2B#8

/-- The response of the state is a rejection line (30_encoding.md R81). -/
def rejected (t : State) : Bool := t.resp.head? == some 0x2D#8

/-- What every command leaves alone: what the framer holds, SUART, the instance and the inputs (60_exceptions.md
R234, 10_state.md R23 "No command writes a flag as a side effect"); the cursor is at the start of the response, and
the collaborator has changed by the recorded transactions only. -/
structure ExecFrame (s t : State) : Prop where
  lbLen : t.lbLen = s.lbLen
  cmd : t.cmd = s.cmd
  dlen : t.dlen = s.dlen
  lbOvf : t.lbOvf = s.lbOvf
  lineInvalid : t.lineInvalid = s.lineInvalid
  phase : t.phase = s.phase
  txptr : t.txptr = 0
  suart : t.suart = s.suart
  cfg : t.cfg = s.cfg
  inputs : t.inputs = s.inputs
  steady : t.steady = s.steady
  chip : ∃ txns, t.chipLog = s.chipLog ++ txns ∧ t.chip = chipAfter s.chip txns

/-- A hex digit as the block writes it (30_encoding.md R83, upper case). -/
def upperHex (c : Byte) : Byte := if 0x61 ≤ c.toNat ∧ c.toNat ≤ 0x66 then c - 0x20#8 else c

/-- The number a text of decimal digits writes (41_framer.md R161). -/
def decimalValue (text : List Byte) : Nat := text.foldl (fun v c => v * 10 + (c.toNat - 0x30)) 0

/-- The edge number `k` from now on: listed, or the steady one after the list (entry 3). -/
def edgeAt (s : State) (k : Nat) : Edge := s.inputs.getD k s.steady

/-- None of the next `n` edges has `rst = 1`. -/
def noReset (s : State) (n : Nat) : Prop := ∀ k, k < n → (edgeAt s k).rst = false

/-- At each of the next `n` edges ENGINE acts at once and in no time, and none has `rst = 1`. -/
def noDelay (s : State) (n : Nat) : Prop :=
  ∀ k, k < n → (edgeAt s k).rst = false ∧ (edgeAt s k).hold = false ∧ (edgeAt s k).passes = false

/-- SUART is at one of the eight sample points of a receive frame (40_softuart.md R122, R126). -/
def atSamplePoint (s : State) : Prop :=
  s.suart.uphase = .rxFrame ∧ (tickDelay s.par s.suart).dly = 0 ∧ 1 < s.suart.bitcnt ∧ s.suart.bitcnt ≠ 10

/-- An outcome with the inputs still to come taken out. -/
def withoutInputs : Outcome → Outcome
  | .next s => .next { s with inputs := [], steady := Edge.quiet }
  | .fault f => .fault f
  | .refused r => .refused r

/-- An outcome with the session taken out. -/
def withoutSession : Outcome → Outcome
  | .next s => .next { s with session := Session.reset }
  | .fault f => .fault f
  | .refused r => .refused r

/-- The content of WB after priming at `addr`: the chip's bytes from the start of the page (43_write_buffer.md
R210). -/
def primedBytes (x : Session) (addr : Nat) (s : State) : List Byte :=
  if addr % x.pageSize = 0 then []
  else chipAnswers s.chip s.chipLog x (addr - addr % x.pageSize) (addr % x.pageSize)

/-- The read that priming at `addr` issues, if any (43_write_buffer.md R210). -/
def primingRead (x : Session) (addr : Nat) : List ChipTxn :=
  if addr % x.pageSize = 0 then [] else [readTxn x (addr - addr % x.pageSize) (addr % x.pageSize)]

/-- A WRITE payload passes every check but the continuity check (42_commands.md R175 steps 1 to 4, 7). -/
structure WritePayloadGood (p : Params) (x : Session) (payload : List Byte) : Prop where
  longEnough : x.addrWidth.toNat + 1 + 2 ≤ payload.length
  atMostNMax : dataCount x payload ≤ p.nMax
  checksumGood : checksum (checkedBytes x payload) = checksumField payload
  inRange : addrOf x payload + dataCount x payload ≤ x.capacity

/-- A run is safe when no number of steps ends in a fault or a refusal (60_exceptions.md R239). -/
def Safe (s : State) : Prop := ∀ k, ∃ t, Host.Core.run Sys2Proof.core k s = .next t

end Sys2Proof.Machine
end

