-- ==== Sys2Proof/Certificates/Slice0/Obligations.lean ====
section
/-! DEFINITION. Obligations.lean: the statements for the provers. -/

open Sys2Proof Sys2Proof.Machine

/-! ## Encoding -/

/-- 30_encoding.md sections 4, 5, 9 (R73 to R75, R84, R89): what the encoder writes for a well-formed instruction,
every operand at every value, the decoder reads back, and the rest of the stream is left. -/
def Obligations.DecodeEncodeAgree : Prop :=
  ∀ (p : Params) (i : Instr) (rest : List Byte), i.wellFormed p = true →
    decodeStream p (encodeLine i ++ rest) = .ok (i, rest)

/-- Lines of 95_test_vectors.md V4, V6, V8, V9 written out as character codes. -/
def Obligations.SpecLinesDecode : Prop :=
  decode Params.defaults [0x21#8] = .reset []
  ∧ decode Params.defaults [0x69#8, 0x35#8, 0x37#8, 0x32#8, 0x30#8] = .init [0x57#8, 0x20#8]
  ∧ decode Params.defaults [0x72#8, 0x37#8, 0x46#8, 0x66#8, 0x38#8] = .read [0x7F#8, 0xF8#8]
  ∧ decode Params.defaults [0x77#8, 0x30#8, 0x37#8, 0x36#8, 0x36#8, 0x30#8, 0x30#8, 0x36#8, 0x44#8]
      = .write [0x07#8, 0x66#8, 0x00#8, 0x6D#8]
  ∧ decode Params.defaults [0x64#8] = .done []
  ∧ decode Params.defaults [0x78#8, 0x30#8, 0x30#8] = .unrecognised (.command 0x78#8 [0x00#8])
  ∧ decode Params.defaults [0x21#8, 0x30#8] = .unrecognised .framing

/-- 30_encoding.md sections 4, 7: every line without an LF means a well-formed instruction, and a well-framed line
is that instruction's own line but for the case of its digits. -/
def Obligations.LineSpellsItsInstruction : Prop :=
  ∀ (p : Params) (line : List Byte), lineFeed ∉ line →
    (decode p line).wellFormed p = true
    ∧ (decode p line ≠ .unrecognised .framing →
        ∃ cmd digits, line = cmd :: digits ∧ encode (decode p line) = cmd :: digits.map upperHex)

/-- 30_encoding.md sections 4, 8 (R74, R75, R85 (a)): the lines that are UNRECOGNISED by their framing are exactly
those that are too long, have an even count, or hold a non-hex character after the first. -/
def Obligations.FramingErrorsExactly : Prop :=
  ∀ (p : Params) (line : List Byte),
    decode p line = .unrecognised .framing
      ↔ lineCap p - 1 < line.length ∨ line.length % 2 = 0 ∨ ∃ c ∈ line.tail, hexValue c = none

/-- 30_encoding.md section 6 (R82, whose last sentence the spec marks as derived): with its `+` taken as the command
character, the decoder parses a READ response into address, data and checksum bytes, and its checksum verifies. -/
def Obligations.ReadResponseParsesAsWrite : Prop :=
  ∀ (p : Params) (x : Session) (addr data : List Byte), addr.length = x.addrWidth.toNat →
    ∃ digits payload, plus (readText p addr data) = 0x2B#8 :: digits
      ∧ digits.length = 2 * (addr.length + data.length + 2)
      ∧ hexPairs digits = some payload
      ∧ addrBytes x payload = addr ∧ dataBytes x payload = data
      ∧ checksum (checkedBytes x payload) = checksumField payload

/-! ## Operands -/

/-- 41_framer.md section 4 (R151, properties the spec marks as derived): a checksum made by the encoder verifies;
changing any single byte of the payload or of the checksum field makes verification fail; swapping two bytes is not
seen. -/
def Obligations.ChecksumSeesOneByte : Prop :=
  (∀ (x : Session) (addr data : List Byte), addr.length = x.addrWidth.toNat →
    checksum (checkedBytes x (addr ++ data ++ checksumBytes (checksum (addr ++ data))))
      = checksumField (addr ++ data ++ checksumBytes (checksum (addr ++ data))))
  ∧ (∀ (x : Session) (payload : List Byte) (k : Nat) (v : Byte), x.addrWidth.toNat + 2 ≤ payload.length →
      checksum (checkedBytes x payload) = checksumField payload → k < payload.length → payload[k]? ≠ some v →
      checksum (checkedBytes x (payload.set k v)) ≠ checksumField (payload.set k v))
  ∧ (∀ (front rear : List Byte) (a b : Byte),
      checksum (front ++ a :: b :: rear) = checksum (front ++ b :: a :: rear))

/-- 41_framer.md section 5 (R161, the spec's decision D24): the decimal text of a number is made of decimal digits,
is worth the number, has no leading zero, and is the single character `0` for zero. -/
def Obligations.DecimalTextIsTheNumber : Prop :=
  ∀ v : Nat, decimalValue (dec v) = v ∧ (∀ c ∈ dec v, 0x30 ≤ c.toNat ∧ c.toNat ≤ 0x39)
    ∧ (v ≠ 0 → (dec v).head? ≠ some 0x30#8) ∧ dec 0 = [0x30#8]

/-! ## The line reader, the decoder and the dispatcher -/

/-- 41_framer.md section 2 (R141 to R143): characters without an LF are stored in order while there is room, the
surplus is dropped and sets LB_OVF, nothing else changes, and the LF then moves on to P_DECODE without being stored.
-/
def Obligations.LineReaderStoresCharacters : Prop :=
  ∀ (line : List Byte) (s : State), lineFeed ∉ line → s.lb = [] → s.lbLen = 0 → s.lbOvf = false →
    line.foldl (fun u c => takeChar c u) s
      = { s with
          lb := Memory.ofBytes 0 (line.take (lineCap s.par - 1))
          lbLen := min line.length (lineCap s.par - 1)
          lbOvf := decide (lineCap s.par - 1 < line.length) }
    ∧ takeChar lineFeed (line.foldl (fun u c => takeChar c u) s)
      = { line.foldl (fun u c => takeChar c u) s with phase := .decode }

/-- 41_framer.md section 3 (R144 to R147): the decoder that overwrites the line buffer in place, left to right, and
the dispatcher after it, find the instruction that the line of characters means. -/
def Obligations.InPlaceDecoderAgrees : Prop :=
  ∀ (s t : State) (line : List Byte), s.lb = Memory.ofBytes 0 line → s.lbLen = line.length →
    s.lbLen < lineCap s.par → t = decodeLine s →
    fetchInstr t = (if s.lbOvf then .unrecognised .framing else decode s.par line)
    ∧ t = { s with lineInvalid := t.lineInvalid, cmd := t.cmd, dlen := t.dlen, lb := t.lb }
    ∧ (t.lineInvalid = false → ∃ digits payload, line = t.cmd :: digits ∧ hexPairs digits = some payload
        ∧ t.dlen = payload.length ∧ t.lb = Memory.ofBytes 0 (t.cmd :: payload))

/-- 41_framer.md section 1 (R140), 42_commands.md section 1 (R170): in P_EXEC, at an edge that neither resets nor
holds ENGINE, the step runs the fetched instruction and PHASE moves on to P_RESPOND; the edge passes with it if the
edge says so (the model's choice, entry 4). -/
def Obligations.StepRunsTheFetchedInstruction : Prop :=
  ∀ (s t : State) (i : Instr), s.phase = .exec → s.suart.uphase = .idle → s.edge.rst = false →
    s.edge.hold = false → fetchInstr s = i →
    t = (if s.edge.passes then { s with inputs := s.inputs.tail } else s) →
    step s = (match exec i t with
      | .next u => .next { u with phase := .respond }
      | .fault f => .fault f
      | .refused r => .refused r)

/-- 41_framer.md sections 1, 3, 42_commands.md section 1: from P_DECODE with a line of characters in LB, the first
step decodes it, and the next one that the edge allows runs the instruction the line means; each takes its edge or
not as the edge says (the model's choice, entry 4). -/
def Obligations.ReceivedLineIsRun : Prop :=
  ∀ (s : State) (line : List Byte), s.phase = .decode → s.suart.uphase = .idle → s.edge.rst = false →
    s.edge.hold = false → s.lb = Memory.ofBytes 0 line → s.lbLen = line.length → s.lbLen < lineCap s.par →
    s.lbOvf = false →
    ∃ t, step s = .next t ∧ t.phase = .exec ∧ t.inputs = (if s.edge.passes then s.inputs.tail else s.inputs)
      ∧ (t.edge.rst = false → t.edge.hold = false →
          step t = (match exec (decode s.par line) t.turn with
            | .next u => .next { u with phase := .respond }
            | .fault f => .fault f
            | .refused r => .refused r))

/-- 70_reset_and_hazards.md section 1 (R270, R271), 60_exceptions.md section 5 (R237): a decoded command is cut short.
If decoding takes its edge and the edges after it hold ENGINE in P_EXEC until one with `rst`, the block is reset and
the collaborator has seen the first of the accesses the command makes, as many as that edge says (the model's choice,
entries 4, 5). -/
def Obligations.CommandIsCutShortByRst : Prop :=
  ∀ (s : State) (line : List Byte) (n : Nat), s.phase = .decode → s.suart.uphase = .idle →
    s.lb = Memory.ofBytes 0 line → s.lbLen = line.length → s.lbLen < lineCap s.par → s.lbOvf = false →
    (edgeAt s 0).rst = false → (edgeAt s 0).hold = false → (edgeAt s 0).passes = true →
    (∀ k, 1 ≤ k → k ≤ n → (edgeAt s k).rst = false ∧ (edgeAt s k).hold = true) →
    (edgeAt s (n + 1)).rst = true →
    ∃ (t : State) (issued : List ChipTxn), Host.Core.run Sys2Proof.core (1 + n) s = .next t ∧ t.phase = .exec
      ∧ Host.Core.run Sys2Proof.core (1 + n + 1) s = .next (State.resetWith s.cfg (s.inputs.drop (n + 2)) s.steady
          (chipAfter s.chip issued) (s.chipLog ++ issued) (s.draws + 1))
      ∧ ∀ u, exec (decode s.par line) t = .next u →
          issued = (u.chipLog.drop s.chipLog.length).take (edgeAt s (n + 1)).issued

/-- 92_eei_decisions.md (D35), 20_memory.md section 3 (R49): with SUART idle, a held edge passes and changes nothing
else, in every phase; where every coming edge holds, a chip access that never returns, the block stays as it is for
good. That an edge says how long ENGINE takes is the model's choice (entries 3, 4). -/
def Obligations.HeldEdgeOnlyPasses : Prop :=
  (∀ s : State, s.suart.uphase = .idle → s.edge.rst = false → s.edge.hold = true →
    step s = .next { s with inputs := s.inputs.tail })
  ∧ (∀ (s : State) (k : Nat), s.suart.uphase = .idle → s.inputs = [] → s.steady.rst = false → s.steady.hold = true →
      Host.Core.run Sys2Proof.core k s = .next s)

/-- 42_commands.md section 1 (R171), section 8 (R181): a command that the mode does not admit is rejected with
E_BADMODE, an unrecognised line with E_UNRECOGNISED, and MODE after any command is the transition table's, by whether
the command was accepted. -/
def Obligations.ModeFollowsTheTable : Prop :=
  ∀ (i : Instr) (s : State), s.mode ≠ .invalid →
    (admits i s.mode = false → (∀ line, i ≠ .unrecognised line) → exec i s = .next (reject .badMode s))
    ∧ (∀ line, i = .unrecognised line → exec i s = .next (reject .unrecognised s))
    ∧ (∀ t, exec i s = .next t → t.mode = modeAfter i s.mode (accepted t))

/-- 42_commands.md section 7 (R180, the spec's decision D28): with MODE 3 every command but a badly framed line is
the fault, and no step writes MODE 3. -/
def Obligations.InvalidModeFaultsAndIsNeverWritten : Prop :=
  (∀ (i : Instr) (s : State), s.mode = .invalid → i ≠ .unrecognised .framing → exec i s = .fault .invalidMode)
  ∧ (∀ s t : State, s.mode ≠ .invalid → step s = .next t → t.mode ≠ .invalid)

/-! ## Rejections and responses -/

/-- 60_exceptions.md sections 2, 3 (R231, R233): a rejection is `-`, the message of its cause and LF, and nothing
else; the three texts the source fixes are as they stand in the table, the other five are the instance's. -/
def Obligations.RejectionTexts : Prop :=
  ∀ s : State,
    reject .unrecognised s = { s with resp := 0x2D#8 :: s.par.msgUnrecognised ++ [lineFeed], txptr := 0 }
    ∧ reject .badMode s = { s with resp := 0x2D#8 :: s.par.msgBadMode ++ [lineFeed], txptr := 0 }
    ∧ reject .ident s = { s with resp := 0x2D#8 :: s.par.msgIdent ++ [lineFeed], txptr := 0 }
    ∧ reject .reserved s = { s with resp := 0x2D#8 :: s.par.msgReserved ++ [lineFeed], txptr := 0 }
    ∧ reject .length s = { s with resp := 0x2D#8 :: s.par.msgLength ++ [lineFeed], txptr := 0 }
    ∧ reject .checksum s = { s with
        resp := 0x2D#8 :: chars ['I', 'n', 'v', 'a', 'l', 'i', 'd', ' ', 'c', 'h', 'e', 'c', 'k', 's', 'u', 'm', '.']
          ++ [lineFeed]
        txptr := 0 }
    ∧ reject .range s = { s with
        resp := 0x2D#8 :: chars ['A', 'd', 'd', 'r', 'e', 's', 's', ' ', 'o', 'u', 't', ' ', 'o', 'f', ' ',
          'r', 'a', 'n', 'g', 'e', '.'] ++ [lineFeed]
        txptr := 0 }
    ∧ reject .sequence s = { s with
        resp := 0x2D#8 :: chars ['D', 'a', 't', 'a', ' ', 'i', 's', ' ', 'n', 'o', 't', ' ',
          's', 'e', 'q', 'u', 'e', 'n', 't', 'i', 'a', 'l', '.'] ++ [lineFeed]
        txptr := 0 }

/-- R234: a rejected line changes the response staging and nothing else: no mode, session, buffer or chip change. -/
def Obligations.RejectionsArePrecise : Prop :=
  ∀ (i : Instr) (s t : State), exec i s = .next t → rejected t = true →
    t = { s with resp := t.resp, txptr := 0 }

/-- R232: a rejection of a line is one of the causes its command can raise, and some line of the command, in some
state, raises each of them. -/
def Obligations.EachCommandRaisesItsCauses : Prop :=
  (∀ (i : Instr) (s t : State), exec i s = .next t → rejected t = true →
    ∃ c ∈ causesOf i s.mode, t = reject c s)
  ∧ (∀ command ∈ [Instr.reset, .init, .read, .write, .done], ∀ c ∈ causesOf (command []) .writing,
      ∃ (payload : List Byte) (s : State), s.mode ≠ .invalid ∧ exec (command payload) s = .next (reject c s))
  ∧ ∀ (line : BadLine) (s : State), s.mode ≠ .invalid →
      exec (.unrecognised line) s = .next (reject .unrecognised s)

/-- 30_encoding.md section 6 (R81), 41_framer.md section 5 (R162): every command leaves one response line, `+` or
`-`, a text without LF, and LF, to be sent from its start. -/
def Obligations.EveryCommandLeavesOneLine : Prop :=
  ∀ (i : Instr) (s t : State), exec i s = .next t →
    ∃ text, (t.resp = plus text ++ [lineFeed] ∨ t.resp = minus text ++ [lineFeed]) ∧ lineFeed ∉ text ∧ t.txptr = 0

/-- 10_state.md section 6 (R25): no response is longer than RESP_CAP, in states that meet the invariant and for a
payload of the length the line buffer can give. -/
def Obligations.ResponsesFitTheirCapacity : Prop :=
  ∀ (i : Instr) (s t : State), Inv s → exec i s = .next t → t.resp.length ≤ respCap s.par

/-- 10_state.md sections 2 to 7 (R23, R234): the frame of every command over the registers. -/
def Obligations.CommandsKeepTheFramer : Prop :=
  ∀ (i : Instr) (s t : State), exec i s = .next t → ExecFrame s t

/-- 20_memory.md section 3 (R50), 42_commands.md sections 2 to 7: the frame of every command over the bytes: the
known cells of the chip outside the pages handed over, LB but for the bytes READ stages after the address, WB where
nothing writes it. -/
def Obligations.CommandsKeepOtherBytes : Prop :=
  (∀ (payload : List Byte) (s t : State), exec (.reset payload) s = .next t → t.lb = s.lb ∧ t.chip = s.chip)
  ∧ (∀ (payload : List Byte) (s t : State), exec (.init payload) s = .next t →
      t.lb = s.lb ∧ t.wb = s.wb ∧ t.wbBase = s.wbBase ∧ t.wbFill = s.wbFill ∧ t.chip = s.chip)
  ∧ (∀ (line : BadLine) (s t : State), exec (.unrecognised line) s = .next t →
      t.lb = s.lb ∧ t.wb = s.wb ∧ t.wbBase = s.wbBase ∧ t.wbFill = s.wbFill ∧ t.chip = s.chip
        ∧ t.session = s.session)
  ∧ (∀ (payload : List Byte) (s t : State) (x : Session), s.session = x → exec (.read payload) s = .next t →
      t.wb = s.wb ∧ t.wbBase = s.wbBase ∧ t.wbFill = s.wbFill ∧ t.chip = s.chip ∧ t.session = s.session
        ∧ ∀ a, (a ≤ x.addrWidth.toNat ∨ x.addrWidth.toNat + readLength s.par x payload < a) →
            t.lb.get a = s.lb.get a)
  ∧ (∀ (payload : List Byte) (s t : State) (x : Session), s.session = x → BufferInv s →
      exec (.write payload) s = .next t →
      t.lb = s.lb ∧ t.session = s.session
        ∧ ∀ a, (a < addrOf x payload - addrOf x payload % x.pageSize
            ∨ (addrOf x payload + dataCount x payload) / x.pageSize * x.pageSize ≤ a) →
            Memory.get t.chip.cells a = Memory.get s.chip.cells a)
  ∧ (∀ (payload : List Byte) (s t : State) (x : Session) (base : Nat), s.session = x → s.wbBase = base →
      BufferInv s → exec (.done payload) s = .next t →
      t.lb = s.lb ∧ t.session = s.session ∧ t.wbBase = s.wbBase
        ∧ ∀ a, (a < base ∨ base + x.pageSize ≤ a ∨ s.wbFill = 0) →
            Memory.get t.chip.cells a = Memory.get s.chip.cells a)

/-! ## The commands -/

/-- 42_commands.md section 2 (R172): RESET completes in every legal mode, whatever its payload; buffered bytes are
dropped and the chip is not touched. The session fields and WB_BASE get no value: a free one each (entries 10, 25). -/
def Obligations.ResetCommandCompletes : Prop :=
  ∀ (payload : List Byte) (s : State), s.mode ≠ .invalid →
    exec (.reset payload) s = .next { s with
      mode := .waiting
      session := idSession (Config.unsetIdentifier s.draws)
      wb := []
      wbBase := (Config.unsetBase s.draws).toNat
      wbFill := 0
      draws := s.draws + 1
      resp := 0x2B#8 :: s.par.bannerText ++ [lineFeed]
      txptr := 0 }

/-- 42_commands.md section 3 (R173), 30_encoding.md R76, 10_state.md R12 to R15: INIT with the identifier
`K*32768 + e*4096 + c*128 + AW*16`, most significant byte first, loads IFKIND, `PAGE_SIZE = 2^(e+1)`,
`CAPACITY = 2^(c+1)` and ADDR_WIDTH, and enters READY. -/
def Obligations.InitLoadsTheIdentifier : Prop :=
  ∀ (s : State) (k e c aw : Nat), s.mode = .waiting → k < 2 → e < 8 → c < 32 → aw < 8 → aw ≤ s.par.aMax →
    ∃ x : Session,
      exec (.init [BitVec.ofNat 8 ((k * 32768 + e * 4096 + c * 128 + aw * 16) / 256),
          BitVec.ofNat 8 (k * 32768 + e * 4096 + c * 128 + aw * 16)]) s
        = .next { s with
            session := x
            mode := .ready
            resp := 0x2B#8 :: (if k = 0 then chars ['S', 'P', 'I'] else chars ['I', '2', 'C']) ++ chars [' ']
              ++ dec (2 ^ (c + 1) / s.par.kbDiv) ++ chars ['K', 'b', ',', ' '] ++ dec (2 ^ (e + 1))
              ++ chars [' ', 'b', 'y', 't', 'e', ' ', 'p', 'a', 'g', 'e', '.'] ++ [lineFeed]
            txptr := 0 }
      ∧ x.ifkind = (if k = 0 then .spi else .i2c) ∧ x.pageSize = 2 ^ (e + 1) ∧ x.capacity = 2 ^ (c + 1)
      ∧ x.addrWidth.toNat = aw

/-- 42_commands.md section 3 (R173 steps 1, 3, 4), 30_encoding.md R86: INIT's rejections in their order. -/
def Obligations.InitRejects : Prop :=
  ∀ (s : State) (payload : List Byte), s.mode = .waiting →
    (payload.length ≠ 2 →
      exec (.init payload) s = .next { s with resp := 0x2D#8 :: s.par.msgIdent ++ [lineFeed], txptr := 0 })
    ∧ ∀ hi lo : Byte, payload = [hi, lo] →
      (lo.toNat % 16 ≠ 0 →
        exec (.init payload) s = .next { s with resp := 0x2D#8 :: s.par.msgReserved ++ [lineFeed], txptr := 0 })
      ∧ (lo.toNat % 16 = 0 → s.par.aMax < lo.toNat / 16 % 8 →
        exec (.init payload) s = .next { s with resp := 0x2D#8 :: s.par.msgIdent ++ [lineFeed], txptr := 0 })

/-- 42_commands.md section 4 (R174): READ in READY with an address of ADDR_WIDTH bytes below CAPACITY makes one
chip read of `min(N_MAX, CAPACITY - addr)` bytes, stages them in LB after the address and answers address, data and
checksum in hex. -/
def Obligations.ReadAnswersFromTheChip : Prop :=
  ∀ (s : State) (x : Session) (payload : List Byte), s.mode = .ready → s.session = x →
    x.addrWidth.toNat ≤ s.par.aMax → payload.length = x.addrWidth.toNat → be payload < x.capacity →
    ∃ data, data = chipAnswers s.chip s.chipLog x (be payload) (min s.par.nMax (x.capacity - be payload))
      ∧ exec (.read payload) s = .next { s with
          lb := Memory.setBytes s.lb (x.addrWidth.toNat + 1) data
          chipLog := s.chipLog ++ [readTxn x (be payload) (min s.par.nMax (x.capacity - be payload))]
          resp := 0x2B#8 :: hexText s.par.hexUpper (payload ++ data ++ checksumBytes (checksum (payload ++ data)))
            ++ [lineFeed]
          txptr := 0 }

/-- 42_commands.md section 4 (R174 steps 1, 3), 60_exceptions.md R231: READ's rejections in their order, with their
texts. -/
def Obligations.ReadRejects : Prop :=
  ∀ (s : State) (x : Session) (payload : List Byte), s.mode = .ready → s.session = x →
    (payload.length ≠ x.addrWidth.toNat →
      exec (.read payload) s = .next { s with resp := 0x2D#8 :: s.par.msgLength ++ [lineFeed], txptr := 0 })
    ∧ (payload.length = x.addrWidth.toNat → x.capacity ≤ be payload →
        exec (.read payload) s = .next { s with
          resp := 0x2D#8 :: chars ['A', 'd', 'd', 'r', 'e', 's', 's', ' ', 'o', 'u', 't', ' ', 'o', 'f', ' ',
            'r', 'a', 'n', 'g', 'e', '.'] ++ [lineFeed]
          txptr := 0 })

/-- 42_commands.md section 5 (R175, R176), 43_write_buffer.md (R210 to R212, R215): WRITE in READY primes, appends
and flushes every full page in ascending order, keeps the rest, and enters WRITING. -/
def Obligations.WriteInReadyOpensTransaction : Prop :=
  ∀ (s : State) (x : Session) (payload : List Byte), s.mode = .ready → s.session = x →
    WritePayloadGood s.par x payload →
    ∃ content q, content = primedBytes x (addrOf x payload) s ++ dataBytes x payload
      ∧ q = (addrOf x payload % x.pageSize + dataCount x payload) / x.pageSize
      ∧ exec (.write payload) s = .next { s with
          mode := .writing
          wb := Memory.ofBytes 0 (content.drop (q * x.pageSize))
          wbBase := addrOf x payload - addrOf x payload % x.pageSize + q * x.pageSize
          wbFill := (addrOf x payload % x.pageSize + dataCount x payload) % x.pageSize
          chip := chipAfter s.chip
            (pageWrites x q (addrOf x payload - addrOf x payload % x.pageSize) content)
          chipLog := s.chipLog ++ primingRead x (addrOf x payload)
            ++ pageWrites x q (addrOf x payload - addrOf x payload % x.pageSize) content
          resp := 0x2B#8 :: s.par.okText ++ [lineFeed]
          txptr := 0 }

/-- 42_commands.md section 5 (R175, R177), 43_write_buffer.md (R211, R212, R215): WRITE in WRITING at the next
address appends and flushes, without priming. -/
def Obligations.WriteInWritingContinues : Prop :=
  ∀ (s : State) (x : Session) (payload vs : List Byte) (base : Nat), s.mode = .writing → s.session = x →
    s.wbBase = base → s.wb = Memory.ofBytes 0 vs → s.wbFill = vs.length → vs.length < x.pageSize →
    WritePayloadGood s.par x payload → addrOf x payload = base + vs.length →
    ∃ q, q = (vs.length + dataCount x payload) / x.pageSize
      ∧ exec (.write payload) s = .next { s with
          wb := Memory.ofBytes 0 ((vs ++ dataBytes x payload).drop (q * x.pageSize))
          wbBase := base + q * x.pageSize
          wbFill := (vs.length + dataCount x payload) % x.pageSize
          chip := chipAfter s.chip (pageWrites x q base (vs ++ dataBytes x payload))
          chipLog := s.chipLog ++ pageWrites x q base (vs ++ dataBytes x payload)
          resp := 0x2B#8 :: s.par.okText ++ [lineFeed]
          txptr := 0 }

/-- 42_commands.md section 5 (R175 steps 1 to 7), 60_exceptions.md sections 2, 4 (R231, R235): WRITE's rejections in
their order, with their texts. -/
def Obligations.WriteRejects : Prop :=
  ∀ (s : State) (x : Session) (payload : List Byte), s.mode = .ready ∨ s.mode = .writing → s.session = x →
    (payload.length < x.addrWidth.toNat + 3 ∨ x.addrWidth.toNat + 2 + s.par.nMax < payload.length →
      exec (.write payload) s = .next { s with resp := 0x2D#8 :: s.par.msgLength ++ [lineFeed], txptr := 0 })
    ∧ (x.addrWidth.toNat + 3 ≤ payload.length → payload.length ≤ x.addrWidth.toNat + 2 + s.par.nMax →
        (checksum (checkedBytes x payload) ≠ checksumField payload →
          exec (.write payload) s = .next { s with
            resp := 0x2D#8 :: chars ['I', 'n', 'v', 'a', 'l', 'i', 'd', ' ', 'c', 'h', 'e', 'c', 'k', 's', 'u', 'm',
              '.'] ++ [lineFeed]
            txptr := 0 })
        ∧ (checksum (checkedBytes x payload) = checksumField payload →
            (s.mode = .writing → addrOf x payload ≠ s.wbBase + s.wbFill →
              exec (.write payload) s = .next { s with
                resp := 0x2D#8 :: chars ['D', 'a', 't', 'a', ' ', 'i', 's', ' ', 'n', 'o', 't', ' ',
                  's', 'e', 'q', 'u', 'e', 'n', 't', 'i', 'a', 'l', '.'] ++ [lineFeed]
                txptr := 0 })
            ∧ ((s.mode = .ready ∨ addrOf x payload = s.wbBase + s.wbFill) →
                x.capacity < addrOf x payload + dataCount x payload →
                exec (.write payload) s = .next { s with
                  resp := 0x2D#8 :: chars ['A', 'd', 'd', 'r', 'e', 's', 's', ' ', 'o', 'u', 't', ' ', 'o', 'f', ' ',
                    'r', 'a', 'n', 'g', 'e', '.'] ++ [lineFeed]
                  txptr := 0 })))

/-- 43_write_buffer.md (R214, which the spec marks as derived): after every accepted WRITE, `WB_BASE + WB_FILL =
addr + n`; hence a next WRITE is accepted only at the address after the last byte of this one. -/
def Obligations.RunningAddress : Prop :=
  ∀ (s t : State) (x : Session) (payload : List Byte), BufferInv s → s.session = x →
    exec (.write payload) s = .next t → accepted t = true →
    t.wbBase + t.wbFill = addrOf x payload + dataCount x payload
    ∧ ∀ (next : List Byte) (u : State), exec (.write next) t = .next u → accepted u = true →
        addrOf x next = addrOf x payload + dataCount x payload

/-- 42_commands.md section 6 (R178), 43_write_buffer.md (R213): DONE in WRITING completes, whatever its payload:
nothing to write out; or the partial page completed from the chip; or completed with a constant. -/
def Obligations.DoneWritesThePartialPage : Prop :=
  ∀ (s : State) (x : Session) (payload : List Byte), s.mode = .writing → s.session = x →
    (s.wbFill = 0 → exec (.done payload) s = .next { s with
        mode := .ready
        resp := 0x2B#8 :: s.par.okText ++ [lineFeed]
        txptr := 0 })
    ∧ ∀ (base : Nat) (vs : List Byte), s.wbBase = base → s.wb = Memory.ofBytes 0 vs → s.wbFill = vs.length →
        0 < vs.length → vs.length < x.pageSize →
        (s.par.tailFill = .preserve → ∃ page,
          page = vs ++ chipAnswers s.chip s.chipLog x (base + vs.length) (x.pageSize - vs.length)
          ∧ exec (.done payload) s = .next { s with
              mode := .ready
              wb := []
              wbFill := 0
              chip := chipTake base page s.chip
              chipLog := s.chipLog ++ [readTxn x (base + vs.length) (x.pageSize - vs.length),
                writeTxn x base page]
              resp := 0x2B#8 :: s.par.okText ++ [lineFeed]
              txptr := 0 })
        ∧ ∀ v, s.par.tailFill = .pad v → ∃ page,
          page = vs ++ List.replicate (x.pageSize - vs.length) v
          ∧ exec (.done payload) s = .next { s with
              mode := .ready
              wb := []
              wbFill := 0
              chip := chipTake base page s.chip
              chipLog := s.chipLog ++ [writeTxn x base page]
              resp := 0x2B#8 :: s.par.okText ++ [lineFeed]
              txptr := 0 }

/-- R179: a badly framed line, and a well-framed one whose first character is none of the five, is rejected with
E_UNRECOGNISED; no register changes and no chip access is made. -/
def Obligations.UnrecognisedIsRejected : Prop :=
  (∀ s : State, s.lineInvalid = true → fetchInstr s = .unrecognised .framing
    ∧ exec (.unrecognised .framing) s = .next { s with
        resp := 0x2D#8 :: s.par.msgUnrecognised ++ [lineFeed], txptr := 0 })
  ∧ (∀ s : State, s.lineInvalid = false → s.cmd ∉ [0x21#8, 0x69#8, 0x72#8, 0x77#8, 0x64#8] → s.mode ≠ .invalid →
      ∃ payload, payload.length = s.dlen ∧ fetchInstr s = .unrecognised (.command s.cmd payload)
        ∧ exec (.unrecognised (.command s.cmd payload)) s = .next { s with
            resp := 0x2D#8 :: s.par.msgUnrecognised ++ [lineFeed], txptr := 0 })

/-! ## The chip -/

/-- 20_memory.md sections 1, 3 (R43, R46 to R48, R50): a page write carries exactly PAGE_SIZE bytes at a multiple of
PAGE_SIZE, a read asks for at least 1 and at most `max(N_MAX, PAGE_MAX - 1)` bytes, and both carry IFKIND and, with
the address, ADDR_WIDTH. -/
def Obligations.ChipAccessesAreLegal : Prop :=
  ∀ (i : Instr) (s t : State) (x : Session), Inv s → s.session = x → exec i s = .next t →
    ∀ txn ∈ t.chipLog.drop s.chipLog.length,
      match txn with
      | .read kind width _ n => kind = x.ifkind ∧ width = x.addrWidth ∧ 1 ≤ n ∧ n ≤ max s.par.nMax 255
      | .writePage kind width addr page =>
          kind = x.ifkind ∧ width = x.addrWidth ∧ page.length = x.pageSize ∧ x.pageSize ∣ addr

/-- 20_memory.md section 3 (R50), 60_exceptions.md section 3 (R234): the collaborator is reached in P_EXEC only, by
READ, WRITE and DONE only, and not by a line that is rejected. -/
def Obligations.ChipIsReachedByAcceptedTransfersOnly : Prop :=
  (∀ s t : State, step s = .next t → s.phase ≠ .exec → t.chipLog = s.chipLog ∧ t.chip = s.chip)
  ∧ (∀ (i : Instr) (s t : State), exec i s = .next t → t.chipLog ≠ s.chipLog →
      accepted t = true ∧ ((∃ p, i = .read p) ∨ (∃ p, i = .write p) ∨ ∃ p, i = .done p))

/-- 43_write_buffer.md R215, on the reference collaborator of 20_memory.md R59, with the preserving tail: one WRITE
accepted in READY and then DONE change exactly the data's addresses among the bytes the model knows of the chip (entry
6); every other known byte keeps its value, and pages that hold no address of the data are not touched at all. -/
def Obligations.TransactionChangesExactlyItsBytes : Prop :=
  ∀ (s : State) (x : Session) (payload finish : List Byte) (cells : Memory), s.mode = .ready →
    s.session = x → WritePayloadGood s.par x payload → s.par.tailFill = .preserve →
    s.chip = .reference cells →
    ∃ t u after, exec (.write payload) s = .next t ∧ exec (.done finish) t = .next u
      ∧ u.mode = .ready ∧ u.wbFill = 0 ∧ u.chip = .reference after
      ∧ (∀ k, k < dataCount x payload → Memory.get after (addrOf x payload + k) = (dataBytes x payload)[k]?)
      ∧ (∀ a v, (a < addrOf x payload ∨ addrOf x payload + dataCount x payload ≤ a) →
          Memory.get cells a = some v → Memory.get after a = some v)
      ∧ (∀ a, (a / x.pageSize < addrOf x payload / x.pageSize
          ∨ (addrOf x payload + dataCount x payload - 1) / x.pageSize < a / x.pageSize) →
          Memory.get after a = Memory.get cells a)

/-! ## SUART -/

/-- 40_softuart.md section 2 (R112 to R115): a transmit call holds the line high for TX_PRE cycles, then each of the
ten levels of the frame for T_TX cycles, with CRIT 1 throughout; then CRIT is 0, TXD is 1, TXPTR has moved on by
one, and nothing else has changed. ENGINE's own step is the first one (entry 4). -/
def Obligations.TransmitHoldsEachLevel : Prop :=
  ∀ (s : State) (b : Byte), s.suart.uphase = .idle → s.phase = .banner ∨ s.phase = .respond →
    s.resp[s.txptr]? = some b → s.edge.rst = false → s.edge.hold = false →
    noReset s.turn (s.par.txPre + 10 * s.par.tTx) →
    (∀ j, j < s.par.txPre → ∃ t : State, Host.Core.run Sys2Proof.core (1 + j) s = .next t
      ∧ t.suart.txd = true ∧ t.suart.crit = true)
    ∧ (∀ k j, k < 10 → j < s.par.tTx → ∃ t : State,
        Host.Core.run Sys2Proof.core (1 + s.par.txPre + k * s.par.tTx + j) s = .next t
        ∧ t.suart.txd = (txFrame b).getLsbD k ∧ t.suart.crit = true)
    ∧ Host.Core.run Sys2Proof.core (1 + s.par.txPre + 10 * s.par.tTx) s = .next { s with
        txptr := s.txptr + 1
        inputs := s.turn.inputs.drop (s.par.txPre + 10 * s.par.tTx)
        suart := { s.suart with
          uphase := .idle
          txsr := txFrame b
          bitcnt := 0
          dly := 0
          dlySub := 0
          preLeft := 0
          crit := false
          txd := true
          txdOe := s.par.singleWire || s.suart.txdOe } }

/-- R113: TXSR holds the start bit 0, the data bits least significant first and the stop bit 1, and nothing else;
BITCNT counts the ten periods down. -/
def Obligations.FrameLevels : Prop :=
  ∀ (p : Params) (b : Byte) (u : Suart),
    (startBits p b u).txsr.getLsbD 0 = false ∧ (startBits p b u).txsr.getLsbD 9 = true
    ∧ (∀ k, k < 8 → (startBits p b u).txsr.getLsbD (1 + k) = b.getLsbD k)
    ∧ (startBits p b u).bitcnt = 10 ∧ (txNextBit p u).bitcnt = u.bitcnt - 1 ∧ (txNextBit p u).txsr = u.txsr

/-- 40_softuart.md section 3 (R120, R122, R123, R125): from the cycle `t_e` at which the poll reads 0, data bit `i`
is the level at `t_e + T_HALF + (i+1)*T_RX`, CRIT is 1 until the call returns at `t_e + T_HALF + 9*T_RX`, and the
line reader takes the byte; the stop bit's level is not looked at. -/
def Obligations.ReceiveSamplesMidBit : Prop :=
  ∀ s : State, s.suart.uphase = .rxWait → (edgeAt s 0).rxd = false →
    noReset s (s.par.tHalf + 9 * s.par.tRx + 1) →
    (∀ j, j < s.par.tHalf + 9 * s.par.tRx → ∃ t : State, Host.Core.run Sys2Proof.core (1 + j) s = .next t
      ∧ t.suart.crit = true)
    ∧ ∃ byte : Byte,
      (∀ i, i < 8 → byte.getLsbD i = (edgeAt s (s.par.tHalf + (i + 1) * s.par.tRx)).rxd)
      ∧ Host.Core.run Sys2Proof.core (s.par.tHalf + 9 * s.par.tRx + 1) s = .next (takeChar byte { s with
          inputs := s.inputs.drop (s.par.tHalf + 9 * s.par.tRx + 1)
          suart := { s.suart with
            uphase := .idle
            rxsr := byte
            bitcnt := 0
            dly := 0
            dlySub := 0
            preLeft := 0
            crit := false } })

/-- 40_softuart.md section 3 (R120, R121, R124), section 1 (R111): in P_RXLINE with SUART idle, ENGINE's turn starts
the poll, and gives up the wire if there is one only; while the line is 1 the poll changes nothing, however long; the
first 0 starts a frame. -/
def Obligations.PollWaitsForTheStartEdge : Prop :=
  (∀ s t : State, s.phase = .rxLine → s.suart.uphase = .idle → s.edge.rst = false → s.edge.hold = false →
    t = (if s.edge.passes then { s with inputs := s.inputs.tail } else s) →
    step s = .next { t with suart := { s.suart with
      uphase := .rxWait
      txdOe := if s.par.singleWire then false else s.suart.txdOe } })
  ∧ (∀ s : State, s.suart.uphase = .rxWait → s.edge.rst = false →
      (s.edge.rxd = true → step s = .next { s with inputs := s.inputs.tail })
      ∧ (s.edge.rxd = false → ∃ t, step s = .next t ∧ t.suart.uphase = .rxFrame ∧ t.suart.crit = true
          ∧ t = { s with inputs := s.inputs.tail, suart := t.suart }))

/-- 40_softuart.md section 3 (R126): outside RX_WAIT and the eight sample points the level of `rxd` has no effect on
the block at all, and no level at a later edge has one yet. -/
def Obligations.RxdHasNoOtherEffect : Prop :=
  ∀ (s : State) (level : Bool) (es : List Edge) (st : Edge), s.suart.uphase ≠ .rxWait → ¬ atSamplePoint s →
    State.edge { s with inputs := es, steady := st } = { s.edge with rxd := level } →
    withoutInputs (step s) = withoutInputs (step { s with inputs := es, steady := st })

/-- 41_framer.md sections 1, 5 (R140, R160), 40_softuart.md section 2 (R112, R113): where ENGINE takes no time and no
`rst` comes, a response of `m` characters (its LF included) takes `m` calls of `TX_PRE + 10*T_TX` cycles, each after
one step of ENGINE; in call `i` TXD carries the frame of character `i`, its ten levels for T_TX cycles each, with CRIT
1; then ENGINE reads the next line: LB_LEN and LB_OVF are cleared, and one more step of it starts the poll. That
ENGINE's steps are steps of their own, which take no edge here, is the model's choice (entry 4), and so is the form of
the inputs (entry 3). -/
def Obligations.WholeLineIsSentThenReading : Prop :=
  ∀ (s : State) (m call : Nat), s.suart.uphase = .idle →
    s.phase = .respond ∨ (s.phase = .banner ∧ s.resp ≠ []) → s.txptr = 0 → m = s.resp.length →
    call = s.par.txPre + 10 * s.par.tTx → noDelay s (m * call + 1) →
    (∀ (i : Nat) (b : Byte), s.resp[i]? = some b →
      (∀ j, j < s.par.txPre → ∃ t : State, Host.Core.run Sys2Proof.core (i * (1 + call) + 1 + j) s = .next t
        ∧ t.txptr = i ∧ t.suart.txd = true ∧ t.suart.crit = true)
      ∧ (∀ k j, k < 10 → j < s.par.tTx → ∃ t : State,
          Host.Core.run Sys2Proof.core (i * (1 + call) + 1 + s.par.txPre + k * s.par.tTx + j) s = .next t
          ∧ t.txptr = i ∧ t.suart.txd = (txFrame b).getLsbD k ∧ t.suart.crit = true))
    ∧ ∃ t u : State, Host.Core.run Sys2Proof.core (m * (1 + call) + 1) s = .next t
      ∧ t.phase = .rxLine ∧ t.lbLen = 0 ∧ t.lbOvf = false ∧ t.txptr = m ∧ t.suart.uphase = .idle
      ∧ t.mode = s.mode ∧ t.session = s.session ∧ t.wb = s.wb ∧ t.wbBase = s.wbBase ∧ t.wbFill = s.wbFill
      ∧ t.chip = s.chip ∧ t.chipLog = s.chipLog ∧ t.inputs = s.inputs.drop (m * call)
      ∧ step t = .next u ∧ u.suart.uphase = .rxWait ∧ u = { t with suart := u.suart }

/-! ## Reset, phases, the invariant -/

/-- 70_reset_and_hazards.md section 1 (R270, R271): at an edge with `rst = 1`, whatever the block is doing, the
registers take their values after reset, and what is outside the block keeps its state, but for the chip accesses that
a command in P_EXEC had issued by then, the first of those it makes; the next step is the same, as long as `rst`
stays 1. -/
def Obligations.RstActsAtAnyEdge : Prop :=
  ∀ s : State, s.edge.rst = true → ∃ t issued, step s = .next t
    ∧ t = State.resetWith s.cfg s.inputs.tail s.steady (chipAfter s.chip issued) (s.chipLog ++ issued) (s.draws + 1)
    ∧ (s.phase ≠ .exec ∨ s.edge.issued = 0 → issued = [])
    ∧ (∀ i u, s.phase = .exec → s.suart.uphase = .idle → fetchInstr s = i → exec i s = .next u →
        issued = (u.chipLog.drop s.chipLog.length).take s.edge.issued)
    ∧ (t.edge.rst = true → step t = .next { t with inputs := t.inputs.tail, draws := t.draws + 1 })

/-- 10_state.md section 10 (R30): the values the spec gives for reset. -/
def Obligations.ResetValuesOfTheTable : Prop :=
  ∀ (cfg : Config) (inputs : List Edge) (steady : Edge) (chip : Collaborator) (log : List ChipTxn) (draws : Nat)
    (s : State), s = State.resetWith cfg inputs steady chip log draws →
    s.mode = .waiting ∧ s.wbFill = 0 ∧ s.lbLen = 0 ∧ s.lbOvf = false
    ∧ s.lineInvalid = false ∧ s.phase = .banner ∧ s.txptr = 0 ∧ s.suart.bitcnt = 0 ∧ s.suart.dly = 0
    ∧ s.suart.uphase = .idle ∧ s.suart.crit = false ∧ s.suart.txd = true
    ∧ s.suart.txdOe = !s.par.singleWire
    ∧ ∀ a, Memory.get s.wb a = none ∧ Memory.get s.lb a = none

/-- 70_reset_and_hazards.md section 2 (R272): after reset ENGINE stages the banner line and begins to send it. That
there is a banner at start-up is the spec's decision D34; that ENGINE stages it in RESP in a step of its own is the
model's choice (entry 13), and so is that its two steps take no edge where the edge does not say so (entry 4). -/
def Obligations.BannerFollowsReset : Prop :=
  ∀ (cfg : Config) (inputs : List Edge) (steady : Edge) (chip : Collaborator) (log : List ChipTxn) (draws : Nat)
    (s : State), s = State.resetWith cfg inputs steady chip log draws → noDelay s 1 →
    ∃ t u, step s = .next t
      ∧ t.resp = 0x2B#8 :: cfg.val.bannerText ++ [lineFeed] ∧ t.txptr = 0 ∧ t.phase = .banner ∧ t.inputs = inputs
      ∧ step t = .next u ∧ u.suart.uphase = .tx ∧ u.suart.crit = true ∧ u.resp = t.resp ∧ u.txptr = 0
      ∧ u.inputs = inputs

/-- 10_state.md section 6 (R22): PHASE stays, or moves to the next of P_BANNER, P_RXLINE, P_DECODE, P_EXEC,
P_RESPOND, P_RXLINE; only `rst` does otherwise. -/
def Obligations.PhasesFollowInOrder : Prop :=
  ∀ s t : State, Inv s → s.edge.rst = false → step s = .next t →
    t.phase = s.phase
    ∨ (s.phase, t.phase) ∈ [(Phase.banner, Phase.rxLine), (.rxLine, .decode), (.decode, .exec), (.exec, .respond),
        (.respond, .rxLine)]

/-- 10_state.md section 2 (R17, which the spec marks as derived): in WAITING no command reads a session field: it
completes, and what it leaves does not depend on what the fields hold. -/
def Obligations.SessionIsNotReadInWaiting : Prop :=
  ∀ (i : Instr) (s : State) (a b : Session), s.mode = .waiting →
    (∃ t, exec i { s with session := a } = .next t)
    ∧ withoutSession (exec i { s with session := a }) = withoutSession (exec i { s with session := b })

/-- 00_scope.md section 4 (R4, R5): the instance is the same in every state a step reaches. -/
def Obligations.InstanceIsConstant : Prop :=
  ∀ s t : State, step s = .next t → t.cfg = s.cfg

/-- 10_state.md sections 3, 10: every state after reset, of any legal instance, meets the invariant. -/
def Obligations.ResetMeetsTheInvariant : Prop :=
  ∀ (cfg : Config) (inputs : List Edge) (steady : Edge) (chip : Collaborator) (log : List ChipTxn) (draws : Nat),
    Memory.wf chip.cells = true → Inv (State.resetWith cfg inputs steady chip log draws)

/-- 10_state.md section 3 (R18, R20, R32), sections 2, 4, 7, 20_memory.md section 1: every step keeps the invariant:
MODE stays legal, ADDR_WIDTH is at most A_MAX outside WAITING, WB holds exactly WB_FILL bytes of an aligned page
within CAPACITY, LB and its cursors stay in range, CRIT and TXD follow SUART. -/
def Obligations.StepKeepsTheInvariant : Prop :=
  ∀ s t : State, Inv s → step s = .next t → Inv t

/-- 60_exceptions.md section 5 (R239), 42_commands.md section 7 (R180, the spec's decision D28): the one fault is MODE
3, met in P_EXEC; a run from any state of a legal mode never stops, for any number of steps. -/
def Obligations.OnlyInvalidModeStops : Prop :=
  (∀ s : State, s.mode ≠ .invalid → Safe s)
  ∧ (∀ (s : State) (f : Fault), step s = .fault f →
      f = .invalidMode ∧ s.mode = .invalid ∧ s.phase = .exec ∧ s.suart.uphase = .idle)
  ∧ ∀ (s : State) (r : Refusal), step s ≠ .refused r
end

