-- ==== Sys2Proof/Laws/Codec.lean ====
section
/-! SUPPORT. Codec.lean: what the hex codec and the operand forms do. -/

namespace Sys2Proof

@[simp] theorem hexValue_hexDigit (upper : Bool) (d : BitVec 4) : hexValue (hexDigit upper d) = some d := by
  revert upper d; decide

theorem hexDigit_ne_lineFeed (upper : Bool) (d : BitVec 4) : hexDigit upper d ≠ lineFeed := by
  revert upper d; decide

/-- The two nibbles of a byte, put together, are the byte. -/
theorem nibbles_append (b : Byte) : (b.extractLsb' 4 4 ++ b.extractLsb' 0 4 : BitVec 8) = b := by
  revert b; decide

/-- A pair of digits is `hexval(hi)*16 + hexval(lo)` (30_encoding.md R75). -/
theorem nibbles_toNat (h l : BitVec 4) : (h ++ l : BitVec 8).toNat = h.toNat * 16 + l.toNat := by
  revert h l; decide

@[simp] theorem hexPair_hexDigit (upper : Bool) (b : Byte) :
    hexPair (hexDigit upper (b.extractLsb' 4 4)) (hexDigit upper (b.extractLsb' 0 4)) = some b := by
  simp [hexPair, nibbles_append]

@[simp] theorem hexText_nil (upper : Bool) : hexText upper [] = [] := rfl

theorem hexText_cons (upper : Bool) (b : Byte) (bs : List Byte) :
    hexText upper (b :: bs)
      = hexDigit upper (b.extractLsb' 4 4) :: hexDigit upper (b.extractLsb' 0 4) :: hexText upper bs := rfl

@[simp] theorem hexText_length (upper : Bool) (bs : List Byte) : (hexText upper bs).length = 2 * bs.length := by
  induction bs with
  | nil => rfl
  | cons b bs ih => simp [hexText_cons, ih]; omega

/-- What `hex` writes, the decoder reads back. -/
@[simp] theorem hexPairs_hexText (upper : Bool) (bs : List Byte) : hexPairs (hexText upper bs) = some bs := by
  induction bs with
  | nil => rfl
  | cons b bs ih => simp [hexText_cons, hexPairs, ih]

theorem lineFeed_not_mem_hexText (upper : Bool) (bs : List Byte) : lineFeed ∉ hexText upper bs := by
  induction bs with
  | nil => simp
  | cons b bs ih =>
    simp only [hexText_cons, List.mem_cons, not_or]
    exact ⟨(hexDigit_ne_lineFeed _ _).symm, (hexDigit_ne_lineFeed _ _).symm, ih⟩

/-- A run of hex characters that spells bytes has two characters a byte (41_framer.md R145). -/
theorem hexPairs_length : ∀ (ds bs : List Byte), hexPairs ds = some bs → ds.length = 2 * bs.length
  | [], bs, h => by simp [hexPairs] at h; simp [h]
  | [_], _, h => by simp [hexPairs] at h
  | hi :: lo :: rest, bs, h => by
    simp only [hexPairs] at h
    split at h
    · rename_i b bs' _ hr
      simp only [Option.some.injEq] at h
      have := hexPairs_length rest bs' hr
      simp [← h]; omega
    · simp at h

/-- Splitting a stream gives back a line that holds no LF, and what follows its LF. -/
theorem splitLine_append (line rest : List Byte) (h : lineFeed ∉ line) :
    splitLine (line ++ lineFeed :: rest) = some (line, rest) := by
  induction line with
  | nil => simp [splitLine]
  | cons c cs ih =>
    simp only [List.mem_cons, not_or] at h
    simp [splitLine, Ne.symm h.1, ih h.2]

/-- Which command a first character selects (30_encoding.md R84), on the five codes. -/
theorem selectCommand_reset (payload : List Byte) : selectCommand 0x21#8 payload = .reset payload := rfl
theorem selectCommand_init (payload : List Byte) : selectCommand 0x69#8 payload = .init payload := rfl
theorem selectCommand_read (payload : List Byte) : selectCommand 0x72#8 payload = .read payload := rfl
theorem selectCommand_write (payload : List Byte) : selectCommand 0x77#8 payload = .write payload := rfl
theorem selectCommand_done (payload : List Byte) : selectCommand 0x64#8 payload = .done payload := rfl

theorem selectCommand_other (c : Byte) (payload : List Byte) (h : commandCharacters.contains c = false) :
    selectCommand c payload = .unrecognised (.command c payload) := by
  simp [commandCharacters] at h
  simp [selectCommand, h]

end Sys2Proof

namespace Sys2Proof.Machine

@[simp] theorem be_nil : be [] = 0 := rfl

/-- `be(bs ++ [b]) = be(bs)*256 + b` (00_scope.md section 5). -/
theorem be_append_single (bs : List Byte) (b : Byte) : be (bs ++ [b]) = be bs * 256 + b.toNat := by
  simp [be, List.foldl_append]

/-- An address of `k` bytes lies below `256^k` (30_encoding.md R78). -/
theorem be_lt (bs : List Byte) : be bs < 256 ^ bs.length := by
  induction bs using List.reverseRecOn with
  | nil => simp
  | append_singleton bs b ih =>
    rw [be_append_single, List.length_append, List.length_singleton, pow_succ]
    have := b.isLt
    omega

theorem checksum_append_single (bs : List Byte) (b : Byte) :
    checksum (bs ++ [b]) = checksum bs + b.zeroExtend 16 := by
  simp [checksum, List.foldl_append]

/-- The checksum is the sum of the bytes modulo 65536 (41_framer.md R150). -/
theorem checksum_toNat (bs : List Byte) : (checksum bs).toNat = (bs.map BitVec.toNat).sum % 65536 := by
  induction bs using List.reverseRecOn with
  | nil => rfl
  | append_singleton bs b ih =>
    rw [checksum_append_single, BitVec.toNat_add, ih]
    have := b.isLt
    simp [BitVec.toNat_setWidth]

/-- The checksum field that `checksumBytes` writes is the checksum (30_encoding.md R79). -/
theorem field16_checksumBytes (c : BitVec 16) : field16 (c.extractLsb' 8 8) (c.extractLsb' 0 8) = c := by
  apply BitVec.eq_of_getLsbD_eq
  intro i hi
  simp only [field16, BitVec.getLsbD_append, BitVec.getLsbD_extractLsb']
  by_cases h : i < 8
  · simp [h]
  · simp [h, show i - 8 < 8 by omega, show 8 + (i - 8) = i by omega]

theorem Session.pageSize_pos (x : Session) : 0 < x.pageSize := Nat.two_pow_pos _

/-- PAGE_SIZE is at least 2 and at most 256 (10_state.md R13). -/
theorem Session.two_le_pageSize (x : Session) : 2 ≤ x.pageSize := by
  unfold Session.pageSize
  calc 2 = 2 ^ 1 := rfl
    _ ≤ 2 ^ (x.pageExp.toNat + 1) := Nat.pow_le_pow_right (by decide) (by omega)

theorem Session.pageSize_le (x : Session) : x.pageSize ≤ 256 := by
  unfold Session.pageSize
  have := x.pageExp.isLt
  calc 2 ^ (x.pageExp.toNat + 1) ≤ 2 ^ 8 := Nat.pow_le_pow_right (by decide) (by omega)
    _ = 256 := rfl

/-- CAPACITY is at most `2^32` (10_state.md R14). -/
theorem Session.capacity_le (x : Session) : x.capacity ≤ 2 ^ 32 := by
  unfold Session.capacity
  have := x.capExp.isLt
  exact Nat.pow_le_pow_right (by decide) (by omega)

end Sys2Proof.Machine
end

