-- ==== Sys2Proof/Laws/State.lean ====
section
/-! SUPPORT. State.lean: one lemma per field and named update, so that no proof unfolds one. -/

namespace Sys2Proof.Machine

/-! The response is staged (41_framer.md R160). -/

@[simp] theorem respond_mode (text : List Byte) (s : State) : (respond text s).mode = s.mode := rfl
@[simp] theorem respond_session (text : List Byte) (s : State) : (respond text s).session = s.session := rfl
@[simp] theorem respond_wb (text : List Byte) (s : State) : (respond text s).wb = s.wb := rfl
@[simp] theorem respond_wbBase (text : List Byte) (s : State) : (respond text s).wbBase = s.wbBase := rfl
@[simp] theorem respond_wbFill (text : List Byte) (s : State) : (respond text s).wbFill = s.wbFill := rfl
@[simp] theorem respond_lb (text : List Byte) (s : State) : (respond text s).lb = s.lb := rfl
@[simp] theorem respond_lbLen (text : List Byte) (s : State) : (respond text s).lbLen = s.lbLen := rfl
@[simp] theorem respond_cmd (text : List Byte) (s : State) : (respond text s).cmd = s.cmd := rfl
@[simp] theorem respond_dlen (text : List Byte) (s : State) : (respond text s).dlen = s.dlen := rfl
@[simp] theorem respond_lbOvf (text : List Byte) (s : State) : (respond text s).lbOvf = s.lbOvf := rfl
@[simp] theorem respond_lineInvalid (text : List Byte) (s : State) : (respond text s).lineInvalid = s.lineInvalid := rfl
@[simp] theorem respond_phase (text : List Byte) (s : State) : (respond text s).phase = s.phase := rfl
@[simp] theorem respond_resp (text : List Byte) (s : State) : (respond text s).resp = text ++ [lineFeed] := rfl
@[simp] theorem respond_txptr (text : List Byte) (s : State) : (respond text s).txptr = 0 := rfl
@[simp] theorem respond_suart (text : List Byte) (s : State) : (respond text s).suart = s.suart := rfl
@[simp] theorem respond_cfg (text : List Byte) (s : State) : (respond text s).cfg = s.cfg := rfl
@[simp] theorem respond_inputs (text : List Byte) (s : State) : (respond text s).inputs = s.inputs := rfl
@[simp] theorem respond_steady (text : List Byte) (s : State) : (respond text s).steady = s.steady := rfl
@[simp] theorem respond_draws (text : List Byte) (s : State) : (respond text s).draws = s.draws := rfl
@[simp] theorem respond_chip (text : List Byte) (s : State) : (respond text s).chip = s.chip := rfl
@[simp] theorem respond_chipLog (text : List Byte) (s : State) : (respond text s).chipLog = s.chipLog := rfl

/-! A rejection changes the response and nothing else (60_exceptions.md R234). -/

@[simp] theorem reject_mode (c : Cause) (s : State) : (reject c s).mode = s.mode := rfl
@[simp] theorem reject_session (c : Cause) (s : State) : (reject c s).session = s.session := rfl
@[simp] theorem reject_wb (c : Cause) (s : State) : (reject c s).wb = s.wb := rfl
@[simp] theorem reject_wbBase (c : Cause) (s : State) : (reject c s).wbBase = s.wbBase := rfl
@[simp] theorem reject_wbFill (c : Cause) (s : State) : (reject c s).wbFill = s.wbFill := rfl
@[simp] theorem reject_lb (c : Cause) (s : State) : (reject c s).lb = s.lb := rfl
@[simp] theorem reject_lbLen (c : Cause) (s : State) : (reject c s).lbLen = s.lbLen := rfl
@[simp] theorem reject_cmd (c : Cause) (s : State) : (reject c s).cmd = s.cmd := rfl
@[simp] theorem reject_dlen (c : Cause) (s : State) : (reject c s).dlen = s.dlen := rfl
@[simp] theorem reject_lbOvf (c : Cause) (s : State) : (reject c s).lbOvf = s.lbOvf := rfl
@[simp] theorem reject_lineInvalid (c : Cause) (s : State) : (reject c s).lineInvalid = s.lineInvalid := rfl
@[simp] theorem reject_phase (c : Cause) (s : State) : (reject c s).phase = s.phase := rfl
@[simp] theorem reject_resp (c : Cause) (s : State) : (reject c s).resp = minus (message s.par c) ++ [lineFeed] := rfl
@[simp] theorem reject_txptr (c : Cause) (s : State) : (reject c s).txptr = 0 := rfl
@[simp] theorem reject_suart (c : Cause) (s : State) : (reject c s).suart = s.suart := rfl
@[simp] theorem reject_cfg (c : Cause) (s : State) : (reject c s).cfg = s.cfg := rfl
@[simp] theorem reject_inputs (c : Cause) (s : State) : (reject c s).inputs = s.inputs := rfl
@[simp] theorem reject_steady (c : Cause) (s : State) : (reject c s).steady = s.steady := rfl
@[simp] theorem reject_draws (c : Cause) (s : State) : (reject c s).draws = s.draws := rfl
@[simp] theorem reject_chip (c : Cause) (s : State) : (reject c s).chip = s.chip := rfl
@[simp] theorem reject_chipLog (c : Cause) (s : State) : (reject c s).chipLog = s.chipLog := rfl

/-! A chip read is recorded (20_memory.md R47). -/

@[simp] theorem chipRead_mode (x : Session) (addr n : Nat) (s : State) : ((chipRead x addr n s).2).mode = s.mode := rfl
@[simp] theorem chipRead_session (x : Session) (addr n : Nat) (s : State) : ((chipRead x addr n s).2).session = s.session := rfl
@[simp] theorem chipRead_wb (x : Session) (addr n : Nat) (s : State) : ((chipRead x addr n s).2).wb = s.wb := rfl
@[simp] theorem chipRead_wbBase (x : Session) (addr n : Nat) (s : State) : ((chipRead x addr n s).2).wbBase = s.wbBase := rfl
@[simp] theorem chipRead_wbFill (x : Session) (addr n : Nat) (s : State) : ((chipRead x addr n s).2).wbFill = s.wbFill := rfl
@[simp] theorem chipRead_lb (x : Session) (addr n : Nat) (s : State) : ((chipRead x addr n s).2).lb = s.lb := rfl
@[simp] theorem chipRead_lbLen (x : Session) (addr n : Nat) (s : State) : ((chipRead x addr n s).2).lbLen = s.lbLen := rfl
@[simp] theorem chipRead_cmd (x : Session) (addr n : Nat) (s : State) : ((chipRead x addr n s).2).cmd = s.cmd := rfl
@[simp] theorem chipRead_dlen (x : Session) (addr n : Nat) (s : State) : ((chipRead x addr n s).2).dlen = s.dlen := rfl
@[simp] theorem chipRead_lbOvf (x : Session) (addr n : Nat) (s : State) : ((chipRead x addr n s).2).lbOvf = s.lbOvf := rfl
@[simp] theorem chipRead_lineInvalid (x : Session) (addr n : Nat) (s : State) : ((chipRead x addr n s).2).lineInvalid = s.lineInvalid := rfl
@[simp] theorem chipRead_phase (x : Session) (addr n : Nat) (s : State) : ((chipRead x addr n s).2).phase = s.phase := rfl
@[simp] theorem chipRead_resp (x : Session) (addr n : Nat) (s : State) : ((chipRead x addr n s).2).resp = s.resp := rfl
@[simp] theorem chipRead_txptr (x : Session) (addr n : Nat) (s : State) : ((chipRead x addr n s).2).txptr = s.txptr := rfl
@[simp] theorem chipRead_suart (x : Session) (addr n : Nat) (s : State) : ((chipRead x addr n s).2).suart = s.suart := rfl
@[simp] theorem chipRead_cfg (x : Session) (addr n : Nat) (s : State) : ((chipRead x addr n s).2).cfg = s.cfg := rfl
@[simp] theorem chipRead_inputs (x : Session) (addr n : Nat) (s : State) : ((chipRead x addr n s).2).inputs = s.inputs := rfl
@[simp] theorem chipRead_steady (x : Session) (addr n : Nat) (s : State) : ((chipRead x addr n s).2).steady = s.steady := rfl
@[simp] theorem chipRead_draws (x : Session) (addr n : Nat) (s : State) : ((chipRead x addr n s).2).draws = s.draws := rfl
@[simp] theorem chipRead_chip (x : Session) (addr n : Nat) (s : State) : ((chipRead x addr n s).2).chip = s.chip := rfl
@[simp] theorem chipRead_chipLog (x : Session) (addr n : Nat) (s : State) : ((chipRead x addr n s).2).chipLog = s.chipLog ++ [readTxn x addr n] := rfl

/-! A page write is recorded and taken (20_memory.md R48). -/

@[simp] theorem chipWritePage_mode (x : Session) (addr : Nat) (page : List Byte) (s : State) : (chipWritePage x addr page s).mode = s.mode := rfl
@[simp] theorem chipWritePage_session (x : Session) (addr : Nat) (page : List Byte) (s : State) : (chipWritePage x addr page s).session = s.session := rfl
@[simp] theorem chipWritePage_wb (x : Session) (addr : Nat) (page : List Byte) (s : State) : (chipWritePage x addr page s).wb = s.wb := rfl
@[simp] theorem chipWritePage_wbBase (x : Session) (addr : Nat) (page : List Byte) (s : State) : (chipWritePage x addr page s).wbBase = s.wbBase := rfl
@[simp] theorem chipWritePage_wbFill (x : Session) (addr : Nat) (page : List Byte) (s : State) : (chipWritePage x addr page s).wbFill = s.wbFill := rfl
@[simp] theorem chipWritePage_lb (x : Session) (addr : Nat) (page : List Byte) (s : State) : (chipWritePage x addr page s).lb = s.lb := rfl
@[simp] theorem chipWritePage_lbLen (x : Session) (addr : Nat) (page : List Byte) (s : State) : (chipWritePage x addr page s).lbLen = s.lbLen := rfl
@[simp] theorem chipWritePage_cmd (x : Session) (addr : Nat) (page : List Byte) (s : State) : (chipWritePage x addr page s).cmd = s.cmd := rfl
@[simp] theorem chipWritePage_dlen (x : Session) (addr : Nat) (page : List Byte) (s : State) : (chipWritePage x addr page s).dlen = s.dlen := rfl
@[simp] theorem chipWritePage_lbOvf (x : Session) (addr : Nat) (page : List Byte) (s : State) : (chipWritePage x addr page s).lbOvf = s.lbOvf := rfl
@[simp] theorem chipWritePage_lineInvalid (x : Session) (addr : Nat) (page : List Byte) (s : State) : (chipWritePage x addr page s).lineInvalid = s.lineInvalid := rfl
@[simp] theorem chipWritePage_phase (x : Session) (addr : Nat) (page : List Byte) (s : State) : (chipWritePage x addr page s).phase = s.phase := rfl
@[simp] theorem chipWritePage_resp (x : Session) (addr : Nat) (page : List Byte) (s : State) : (chipWritePage x addr page s).resp = s.resp := rfl
@[simp] theorem chipWritePage_txptr (x : Session) (addr : Nat) (page : List Byte) (s : State) : (chipWritePage x addr page s).txptr = s.txptr := rfl
@[simp] theorem chipWritePage_suart (x : Session) (addr : Nat) (page : List Byte) (s : State) : (chipWritePage x addr page s).suart = s.suart := rfl
@[simp] theorem chipWritePage_cfg (x : Session) (addr : Nat) (page : List Byte) (s : State) : (chipWritePage x addr page s).cfg = s.cfg := rfl
@[simp] theorem chipWritePage_inputs (x : Session) (addr : Nat) (page : List Byte) (s : State) : (chipWritePage x addr page s).inputs = s.inputs := rfl
@[simp] theorem chipWritePage_steady (x : Session) (addr : Nat) (page : List Byte) (s : State) : (chipWritePage x addr page s).steady = s.steady := rfl
@[simp] theorem chipWritePage_draws (x : Session) (addr : Nat) (page : List Byte) (s : State) : (chipWritePage x addr page s).draws = s.draws := rfl
@[simp] theorem chipWritePage_chip (x : Session) (addr : Nat) (page : List Byte) (s : State) : (chipWritePage x addr page s).chip = chipTake addr page s.chip := rfl
@[simp] theorem chipWritePage_chipLog (x : Session) (addr : Nat) (page : List Byte) (s : State) : (chipWritePage x addr page s).chipLog = s.chipLog ++ [writeTxn x addr page] := rfl

/-! An edge passes. -/

@[simp] theorem tick_mode (s : State) : (s.tick).mode = s.mode := rfl
@[simp] theorem tick_session (s : State) : (s.tick).session = s.session := rfl
@[simp] theorem tick_wb (s : State) : (s.tick).wb = s.wb := rfl
@[simp] theorem tick_wbBase (s : State) : (s.tick).wbBase = s.wbBase := rfl
@[simp] theorem tick_wbFill (s : State) : (s.tick).wbFill = s.wbFill := rfl
@[simp] theorem tick_lb (s : State) : (s.tick).lb = s.lb := rfl
@[simp] theorem tick_lbLen (s : State) : (s.tick).lbLen = s.lbLen := rfl
@[simp] theorem tick_cmd (s : State) : (s.tick).cmd = s.cmd := rfl
@[simp] theorem tick_dlen (s : State) : (s.tick).dlen = s.dlen := rfl
@[simp] theorem tick_lbOvf (s : State) : (s.tick).lbOvf = s.lbOvf := rfl
@[simp] theorem tick_lineInvalid (s : State) : (s.tick).lineInvalid = s.lineInvalid := rfl
@[simp] theorem tick_phase (s : State) : (s.tick).phase = s.phase := rfl
@[simp] theorem tick_resp (s : State) : (s.tick).resp = s.resp := rfl
@[simp] theorem tick_txptr (s : State) : (s.tick).txptr = s.txptr := rfl
@[simp] theorem tick_suart (s : State) : (s.tick).suart = s.suart := rfl
@[simp] theorem tick_cfg (s : State) : (s.tick).cfg = s.cfg := rfl
@[simp] theorem tick_inputs (s : State) : (s.tick).inputs = s.inputs.tail := rfl
@[simp] theorem tick_steady (s : State) : (s.tick).steady = s.steady := rfl
@[simp] theorem tick_draws (s : State) : (s.tick).draws = s.draws := rfl
@[simp] theorem tick_chip (s : State) : (s.tick).chip = s.chip := rfl
@[simp] theorem tick_chipLog (s : State) : (s.tick).chipLog = s.chipLog := rfl

/-! ENGINE's turn takes the edge or not. -/

theorem turn_eq (s : State) : s.turn = { s with inputs := s.turn.inputs } := by unfold State.turn; split <;> rfl
@[simp] theorem turn_mode (s : State) : s.turn.mode = s.mode := by unfold State.turn; split <;> rfl
@[simp] theorem turn_session (s : State) : s.turn.session = s.session := by unfold State.turn; split <;> rfl
@[simp] theorem turn_wb (s : State) : s.turn.wb = s.wb := by unfold State.turn; split <;> rfl
@[simp] theorem turn_wbBase (s : State) : s.turn.wbBase = s.wbBase := by unfold State.turn; split <;> rfl
@[simp] theorem turn_wbFill (s : State) : s.turn.wbFill = s.wbFill := by unfold State.turn; split <;> rfl
@[simp] theorem turn_lb (s : State) : s.turn.lb = s.lb := by unfold State.turn; split <;> rfl
@[simp] theorem turn_lbLen (s : State) : s.turn.lbLen = s.lbLen := by unfold State.turn; split <;> rfl
@[simp] theorem turn_cmd (s : State) : s.turn.cmd = s.cmd := by unfold State.turn; split <;> rfl
@[simp] theorem turn_dlen (s : State) : s.turn.dlen = s.dlen := by unfold State.turn; split <;> rfl
@[simp] theorem turn_lbOvf (s : State) : s.turn.lbOvf = s.lbOvf := by unfold State.turn; split <;> rfl
@[simp] theorem turn_lineInvalid (s : State) : s.turn.lineInvalid = s.lineInvalid := by unfold State.turn; split <;> rfl
@[simp] theorem turn_phase (s : State) : s.turn.phase = s.phase := by unfold State.turn; split <;> rfl
@[simp] theorem turn_resp (s : State) : s.turn.resp = s.resp := by unfold State.turn; split <;> rfl
@[simp] theorem turn_txptr (s : State) : s.turn.txptr = s.txptr := by unfold State.turn; split <;> rfl
@[simp] theorem turn_suart (s : State) : s.turn.suart = s.suart := by unfold State.turn; split <;> rfl
@[simp] theorem turn_cfg (s : State) : s.turn.cfg = s.cfg := by unfold State.turn; split <;> rfl
@[simp] theorem turn_par (s : State) : s.turn.par = s.par := by unfold State.par; rw [turn_cfg]
@[simp] theorem turn_steady (s : State) : s.turn.steady = s.steady := by unfold State.turn; split <;> rfl
@[simp] theorem turn_chip (s : State) : s.turn.chip = s.chip := by unfold State.turn; split <;> rfl
@[simp] theorem turn_chipLog (s : State) : s.turn.chipLog = s.chipLog := by unfold State.turn; split <;> rfl
@[simp] theorem turn_draws (s : State) : s.turn.draws = s.draws := by unfold State.turn; split <;> rfl
theorem turn_of_passes {s : State} (h : s.edge.passes = true) : s.turn = s.tick := by simp [State.turn, h]
theorem turn_of_not_passes {s : State} (h : s.edge.passes = false) : s.turn = s := by simp [State.turn, h]

/-! P_RXLINE is entered (41_framer.md R141). -/

@[simp] theorem enterRxLine_mode (s : State) : (enterRxLine s).mode = s.mode := rfl
@[simp] theorem enterRxLine_session (s : State) : (enterRxLine s).session = s.session := rfl
@[simp] theorem enterRxLine_wb (s : State) : (enterRxLine s).wb = s.wb := rfl
@[simp] theorem enterRxLine_wbBase (s : State) : (enterRxLine s).wbBase = s.wbBase := rfl
@[simp] theorem enterRxLine_wbFill (s : State) : (enterRxLine s).wbFill = s.wbFill := rfl
@[simp] theorem enterRxLine_lb (s : State) : (enterRxLine s).lb = [] := rfl
@[simp] theorem enterRxLine_lbLen (s : State) : (enterRxLine s).lbLen = 0 := rfl
@[simp] theorem enterRxLine_cmd (s : State) : (enterRxLine s).cmd = s.cmd := rfl
@[simp] theorem enterRxLine_dlen (s : State) : (enterRxLine s).dlen = s.dlen := rfl
@[simp] theorem enterRxLine_lbOvf (s : State) : (enterRxLine s).lbOvf = false := rfl
@[simp] theorem enterRxLine_lineInvalid (s : State) : (enterRxLine s).lineInvalid = s.lineInvalid := rfl
@[simp] theorem enterRxLine_phase (s : State) : (enterRxLine s).phase = .rxLine := rfl
@[simp] theorem enterRxLine_resp (s : State) : (enterRxLine s).resp = s.resp := rfl
@[simp] theorem enterRxLine_txptr (s : State) : (enterRxLine s).txptr = s.txptr := rfl
@[simp] theorem enterRxLine_suart (s : State) : (enterRxLine s).suart = s.suart := rfl
@[simp] theorem enterRxLine_cfg (s : State) : (enterRxLine s).cfg = s.cfg := rfl
@[simp] theorem enterRxLine_inputs (s : State) : (enterRxLine s).inputs = s.inputs := rfl
@[simp] theorem enterRxLine_steady (s : State) : (enterRxLine s).steady = s.steady := rfl
@[simp] theorem enterRxLine_draws (s : State) : (enterRxLine s).draws = s.draws := rfl
@[simp] theorem enterRxLine_chip (s : State) : (enterRxLine s).chip = s.chip := rfl
@[simp] theorem enterRxLine_chipLog (s : State) : (enterRxLine s).chipLog = s.chipLog := rfl

/-! The parameters of an instance are those of its state's `cfg`. -/

theorem State.par_eq (s : State) : s.par = s.cfg.val := rfl
@[simp] theorem respond_par (text : List Byte) (s : State) : (respond text s).par = s.par := rfl
@[simp] theorem reject_par (c : Cause) (s : State) : (reject c s).par = s.par := rfl
@[simp] theorem chipRead_par (x : Session) (addr n : Nat) (s : State) : (chipRead x addr n s).2.par = s.par := rfl
@[simp] theorem chipWritePage_par (x : Session) (addr : Nat) (page : List Byte) (s : State) :
    (chipWritePage x addr page s).par = s.par := rfl
@[simp] theorem tick_par (s : State) : s.tick.par = s.par := rfl
@[simp] theorem enterRxLine_par (s : State) : (enterRxLine s).par = s.par := rfl

/-- The answer of a chip read has the length asked for (20_memory.md R47). -/
@[simp] theorem chipRead_length (x : Session) (addr n : Nat) (s : State) : (chipRead x addr n s).1.length = n := by
  simp [chipRead, chipAnswers]

/-! A wait is started (40_softuart.md R128). -/

@[simp] theorem loadDelay_uphase (p : Params) (t : Nat) (u : Suart) : (loadDelay p t u).uphase = u.uphase := rfl
@[simp] theorem loadDelay_txsr (p : Params) (t : Nat) (u : Suart) : (loadDelay p t u).txsr = u.txsr := rfl
@[simp] theorem loadDelay_rxsr (p : Params) (t : Nat) (u : Suart) : (loadDelay p t u).rxsr = u.rxsr := rfl
@[simp] theorem loadDelay_bitcnt (p : Params) (t : Nat) (u : Suart) : (loadDelay p t u).bitcnt = u.bitcnt := rfl
@[simp] theorem loadDelay_dly (p : Params) (t : Nat) (u : Suart) : (loadDelay p t u).dly = BitVec.ofNat 8 (t / p.dlyUnit) := rfl
@[simp] theorem loadDelay_dlySub (p : Params) (t : Nat) (u : Suart) : (loadDelay p t u).dlySub = p.dlyUnit := rfl
@[simp] theorem loadDelay_preLeft (p : Params) (t : Nat) (u : Suart) : (loadDelay p t u).preLeft = u.preLeft := rfl
@[simp] theorem loadDelay_crit (p : Params) (t : Nat) (u : Suart) : (loadDelay p t u).crit = u.crit := rfl
@[simp] theorem loadDelay_txd (p : Params) (t : Nat) (u : Suart) : (loadDelay p t u).txd = u.txd := rfl
@[simp] theorem loadDelay_txdOe (p : Params) (t : Nat) (u : Suart) : (loadDelay p t u).txdOe = u.txdOe := rfl

/-! A frame ends (40_softuart.md R112, R120). -/

@[simp] theorem endFrame_uphase (u : Suart) : (endFrame u).uphase = .idle := rfl
@[simp] theorem endFrame_txsr (u : Suart) : (endFrame u).txsr = u.txsr := rfl
@[simp] theorem endFrame_rxsr (u : Suart) : (endFrame u).rxsr = u.rxsr := rfl
@[simp] theorem endFrame_bitcnt (u : Suart) : (endFrame u).bitcnt = 0 := rfl
@[simp] theorem endFrame_dly (u : Suart) : (endFrame u).dly = 0 := rfl
@[simp] theorem endFrame_dlySub (u : Suart) : (endFrame u).dlySub = 0 := rfl
@[simp] theorem endFrame_preLeft (u : Suart) : (endFrame u).preLeft = 0 := rfl
@[simp] theorem endFrame_crit (u : Suart) : (endFrame u).crit = false := rfl
@[simp] theorem endFrame_txd (u : Suart) : (endFrame u).txd = u.txd := rfl
@[simp] theorem endFrame_txdOe (u : Suart) : (endFrame u).txdOe = u.txdOe := rfl

/-! CRIT (40_softuart.md R115, R125). -/

@[simp] theorem critOn_uphase (u : Suart) : (critOn u).uphase = u.uphase := rfl
@[simp] theorem critOn_txsr (u : Suart) : (critOn u).txsr = u.txsr := rfl
@[simp] theorem critOn_rxsr (u : Suart) : (critOn u).rxsr = u.rxsr := rfl
@[simp] theorem critOn_bitcnt (u : Suart) : (critOn u).bitcnt = u.bitcnt := rfl
@[simp] theorem critOn_dly (u : Suart) : (critOn u).dly = u.dly := rfl
@[simp] theorem critOn_dlySub (u : Suart) : (critOn u).dlySub = u.dlySub := rfl
@[simp] theorem critOn_preLeft (u : Suart) : (critOn u).preLeft = u.preLeft := rfl
@[simp] theorem critOn_crit (u : Suart) : (critOn u).crit = true := rfl
@[simp] theorem critOn_txd (u : Suart) : (critOn u).txd = u.txd := rfl
@[simp] theorem critOn_txdOe (u : Suart) : (critOn u).txdOe = u.txdOe := rfl

/-! A receive is entered (40_softuart.md R120). -/

@[simp] theorem rxEnter_uphase (p : Params) (u : Suart) : (rxEnter p u).uphase = .rxWait := rfl
@[simp] theorem rxEnter_txsr (p : Params) (u : Suart) : (rxEnter p u).txsr = u.txsr := rfl
@[simp] theorem rxEnter_rxsr (p : Params) (u : Suart) : (rxEnter p u).rxsr = u.rxsr := rfl
@[simp] theorem rxEnter_bitcnt (p : Params) (u : Suart) : (rxEnter p u).bitcnt = u.bitcnt := rfl
@[simp] theorem rxEnter_dly (p : Params) (u : Suart) : (rxEnter p u).dly = u.dly := rfl
@[simp] theorem rxEnter_dlySub (p : Params) (u : Suart) : (rxEnter p u).dlySub = u.dlySub := rfl
@[simp] theorem rxEnter_preLeft (p : Params) (u : Suart) : (rxEnter p u).preLeft = u.preLeft := rfl
@[simp] theorem rxEnter_crit (p : Params) (u : Suart) : (rxEnter p u).crit = u.crit := rfl
@[simp] theorem rxEnter_txd (p : Params) (u : Suart) : (rxEnter p u).txd = u.txd := rfl
@[simp] theorem rxEnter_txdOe (p : Params) (u : Suart) : (rxEnter p u).txdOe = (!p.singleWire && u.txdOe) := rfl

/-! The bits of a frame start (40_softuart.md R112). -/

@[simp] theorem startBits_uphase (p : Params) (b : Byte) (u : Suart) : (startBits p b u).uphase = u.uphase := rfl
@[simp] theorem startBits_txsr (p : Params) (b : Byte) (u : Suart) : (startBits p b u).txsr = txFrame b := rfl
@[simp] theorem startBits_rxsr (p : Params) (b : Byte) (u : Suart) : (startBits p b u).rxsr = u.rxsr := rfl
@[simp] theorem startBits_bitcnt (p : Params) (b : Byte) (u : Suart) : (startBits p b u).bitcnt = 10 := rfl
@[simp] theorem startBits_dly (p : Params) (b : Byte) (u : Suart) : (startBits p b u).dly = BitVec.ofNat 8 (p.tTx / p.dlyUnit) := rfl
@[simp] theorem startBits_dlySub (p : Params) (b : Byte) (u : Suart) : (startBits p b u).dlySub = p.dlyUnit := rfl
@[simp] theorem startBits_preLeft (p : Params) (b : Byte) (u : Suart) : (startBits p b u).preLeft = 0 := rfl
@[simp] theorem startBits_crit (p : Params) (b : Byte) (u : Suart) : (startBits p b u).crit = u.crit := rfl
@[simp] theorem startBits_txd (p : Params) (b : Byte) (u : Suart) : (startBits p b u).txd = (txFrame b).getLsbD 0 := rfl
@[simp] theorem startBits_txdOe (p : Params) (b : Byte) (u : Suart) : (startBits p b u).txdOe = u.txdOe := rfl

/-! The next bit period of a frame (40_softuart.md R112). -/

@[simp] theorem txNextBit_uphase (p : Params) (u : Suart) : (txNextBit p u).uphase = u.uphase := rfl
@[simp] theorem txNextBit_txsr (p : Params) (u : Suart) : (txNextBit p u).txsr = u.txsr := rfl
@[simp] theorem txNextBit_rxsr (p : Params) (u : Suart) : (txNextBit p u).rxsr = u.rxsr := rfl
@[simp] theorem txNextBit_bitcnt (p : Params) (u : Suart) : (txNextBit p u).bitcnt = u.bitcnt - 1 := rfl
@[simp] theorem txNextBit_dly (p : Params) (u : Suart) : (txNextBit p u).dly = BitVec.ofNat 8 (p.tTx / p.dlyUnit) := rfl
@[simp] theorem txNextBit_dlySub (p : Params) (u : Suart) : (txNextBit p u).dlySub = p.dlyUnit := rfl
@[simp] theorem txNextBit_preLeft (p : Params) (u : Suart) : (txNextBit p u).preLeft = u.preLeft := rfl
@[simp] theorem txNextBit_crit (p : Params) (u : Suart) : (txNextBit p u).crit = u.crit := rfl
@[simp] theorem txNextBit_txd (p : Params) (u : Suart) : (txNextBit p u).txd = u.txsr.getLsbD (11 - u.bitcnt) := rfl
@[simp] theorem txNextBit_txdOe (p : Params) (u : Suart) : (txNextBit p u).txdOe = u.txdOe := rfl

/-! The next wait of a receive frame (40_softuart.md R120). -/

@[simp] theorem rxNextBit_uphase (p : Params) (rxd : Bool) (u : Suart) : (rxNextBit p rxd u).uphase = u.uphase := rfl
@[simp] theorem rxNextBit_txsr (p : Params) (rxd : Bool) (u : Suart) : (rxNextBit p rxd u).txsr = u.txsr := rfl
@[simp] theorem rxNextBit_bitcnt (p : Params) (rxd : Bool) (u : Suart) : (rxNextBit p rxd u).bitcnt = u.bitcnt - 1 := rfl
@[simp] theorem rxNextBit_dly (p : Params) (rxd : Bool) (u : Suart) : (rxNextBit p rxd u).dly = BitVec.ofNat 8 (p.tRx / p.dlyUnit) := rfl
@[simp] theorem rxNextBit_dlySub (p : Params) (rxd : Bool) (u : Suart) : (rxNextBit p rxd u).dlySub = p.dlyUnit := rfl
@[simp] theorem rxNextBit_preLeft (p : Params) (rxd : Bool) (u : Suart) : (rxNextBit p rxd u).preLeft = u.preLeft := rfl
@[simp] theorem rxNextBit_crit (p : Params) (rxd : Bool) (u : Suart) : (rxNextBit p rxd u).crit = u.crit := rfl
@[simp] theorem rxNextBit_txd (p : Params) (rxd : Bool) (u : Suart) : (rxNextBit p rxd u).txd = u.txd := rfl
@[simp] theorem rxNextBit_txdOe (p : Params) (rxd : Bool) (u : Suart) : (rxNextBit p rxd u).txdOe = u.txdOe := rfl

/-! One cycle of a wait changes the delay counter only (40_softuart.md R110). -/

@[simp] theorem tickDelay_uphase (p : Params) (u : Suart) : (tickDelay p u).uphase = u.uphase := by
  unfold tickDelay; split <;> [rfl; split <;> rfl]
@[simp] theorem tickDelay_txsr (p : Params) (u : Suart) : (tickDelay p u).txsr = u.txsr := by
  unfold tickDelay; split <;> [rfl; split <;> rfl]
@[simp] theorem tickDelay_rxsr (p : Params) (u : Suart) : (tickDelay p u).rxsr = u.rxsr := by
  unfold tickDelay; split <;> [rfl; split <;> rfl]
@[simp] theorem tickDelay_bitcnt (p : Params) (u : Suart) : (tickDelay p u).bitcnt = u.bitcnt := by
  unfold tickDelay; split <;> [rfl; split <;> rfl]
@[simp] theorem tickDelay_preLeft (p : Params) (u : Suart) : (tickDelay p u).preLeft = u.preLeft := by
  unfold tickDelay; split <;> [rfl; split <;> rfl]
@[simp] theorem tickDelay_crit (p : Params) (u : Suart) : (tickDelay p u).crit = u.crit := by
  unfold tickDelay; split <;> [rfl; split <;> rfl]
@[simp] theorem tickDelay_txd (p : Params) (u : Suart) : (tickDelay p u).txd = u.txd := by
  unfold tickDelay; split <;> [rfl; split <;> rfl]
@[simp] theorem tickDelay_txdOe (p : Params) (u : Suart) : (tickDelay p u).txdOe = u.txdOe := by
  unfold tickDelay; split <;> [rfl; split <;> rfl]

end Sys2Proof.Machine
end

