-- ==== Sys2Proof/Laws/Suart.lean ====
section
/-! SUPPORT. Suart.lean: how long a wait lasts, and what the parts of a frame do (40_softuart.md). -/

namespace Sys2Proof.Machine

/-- `n` cycles of a wait. -/
def waitCycles (p : Params) : Nat → Suart → Suart
  | 0, u => u
  | n + 1, u => waitCycles p n (tickDelay p u)

/-- The clk cycles left of the wait in progress (40_softuart.md R128): the current count, then the counts after it. -/
def cyclesLeft (p : Params) (u : Suart) : Nat := (u.dly.toNat - 1) * p.dlyUnit + u.dlySub

theorem Params.legal_dlyUnit {p : Params} (h : p.legal = true) : 1 ≤ p.dlyUnit := by
  simp [Params.legal] at h; omega

theorem Params.legal_tTx {p : Params} (h : p.legal = true) : Params.delayFits p.dlyUnit p.tTx = true := by
  simp [Params.legal] at h; simp [h]

theorem Params.legal_tRx {p : Params} (h : p.legal = true) : Params.delayFits p.dlyUnit p.tRx = true := by
  simp [Params.legal] at h; simp [h]

theorem Params.legal_tHalf {p : Params} (h : p.legal = true) : Params.delayFits p.dlyUnit p.tHalf = true := by
  simp [Params.legal] at h; simp [h]

theorem Params.legal_aMax {p : Params} (h : p.legal = true) : p.aMax ≤ 7 := by
  simp [Params.legal] at h; omega

theorem Params.legal_nMax {p : Params} (h : p.legal = true) : 1 ≤ p.nMax := by
  simp [Params.legal] at h; omega

theorem Params.legal_kbDiv {p : Params} (h : p.legal = true) : 1 ≤ p.kbDiv := by
  simp [Params.legal] at h; omega

theorem Params.delayFits_iff (unit t : Nat) :
    Params.delayFits unit t = true ↔ t % unit = 0 ∧ 1 ≤ t / unit ∧ t / unit ≤ 255 := by
  simp [Params.delayFits]

/-- A loaded delay lasts exactly the cycles asked for, if the instance is legal (00_scope.md R4). -/
theorem cyclesLeft_loadDelay (p : Params) (t : Nat) (u : Suart) (h : Params.delayFits p.dlyUnit t = true) :
    cyclesLeft p (loadDelay p t u) = t := by
  obtain ⟨h0, h1, h2⟩ := (Params.delayFits_iff _ _).1 h
  simp only [cyclesLeft, loadDelay_dly, loadDelay_dlySub, BitVec.toNat_ofNat]
  rw [Nat.mod_eq_of_lt (by omega), ← Nat.succ_mul, Nat.succ_eq_add_one, Nat.sub_add_cancel h1]
  exact Nat.div_mul_cancel (Nat.dvd_of_mod_eq_zero h0)

theorem loadDelay_dly_ne_zero (p : Params) (t : Nat) (u : Suart) (h : Params.delayFits p.dlyUnit t = true) :
    (loadDelay p t u).dly ≠ 0 := by
  obtain ⟨_, h1, h2⟩ := (Params.delayFits_iff _ _).1 h
  intro hz
  have := congrArg BitVec.toNat hz
  simp only [loadDelay_dly, BitVec.toNat_ofNat] at this
  rw [Nat.mod_eq_of_lt (by omega)] at this
  change t / p.dlyUnit = 0 at this
  omega

/-- A wait in progress: DLY counts, and the current count has some of its cycles left. -/
structure Waiting (p : Params) (u : Suart) : Prop where
  counting : u.dly ≠ 0
  subPos : 1 ≤ u.dlySub
  subLe : u.dlySub ≤ p.dlyUnit

theorem Waiting.dly_pos {p : Params} {u : Suart} (h : Waiting p u) : 1 ≤ u.dly.toNat := by
  have := h.counting
  by_contra hc
  exact this (BitVec.eq_of_toNat_eq (by simp; omega))

theorem waiting_loadDelay {p : Params} (hu : 1 ≤ p.dlyUnit) {t : Nat} (u : Suart)
    (h : Params.delayFits p.dlyUnit t = true) : Waiting p (loadDelay p t u) :=
  ⟨loadDelay_dly_ne_zero p t u h, hu, le_refl _⟩

/-- One cycle of a wait: it goes on with one cycle less, or it is over and the counter rests at 0. -/
theorem tickDelay_spec {p : Params} {u : Suart} (h : Waiting p u) :
    (1 < cyclesLeft p u ∧ Waiting p (tickDelay p u) ∧ cyclesLeft p (tickDelay p u) + 1 = cyclesLeft p u)
    ∨ (cyclesLeft p u = 1 ∧ tickDelay p u = { u with dly := 0, dlySub := 0 }) := by
  have hd := h.dly_pos
  have hs := h.subPos
  have hl := h.subLe
  by_cases h1 : 1 < u.dlySub
  · left
    have e : tickDelay p u = { u with dlySub := u.dlySub - 1 } := by simp [tickDelay, h1]
    rw [e]
    refine ⟨by simp only [cyclesLeft]; omega, ⟨h.counting, by show 1 ≤ u.dlySub - 1; omega,
      by show u.dlySub - 1 ≤ _; omega⟩, by simp only [cyclesLeft]; omega⟩
  · have hs1 : u.dlySub = 1 := by omega
    by_cases h2 : u.dly.toNat ≤ 1
    · right
      refine ⟨by simp only [cyclesLeft, hs1]; rw [show u.dly.toNat - 1 = 0 by omega]; simp, ?_⟩
      simp [tickDelay, h1, h2]
    · left
      have e : tickDelay p u = { u with dly := u.dly - 1, dlySub := p.dlyUnit } := by simp [tickDelay, h1, h2]
      have hlt := u.dly.isLt
      have hv : (u.dly - 1).toNat = u.dly.toNat - 1 := by
        rw [BitVec.toNat_sub]
        simp
        omega
      have hm : (u.dly.toNat - 1) * p.dlyUnit = (u.dly.toNat - 1 - 1) * p.dlyUnit + p.dlyUnit := by
        rw [← Nat.succ_mul]; congr 1; omega
      rw [e]
      refine ⟨?_, ⟨?_, by show 1 ≤ p.dlyUnit; omega, le_refl _⟩, ?_⟩
      · simp only [cyclesLeft, hm]; omega
      · intro hz
        have := congrArg BitVec.toNat hz
        change (u.dly - 1).toNat = _ at this
        rw [hv] at this
        simp at this
        omega
      · simp only [cyclesLeft, hv, hm]; omega

theorem tickDelay_dly_ne_zero_iff {p : Params} {u : Suart} (h : Waiting p u) :
    (tickDelay p u).dly ≠ 0 ↔ 1 < cyclesLeft p u := by
  rcases tickDelay_spec h with ⟨h1, hw, _⟩ | ⟨h1, e⟩
  · exact ⟨fun _ => h1, fun _ => hw.counting⟩
  · rw [e]; simp [h1]

/-- Start, data bits, stop: the ten levels of a frame (40_softuart.md R113, 30_encoding.md R71). -/
theorem txFrame_start (b : Byte) : (txFrame b).getLsbD 0 = false := by revert b; decide

theorem txFrame_stop (b : Byte) : (txFrame b).getLsbD 9 = true := by revert b; decide

theorem txFrame_data (b : Byte) (i : Nat) (h : i < 8) : (txFrame b).getLsbD (1 + i) = b.getLsbD i := by
  simp only [txFrame, BitVec.getLsbD_append]
  rw [if_neg (by omega), show 1 + i - 1 = i by omega]
  simp [h]

/-- A transmit call is entered (40_softuart.md R112). -/
theorem txEnter_eq (p : Params) (b : Byte) (u : Suart) :
    txEnter p b u = if p.txPre = 0
      then startBits p b { u with uphase := .tx, crit := true, txdOe := p.singleWire || u.txdOe, txd := true }
      else { u with uphase := .tx, crit := true, txdOe := p.singleWire || u.txdOe, txd := true, preLeft := p.txPre } :=
  rfl

@[simp] theorem txEnter_uphase (p : Params) (b : Byte) (u : Suart) : (txEnter p b u).uphase = .tx := by
  rw [txEnter_eq]; split <;> rfl

@[simp] theorem txEnter_crit (p : Params) (b : Byte) (u : Suart) : (txEnter p b u).crit = true := by
  rw [txEnter_eq]; split <;> rfl

@[simp] theorem txEnter_txdOe (p : Params) (b : Byte) (u : Suart) :
    (txEnter p b u).txdOe = (p.singleWire || u.txdOe) := by
  rw [txEnter_eq]; split <;> rfl

/-- A sample is put into its bit of RXSR and the other bits stay (40_softuart.md R120). -/
theorem rxNextBit_rxsr (p : Params) (rxd : Bool) (u : Suart) (h0 : u.bitcnt ≠ 10) (i : Nat) (h : i < 8) :
    (rxNextBit p rxd u).rxsr.getLsbD i = if i = 9 - u.bitcnt then rxd else u.rxsr.getLsbD i := by
  simp only [rxNextBit, loadDelay, if_neg h0, BitVec.getLsbD_or, BitVec.getLsbD_and, BitVec.getLsbD_not,
    BitVec.getLsbD_twoPow]
  by_cases hi : i = 9 - u.bitcnt
  · subst hi
    cases rxd <;> simp [h]
  · have hi' : ¬ 9 - u.bitcnt = i := fun e => hi e.symm
    cases rxd <;> simp [h, hi, hi']

end Sys2Proof.Machine
end

