-- ==== Sys2Proof/Laws/Memory.lean ====
section
/-! SUPPORT. Memory.lean: what the byte-array operations do, and that they keep the canonical form. -/

namespace Sys2Proof.Machine

theorem Memory.get_nil (a : Nat) : Memory.get [] a = none := rfl

theorem Memory.get_cons (b : Nat) (v : Byte) (m : Memory) (a : Nat) :
    Memory.get ((b, v) :: m) a = if a = b then some v else Memory.get m a := rfl

/-- A byte reads as the value stored last. -/
@[simp] theorem Memory.get_set_same (m : Memory) (a : Nat) (v : Byte) : (Memory.set m a v).get a = some v := by
  induction m with
  | nil => simp [Memory.set, Memory.get]
  | cons c m ih =>
    obtain ⟨b, w⟩ := c
    simp only [Memory.set]
    split
    · simp [Memory.get]
    · split
      · simp [Memory.get]
      · rename_i _ hne
        simp [Memory.get, hne, ih]

/-- A store leaves every other byte alone. -/
theorem Memory.get_set_other (m : Memory) (a a' : Nat) (v : Byte) (h : a' ≠ a) :
    (Memory.set m a v).get a' = m.get a' := by
  induction m with
  | nil => simp [Memory.set, Memory.get, h]
  | cons c m ih =>
    obtain ⟨b, w⟩ := c
    simp only [Memory.set]
    split
    · simp [Memory.get, h]
    · split
      · rename_i _ hab
        subst hab
        simp [Memory.get, h]
      · simp [Memory.get, ih]

theorem Memory.get_setBytes (vs : List Byte) : ∀ (m : Memory) (a a' : Nat),
    (Memory.setBytes m a vs).get a' = if a ≤ a' ∧ a' < a + vs.length then vs[a' - a]? else m.get a' := by
  induction vs with
  | nil => intro m a a'; simp [Memory.setBytes]
  | cons v vs ih =>
    intro m a a'
    simp only [Memory.setBytes, ih, List.length_cons]
    by_cases h0 : a' = a
    · subst h0
      simp
    · rw [Memory.get_set_other _ _ _ _ h0]
      by_cases h1 : a + 1 ≤ a' ∧ a' < a + 1 + vs.length
      · rw [if_pos h1, if_pos (by omega)]
        have : a' - a = (a' - (a + 1)) + 1 := by omega
        rw [this, List.getElem?_cons_succ]
      · rw [if_neg h1, if_neg (by omega)]

/-- A store of bytes leaves every byte outside them alone. -/
theorem Memory.get_setBytes_outside (m : Memory) (a a' : Nat) (vs : List Byte) (h : a' < a ∨ a + vs.length ≤ a') :
    (Memory.setBytes m a vs).get a' = m.get a' := by
  rw [Memory.get_setBytes, if_neg (by omega)]

theorem Memory.wf_cons (a : Nat) (v : Byte) (m : Memory) :
    Memory.wf ((a, v) :: m) = true ↔ (∀ c ∈ m.head?, a < c.1) ∧ Memory.wf m = true := by
  cases m with
  | nil => simp [Memory.wf]
  | cons c m => obtain ⟨b, w⟩ := c; simp [Memory.wf]

/-- The canonical form, said as a pairwise order. -/
theorem Memory.wf_iff_pairwise (m : Memory) : Memory.wf m = true ↔ m.Pairwise (fun c d => c.1 < d.1) := by
  induction m with
  | nil => simp [Memory.wf]
  | cons c m ih =>
    obtain ⟨a, v⟩ := c
    rw [Memory.wf_cons, List.pairwise_cons, ih]
    constructor
    · rintro ⟨hh, hp⟩
      refine ⟨?_, hp⟩
      intro d hd
      cases m with
      | nil => simp at hd
      | cons e m =>
        have h1 : a < e.1 := hh e (by simp)
        rcases List.mem_cons.1 hd with rfl | hd
        · exact h1
        · exact lt_trans h1 ((List.pairwise_cons.1 hp).1 d hd)
    · rintro ⟨hh, hp⟩
      refine ⟨?_, hp⟩
      intro c hc
      cases m with
      | nil => simp at hc
      | cons e m => simp at hc; subst hc; exact hh e (by simp)

theorem Memory.mem_set (m : Memory) (a : Nat) (v : Byte) (c : Host.Cell) (h : c ∈ Memory.set m a v) :
    c = (a, v) ∨ c ∈ m := by
  induction m with
  | nil => simpa [Memory.set] using h
  | cons d m ih =>
    obtain ⟨b, w⟩ := d
    simp only [Memory.set] at h
    split at h
    · simpa using h
    · split at h
      · rcases List.mem_cons.1 h with h | h
        · exact .inl h
        · exact .inr (List.mem_cons_of_mem _ h)
      · rcases List.mem_cons.1 h with h | h
        · exact .inr (by simp [h])
        · rcases ih h with h | h
          · exact .inl h
          · exact .inr (List.mem_cons_of_mem _ h)

/-- A store keeps the canonical form. -/
theorem Memory.wf_set (m : Memory) (a : Nat) (v : Byte) (h : Memory.wf m = true) : Memory.wf (Memory.set m a v) = true := by
  rw [Memory.wf_iff_pairwise] at h ⊢
  induction m with
  | nil => simp [Memory.set]
  | cons d m ih =>
    obtain ⟨b, w⟩ := d
    obtain ⟨hb, hp⟩ := List.pairwise_cons.1 h
    simp only [Memory.set]
    split
    · rename_i hab
      refine List.pairwise_cons.2 ⟨?_, h⟩
      intro c hc
      rcases List.mem_cons.1 hc with rfl | hc
      · exact hab
      · exact lt_trans hab (hb c hc)
    · split
      · rename_i hab
        subst hab
        exact List.pairwise_cons.2 ⟨hb, hp⟩
      · refine List.pairwise_cons.2 ⟨?_, ih hp⟩
        intro c hc
        rcases Memory.mem_set m a v c hc with rfl | hc
        · show b < a; omega
        · exact hb c hc

/-- A store of bytes keeps the canonical form. -/
theorem Memory.wf_setBytes (vs : List Byte) : ∀ (m : Memory) (a : Nat), Memory.wf m = true →
    Memory.wf (Memory.setBytes m a vs) = true := by
  induction vs with
  | nil => intro m a h; exact h
  | cons v vs ih => intro m a h; exact ih _ _ (Memory.wf_set m a v h)

/-- Dropping the top keeps the canonical form. -/
theorem Memory.wf_truncate (m : Memory) (top : Nat) (h : Memory.wf m = true) : Memory.wf (m.truncate top) = true := by
  rw [Memory.wf_iff_pairwise] at h ⊢
  exact h.filter _

/-- The slide keeps the canonical form. -/
theorem Memory.wf_slideDown (m : Memory) (d : Nat) (h : Memory.wf m = true) : Memory.wf (m.slideDown d) = true := by
  rw [Memory.wf_iff_pairwise] at h ⊢
  refine List.Pairwise.filterMap _ ?_ h
  intro c c' hc b hb b' hb'
  split at hb
  · split at hb'
    · simp only [Option.some.injEq] at hb hb'
      subst hb hb'
      show c.1 - d < c'.1 - d
      omega
    · simp at hb'
  · simp at hb

theorem Memory.mem_setBytes (vs : List Byte) : ∀ (m : Memory) (a : Nat) (c : Host.Cell),
    c ∈ Memory.setBytes m a vs → c ∈ m ∨ (a ≤ c.1 ∧ c.1 < a + vs.length) := by
  induction vs with
  | nil => intro m a c h; exact .inl h
  | cons v vs ih =>
    intro m a c h
    rcases ih _ _ _ h with h | ⟨h1, h2⟩
    · rcases Memory.mem_set _ _ _ _ h with rfl | h
      · exact .inr ⟨le_refl _, by simp⟩
      · exact .inl h
    · exact .inr ⟨by omega, by simp; omega⟩

theorem Memory.mem_truncate (m : Memory) (top : Nat) (c : Host.Cell) :
    c ∈ m.truncate top ↔ c ∈ m ∧ c.1 < top := by simp [Memory.truncate]

theorem Memory.get_eq_none_of_lt (m : Memory) (a : Nat) (h : ∀ c ∈ m, c.1 ≠ a) : m.get a = none := by
  induction m with
  | nil => rfl
  | cons c m ih =>
    obtain ⟨b, v⟩ := c
    rw [Memory.get_cons, if_neg (fun e => h (b, v) (by simp) e.symm), ih fun c hc => h c (by simp [hc])]

/-! The array that holds given bytes from an address on. -/

@[simp] theorem Memory.ofBytes_nil (a : Nat) : Memory.ofBytes a [] = [] := rfl

theorem Memory.ofBytes_append (vs ws : List Byte) : ∀ a,
    Memory.ofBytes a (vs ++ ws) = Memory.ofBytes a vs ++ Memory.ofBytes (a + vs.length) ws := by
  induction vs with
  | nil => intro a; simp
  | cons v vs ih => intro a; simp [Memory.ofBytes, ih]; congr 1; omega

theorem Memory.map_fst_ofBytes (vs : List Byte) : ∀ a,
    (Memory.ofBytes a vs).map Prod.fst = List.range' a vs.length := by
  induction vs with
  | nil => intro a; rfl
  | cons v vs ih => intro a; simp [Memory.ofBytes, ih, List.range'_succ]

theorem Memory.spans_ofBytes (vs : List Byte) : (Memory.ofBytes 0 vs).spans vs.length := by
  simp [Memory.spans, Memory.map_fst_ofBytes, List.range_eq_range']

theorem Memory.eq_ofBytes_of_map_fst (m : Memory) : ∀ a, m.map Prod.fst = List.range' a m.length →
    m = Memory.ofBytes a (m.map Prod.snd) := by
  induction m with
  | nil => intro a _; rfl
  | cons c m ih =>
    intro a h
    obtain ⟨b, v⟩ := c
    simp only [List.map_cons, List.length_cons, List.range'_succ, List.cons.injEq] at h
    obtain ⟨rfl, h⟩ := h
    simp only [List.map_cons, Memory.ofBytes]
    rw [← ih _ h]

/-- An array whose content is exactly the bytes below `top` is the array of some `top` bytes. -/
theorem Memory.spans_iff (m : Memory) (top : Nat) :
    m.spans top ↔ ∃ vs : List Byte, vs.length = top ∧ m = Memory.ofBytes 0 vs := by
  constructor
  · intro h
    have hl : m.length = top := by simpa using congrArg List.length h
    refine ⟨m.map Prod.snd, by simpa using hl, Memory.eq_ofBytes_of_map_fst m 0 ?_⟩
    rw [hl, ← List.range_eq_range']
    exact h
  · rintro ⟨vs, rfl, rfl⟩
    exact Memory.spans_ofBytes vs

theorem Memory.wf_of_spans (m : Memory) (top : Nat) (h : m.spans top) : Memory.wf m = true := by
  rw [Memory.wf_iff_pairwise]
  have := (List.pairwise_lt_range (n := top))
  rw [← h, List.pairwise_map] at this
  exact this

theorem Memory.lt_of_spans {m : Memory} {top : Nat} (h : m.spans top) {c : Host.Cell} (hc : c ∈ m) : c.1 < top := by
  have : c.1 ∈ List.range top := h ▸ List.mem_map_of_mem (f := Prod.fst) hc
  simpa using this

theorem Memory.get_ofBytes (vs : List Byte) : ∀ a i,
    (Memory.ofBytes a vs).get i = if a ≤ i then vs[i - a]? else none := by
  induction vs with
  | nil => intro a i; simp [Memory.get]
  | cons v vs ih =>
    intro a i
    rw [Memory.ofBytes, Memory.get_cons, ih]
    by_cases h0 : i = a
    · subst h0; simp
    · rw [if_neg h0]
      by_cases h1 : a ≤ i
      · rw [if_pos (by omega), if_pos h1]
        have : i - a = (i - (a + 1)) + 1 := by omega
        rw [this, List.getElem?_cons_succ]
      · rw [if_neg (by omega), if_neg h1]

@[simp] theorem Memory.get_ofBytes_zero (vs : List Byte) (i : Nat) : (Memory.ofBytes 0 vs).get i = vs[i]? := by
  simp [Memory.get_ofBytes]

/-- Storing inside the array replaces a byte; storing just past its end appends one. -/
theorem Memory.set_ofBytes (vs : List Byte) : ∀ a i v, a ≤ i → i ≤ a + vs.length →
    Memory.set (Memory.ofBytes a vs) i v = Memory.ofBytes a (vs.take (i - a) ++ v :: vs.drop (i - a + 1)) := by
  induction vs with
  | nil =>
    intro a i v h1 h2
    obtain rfl : i = a := by simp at h2; omega
    simp [Memory.set, Memory.ofBytes]
  | cons w vs ih =>
    intro a i v h1 h2
    simp only [Memory.ofBytes, Memory.set]
    by_cases h0 : i = a
    · subst h0; simp [Memory.ofBytes]
    · rw [if_neg (by omega), if_neg h0, ih (a + 1) i v (by omega) (by simp at h2; omega)]
      have : i - a = (i - (a + 1)) + 1 := by omega
      rw [this]
      simp [Memory.ofBytes]

theorem Memory.set_ofBytes_end (vs : List Byte) (v : Byte) :
    Memory.set (Memory.ofBytes 0 vs) vs.length v = Memory.ofBytes 0 (vs ++ [v]) := by
  rw [Memory.set_ofBytes vs 0 vs.length v (by omega) (by omega)]
  simp [List.drop_eq_nil_of_le]

/-- Bytes stored just past the end are appended. -/
theorem Memory.setBytes_ofBytes_end (ws : List Byte) : ∀ vs : List Byte,
    Memory.setBytes (Memory.ofBytes 0 vs) vs.length ws = Memory.ofBytes 0 (vs ++ ws) := by
  induction ws with
  | nil => intro vs; simp [Memory.setBytes]
  | cons w ws ih =>
    intro vs
    rw [Memory.setBytes, Memory.set_ofBytes_end]
    have := ih (vs ++ [w])
    simpa using this

/-- Bytes stored into the empty array are its content. -/
theorem Memory.setBytes_nil (ws : List Byte) : Memory.setBytes [] 0 ws = Memory.ofBytes 0 ws := by
  simpa using Memory.setBytes_ofBytes_end ws []

/-- A byte that holds a value is read as that value. -/
theorem readByte_of_get {m : Memory} {a : Nat} {v : Byte} (buffer : Buffer) (draw : Nat) (h : m.get a = some v) :
    readByte buffer draw m a = v := by simp [readByte, h]

theorem readBytes_of_get (buffer : Buffer) (draw n : Nat) : ∀ (m : Memory) (a : Nat) (vs : List Byte),
    vs.length = n → (∀ i, i < n → m.get (a + i) = vs[i]?) → readBytes buffer draw m a n = vs := by
  induction n with
  | zero => intro m a vs h _; simp [readBytes, List.length_eq_zero_iff.1 h]
  | succ n ih =>
    intro m a vs h hg
    cases vs with
    | nil => simp at h
    | cons v vs =>
      have h0 : m.get a = some v := by simpa using hg 0 (by omega)
      have h1 := ih m (a + 1) vs (by simpa using h) (fun i hi => by
        have := hg (i + 1) (by omega)
        rw [List.getElem?_cons_succ] at this
        rw [← this]; congr 1; omega)
      simp [readBytes, readByte_of_get _ _ h0, h1]

/-- A run of bytes read out of an array: no free value is among them. -/
theorem readBytes_ofBytes (buffer : Buffer) (draw : Nat) (vs : List Byte) (a n : Nat) (h : a + n ≤ vs.length) :
    readBytes buffer draw (Memory.ofBytes 0 vs) a n = (vs.drop a).take n := by
  refine readBytes_of_get _ _ n _ a _ (by simp; omega) ?_
  intro i hi
  rw [Memory.get_ofBytes_zero, List.getElem?_take, if_pos hi, List.getElem?_drop]

@[simp] theorem readBytes_length (buffer : Buffer) (draw n : Nat) : ∀ (m : Memory) (a : Nat),
    (readBytes buffer draw m a n).length = n := by
  induction n with
  | zero => intro m a; rfl
  | succ n ih => intro m a; simp [readBytes, ih]

theorem Memory.truncate_ofBytes (vs : List Byte) : ∀ a top,
    (Memory.ofBytes a vs).truncate top = Memory.ofBytes a (vs.take (top - a)) := by
  induction vs with
  | nil => intro a top; simp [Memory.truncate]
  | cons v vs ih =>
    intro a top
    have ih' := ih (a + 1) top
    simp only [Memory.truncate] at ih' ⊢
    by_cases h : a < top
    · have : top - a = (top - (a + 1)) + 1 := by omega
      rw [this]
      simp [Memory.ofBytes, h, ih']
    · have h0 : top - a = 0 := by omega
      have h1 : top - (a + 1) = 0 := by omega
      rw [h1] at ih'
      simp [Memory.ofBytes, h, h0]
      simpa using ih'

theorem Memory.slideDown_ofBytes (vs : List Byte) : ∀ a d,
    (Memory.ofBytes a vs).slideDown d = Memory.ofBytes (a - d) (vs.drop (d - a)) := by
  induction vs with
  | nil => intro a d; simp [Memory.slideDown]
  | cons v vs ih =>
    intro a d
    have ih' := ih (a + 1) d
    simp only [Memory.slideDown] at ih' ⊢
    by_cases h : d ≤ a
    · have h0 : d - a = 0 := by omega
      have h1 : d - (a + 1) = 0 := by omega
      have h2 : a + 1 - d = a - d + 1 := by omega
      rw [h1] at ih'
      simp [Memory.ofBytes, h, h0, ih', h2]
    · have h0 : d - a = (d - (a + 1)) + 1 := by omega
      have h1 : a - d = 0 := by omega
      have h2 : a + 1 - d = 0 := by omega
      rw [h2] at ih'
      rw [h0, h1]
      simp [Memory.ofBytes, h, ih']

/-- The slide of 43_write_buffer.md R212 on an array of bytes. -/
theorem Memory.slideDown_ofBytes_zero (vs : List Byte) (d : Nat) :
    (Memory.ofBytes 0 vs).slideDown d = Memory.ofBytes 0 (vs.drop d) := by
  simpa using Memory.slideDown_ofBytes vs 0 d

/-- A store inside the array's capacity stores every byte. -/
theorem storeBytes_of_le (cap : Nat) (m : Memory) (a : Nat) (vs : List Byte) (h : a + vs.length ≤ cap) :
    storeBytes cap m a vs = m.setBytes a vs := by
  rw [storeBytes, List.take_of_length_le (by omega)]

theorem wf_storeBytes (cap : Nat) (m : Memory) (a : Nat) (vs : List Byte) (h : Memory.wf m = true) :
    Memory.wf (storeBytes cap m a vs) = true := Memory.wf_setBytes _ _ _ h

/-- A store reaches no cell at or past the array's capacity (10_state.md R20). -/
theorem mem_storeBytes_lt (cap : Nat) (m : Memory) (a : Nat) (vs : List Byte) (c : Host.Cell)
    (h : c ∈ storeBytes cap m a vs) : c ∈ m ∨ c.1 < cap := by
  rcases Memory.mem_setBytes _ _ _ _ h with h | ⟨h1, h2⟩
  · exact .inl h
  · simp at h2; exact .inr (by omega)

end Sys2Proof.Machine
end

