-- ==== Sys2Proof/Laws/WriteBuffer.lean ====
section
/-! SUPPORT. WriteBuffer.lean: what each operation of the write-buffer manager does (43_write_buffer.md). -/

namespace Sys2Proof.Machine

theorem chipRead_eq (x : Session) (addr n : Nat) (s : State) :
    chipRead x addr n s
      = (chipAnswers s.chip s.chipLog x addr n, { s with chipLog := s.chipLog ++ [readTxn x addr n] }) := rfl

@[simp] theorem chipAnswers_length (chip : Collaborator) (history : List ChipTxn) (x : Session) (addr n : Nat) :
    (chipAnswers chip history x addr n).length = n := by simp [chipAnswers]

@[simp] theorem chipAfter_readTxn (x : Session) (addr n : Nat) (chip : Collaborator) (txns : List ChipTxn) :
    chipAfter chip (readTxn x addr n :: txns) = chipAfter chip txns := rfl

@[simp] theorem chipAfter_writeTxn (x : Session) (addr : Nat) (page : List Byte) (chip : Collaborator)
    (txns : List ChipTxn) :
    chipAfter chip (writeTxn x addr page :: txns) = chipAfter (chipTake addr page chip) txns := rfl

theorem chipAfter_append (as bs : List ChipTxn) : ∀ chip,
    chipAfter chip (as ++ bs) = chipAfter (chipAfter chip as) bs := by
  induction as with
  | nil => intro chip; rfl
  | cons a as ih => intro chip; cases a <;> simp [chipAfter, ih]

/-- What a page write does to the known cells: the page's bytes, nothing else (20_memory.md R59). -/
theorem cells_chipTake (addr : Nat) (page : List Byte) (cells : Memory) :
    (chipTake addr page (.reference cells)).cells = Memory.setBytes cells addr page := rfl

theorem wf_cells_chipTake (addr : Nat) (page : List Byte) (chip : Collaborator)
    (h : Memory.wf chip.cells = true) : Memory.wf (chipTake addr page chip).cells = true := by
  cases chip with
  | oracle => exact h
  | reference cells => exact Memory.wf_setBytes _ _ _ h

theorem wf_cells_chipAfter (txns : List ChipTxn) : ∀ chip : Collaborator, Memory.wf chip.cells = true →
    Memory.wf (chipAfter chip txns).cells = true := by
  induction txns with
  | nil => intro chip h; exact h
  | cons a as ih =>
    intro chip h
    cases a with
    | read => exact ih _ h
    | writePage kind width addr page => exact ih _ (wf_cells_chipTake addr page chip h)

/-- `WbPrime(addr)` (43_write_buffer.md R210): WB_BASE is the start of the page, WB holds the chip's bytes up to
`addr`, and one read was issued unless the address is page-aligned. -/
theorem wbPrime_spec (x : Session) (addr : Nat) (s : State) :
    (addr % x.pageSize = 0 ∧ wbPrime x addr s = { s with wb := [], wbBase := addr, wbFill := 0 })
    ∨ (0 < addr % x.pageSize ∧ wbPrime x addr s = { s with
        wb := Memory.ofBytes 0 (chipAnswers s.chip s.chipLog x (addr - addr % x.pageSize) (addr % x.pageSize))
        wbBase := addr - addr % x.pageSize
        wbFill := addr % x.pageSize
        chipLog := s.chipLog ++ [readTxn x (addr - addr % x.pageSize) (addr % x.pageSize)] }) := by
  unfold wbPrime
  by_cases h : addr % x.pageSize = 0
  · left; exact ⟨h, by simp [h]⟩
  · right
    refine ⟨by omega, ?_⟩
    have hk : addr % x.pageSize ≤ 256 :=
      le_trans (le_of_lt (Nat.mod_lt _ x.pageSize_pos)) x.pageSize_le
    simp only [h, if_false, chipRead_eq]
    rw [storeBytes_of_le _ _ _ _ (by simp [wbCap]; omega), Memory.setBytes_nil]

/-- `WbAppend(data)` (43_write_buffer.md R211) on a buffer with the given content. -/
theorem wbAppend_spec (data vs : List Byte) (s : State) (hwb : s.wb = Memory.ofBytes 0 vs)
    (hf : s.wbFill = vs.length) (hcap : vs.length + data.length ≤ wbCap s.par) :
    wbAppend data s = { s with wb := Memory.ofBytes 0 (vs ++ data), wbFill := (vs ++ data).length } := by
  unfold wbAppend
  rw [storeBytes_of_le _ _ _ _ (by rw [hf]; exact hcap), hwb, hf, Memory.setBytes_ofBytes_end]
  simp

/-- One turn of the flush loop (43_write_buffer.md R212) on a buffer that holds a whole page. -/
theorem wbFlushPage_spec (x : Session) (vs : List Byte) (s : State)
    (hwb : s.wb = Memory.ofBytes 0 vs) (hf : s.wbFill = vs.length) (hp : x.pageSize ≤ vs.length) :
    wbFlushPage x s = { s with
      wb := Memory.ofBytes 0 (vs.drop x.pageSize)
      wbBase := s.wbBase + x.pageSize
      wbFill := (vs.drop x.pageSize).length
      chip := chipTake s.wbBase (vs.take x.pageSize) s.chip
      chipLog := s.chipLog ++ [writeTxn x s.wbBase (vs.take x.pageSize)] } := by
  unfold wbFlushPage
  rw [hwb, readBytes_ofBytes _ _ _ _ _ (by omega)]
  simp only [hf, Memory.truncate_ofBytes, Nat.sub_zero, List.take_length, Memory.slideDown_ofBytes_zero,
    chipWritePage, List.drop_zero, List.length_drop]

/-- `WbFlush()`'s loop (43_write_buffer.md R212, R215): every full page goes out, in ascending order, and the rest
stays. -/
theorem wbFlushLoop_spec (x : Session) : ∀ (fuel : Nat) (vs : List Byte) (s : State),
    s.wb = Memory.ofBytes 0 vs → s.wbFill = vs.length → vs.length ≤ fuel →
    wbFlushLoop x fuel s = { s with
      wb := Memory.ofBytes 0 (vs.drop (vs.length / x.pageSize * x.pageSize))
      wbBase := s.wbBase + vs.length / x.pageSize * x.pageSize
      wbFill := vs.length % x.pageSize
      chip := chipAfter s.chip (pageWrites x (vs.length / x.pageSize) s.wbBase vs)
      chipLog := s.chipLog ++ pageWrites x (vs.length / x.pageSize) s.wbBase vs } := by
  intro fuel
  induction fuel with
  | zero =>
    intro vs s hwb hf hfu
    obtain rfl : vs = [] := List.length_eq_zero_iff.1 (by omega)
    cases s
    simp_all [wbFlushLoop, pageWrites, chipAfter]
  | succ fuel ih =>
    intro vs s hwb hf hfu
    have hpos := x.pageSize_pos
    unfold wbFlushLoop
    by_cases hlt : s.wbFill < x.pageSize
    · rw [if_pos hlt]
      rw [hf] at hlt
      have h0 : vs.length / x.pageSize = 0 := Nat.div_eq_of_lt hlt
      have h1 : vs.length % x.pageSize = vs.length := Nat.mod_eq_of_lt hlt
      simp only [h0, h1, Nat.zero_mul, List.drop_zero, Nat.add_zero, pageWrites, chipAfter, List.append_nil]
      rw [← hwb, ← hf]
    · rw [if_neg hlt, wbFlushPage_spec x vs s hwb hf (by omega)]
      have hge : x.pageSize ≤ vs.length := by omega
      have hd : vs.length / x.pageSize = (vs.length - x.pageSize) / x.pageSize + 1 :=
        Nat.div_eq_sub_div hpos hge
      have hm : (vs.length - x.pageSize) % x.pageSize = vs.length % x.pageSize := (Nat.mod_eq_sub_mod hge).symm
      rw [ih (vs.drop x.pageSize) _ rfl rfl (by simp; omega)]
      simp only [List.length_drop, hd, hm, pageWrites, chipAfter_writeTxn, List.drop_drop, List.append_assoc,
        List.singleton_append, Nat.succ_mul]
      rw [Nat.add_comm x.pageSize, Nat.add_assoc, Nat.add_comm x.pageSize]

/-- `WbFlush()` (43_write_buffer.md R212, R215) on a buffer with the given content. -/
theorem wbFlush_spec (x : Session) (vs : List Byte) (s : State)
    (hwb : s.wb = Memory.ofBytes 0 vs) (hf : s.wbFill = vs.length) :
    wbFlush x s = { s with
      wb := Memory.ofBytes 0 (vs.drop (vs.length / x.pageSize * x.pageSize))
      wbBase := s.wbBase + vs.length / x.pageSize * x.pageSize
      wbFill := vs.length % x.pageSize
      chip := chipAfter s.chip (pageWrites x (vs.length / x.pageSize) s.wbBase vs)
      chipLog := s.chipLog ++ pageWrites x (vs.length / x.pageSize) s.wbBase vs } :=
  wbFlushLoop_spec x s.wbFill vs s hwb hf (by omega)

theorem wbFinalise_empty (x : Session) (s : State) (h : s.wbFill = 0) : wbFinalise x s = s := by
  simp [wbFinalise, h]

/-- `WbFinalise()` (43_write_buffer.md R213) on a buffer with a partial page, the tail read from the chip. -/
theorem wbFinalise_preserve (x : Session) (vs : List Byte) (s : State)
    (hwb : s.wb = Memory.ofBytes 0 vs) (hf : s.wbFill = vs.length)
    (h0 : 0 < vs.length) (hp : vs.length < x.pageSize) (ht : s.par.tailFill = .preserve) :
    wbFinalise x s = { s with
      wb := []
      wbFill := 0
      chip := chipTake s.wbBase (vs ++ chipAnswers s.chip s.chipLog x (s.wbBase + vs.length)
        (x.pageSize - vs.length)) s.chip
      chipLog := s.chipLog ++ [readTxn x (s.wbBase + vs.length) (x.pageSize - vs.length),
        writeTxn x s.wbBase (vs ++ chipAnswers s.chip s.chipLog x (s.wbBase + vs.length)
          (x.pageSize - vs.length))] } := by
  have hle := x.pageSize_le
  unfold wbFinalise
  rw [if_neg (by omega)]
  simp only [tailBytes, ht, chipRead_eq, hf, hwb]
  rw [storeBytes_of_le _ _ _ _ (by simp [wbCap]; omega), Memory.setBytes_ofBytes_end,
    readBytes_ofBytes _ _ _ _ _ (by simp; omega)]
  simp only [chipWritePage, List.drop_zero, List.append_assoc, List.cons_append, List.nil_append]
  rw [List.take_of_length_le (by simp; omega)]

/-- `WbFinalise()` (43_write_buffer.md R213) on a buffer with a partial page, the tail a constant. -/
theorem wbFinalise_pad (x : Session) (vs : List Byte) (s : State) (v : Byte)
    (hwb : s.wb = Memory.ofBytes 0 vs) (hf : s.wbFill = vs.length)
    (h0 : 0 < vs.length) (hp : vs.length < x.pageSize) (ht : s.par.tailFill = .pad v) :
    wbFinalise x s = { s with
      wb := []
      wbFill := 0
      chip := chipTake s.wbBase (vs ++ List.replicate (x.pageSize - vs.length) v) s.chip
      chipLog := s.chipLog ++ [writeTxn x s.wbBase (vs ++ List.replicate (x.pageSize - vs.length) v)] } := by
  have hle := x.pageSize_le
  unfold wbFinalise
  rw [if_neg (by omega)]
  simp only [tailBytes, ht, hf, hwb]
  rw [storeBytes_of_le _ _ _ _ (by simp [wbCap]; omega), Memory.setBytes_ofBytes_end,
    readBytes_ofBytes _ _ _ _ _ (by simp; omega)]
  simp only [chipWritePage, List.drop_zero]
  rw [List.take_of_length_le (by simp; omega)]

/-- Bytes stored one run after the other are one run. -/
theorem Memory.setBytes_append (bs cs : List Byte) : ∀ (m : Memory) (a : Nat),
    Memory.setBytes m a (bs ++ cs) = Memory.setBytes (Memory.setBytes m a bs) (a + bs.length) cs := by
  induction bs with
  | nil => intro m a; rfl
  | cons b bs ih =>
    intro m a
    simp only [List.cons_append, Memory.setBytes, List.length_cons, ih]
    congr 1
    omega

/-- The reference collaborator after the pages of a run of page writes: their content, stored from `base` on
(20_memory.md R59, 43_write_buffer.md R212). -/
theorem chipAfter_pageWrites (x : Session) (cells : Memory) : ∀ (q base : Nat) (content : List Byte),
    q * x.pageSize ≤ content.length →
    chipAfter (.reference cells) (pageWrites x q base content)
      = .reference (Memory.setBytes cells base (content.take (q * x.pageSize))) := by
  intro q
  induction q generalizing cells with
  | zero => intro base content _; simp [pageWrites, chipAfter, Memory.setBytes]
  | succ q ih =>
    intro base content h
    have hq : (q + 1) * x.pageSize = x.pageSize + q * x.pageSize := by rw [Nat.succ_mul, Nat.add_comm]
    have hl : (content.take x.pageSize).length = x.pageSize := by simp; omega
    simp only [pageWrites, chipAfter_writeTxn, chipTake]
    rw [ih _ _ _ (by simp; omega), hq, List.take_add, Memory.setBytes_append, hl]

end Sys2Proof.Machine
end

