-- ==== Sys2Proof/Laws/Commands.lean ====
section
/-! SUPPORT. Commands.lean: what each command can answer, and what the operations it calls leave alone. -/

namespace Sys2Proof.Machine

/-- The mode test of the dispatcher, all its cases (42_commands.md R170, R171). -/
theorem admitted_cases {admits : Mode → Bool} {run : State → Outcome} {s : State} {r : Outcome}
    (h : admitted admits run s = r) :
    (s.mode = .invalid ∧ r = .fault .invalidMode)
    ∨ (s.mode ≠ .invalid ∧ admits s.mode = false ∧ r = .next (reject .badMode s))
    ∨ (s.mode ≠ .invalid ∧ admits s.mode = true ∧ run s = r) := by
  unfold admitted at h
  by_cases hm : s.mode = .invalid
  · left; simp [hm] at h; exact ⟨hm, h.symm⟩
  · right
    rw [if_neg hm] at h
    cases ha : admits s.mode with
    | false => left; simp [ha] at h; exact ⟨hm, rfl, h.symm⟩
    | true => right; simp [ha] at h; exact ⟨hm, rfl, h⟩

theorem admitted_of_admits {admits : Mode → Bool} {run : State → Outcome} {s : State}
    (hm : s.mode ≠ .invalid) (ha : admits s.mode = true) : admitted admits run s = run s := by
  simp [admitted, hm, ha]

theorem admitted_of_not_admits {admits : Mode → Bool} {run : State → Outcome} {s : State}
    (hm : s.mode ≠ .invalid) (ha : admits s.mode = false) : admitted admits run s = .next (reject .badMode s) := by
  simp [admitted, hm, ha]

/-- RESET, all it can answer with a next state (42_commands.md R172). -/
theorem execReset_cases {payload : List Byte} {s t : State} (h : execReset payload s = .next t) :
    s.mode ≠ .invalid ∧ t = doReset s := by
  rcases admitted_cases h with ⟨_, h⟩ | ⟨_, h, _⟩ | ⟨hm, _, h⟩
  · simp at h
  · simp at h
  · simp at h; exact ⟨hm, h.symm⟩

/-- INIT, all it can answer with a next state (42_commands.md R173). -/
theorem execInit_cases {payload : List Byte} {s t : State} (h : execInit payload s = .next t) :
    (s.mode ≠ .invalid ∧ s.mode ≠ .waiting ∧ t = reject .badMode s)
    ∨ (s.mode = .waiting ∧ ∃ c, initCheck s.par payload = .error c ∧ t = reject c s)
    ∨ (s.mode = .waiting ∧ ∃ id, initCheck s.par payload = .ok id ∧ t = doInit id s) := by
  rcases admitted_cases h with ⟨_, h⟩ | ⟨hm, ha, h⟩ | ⟨hm, ha, h⟩
  · simp at h
  · left; simp at h ha; exact ⟨hm, ha, h⟩
  · right
    simp at ha
    split at h
    · rename_i c hc; left; simp at h; exact ⟨ha, c, hc, h.symm⟩
    · rename_i id hid; right; simp at h; exact ⟨ha, id, hid, h.symm⟩

/-- READ, all it can answer with a next state (42_commands.md R174). -/
theorem execRead_cases {payload : List Byte} {s t : State} (h : execRead payload s = .next t) :
    (s.mode ≠ .invalid ∧ s.mode ≠ .ready ∧ t = reject .badMode s)
    ∨ (s.mode = .ready ∧ ∃ c, readCheck s.session payload = some c ∧ t = reject c s)
    ∨ (s.mode = .ready ∧ readCheck s.session payload = none ∧ t = doRead s.session payload s) := by
  rcases admitted_cases h with ⟨_, h⟩ | ⟨hm, ha, h⟩ | ⟨hm, ha, h⟩
  · simp at h
  · left; simp at h ha; exact ⟨hm, ha, h⟩
  · right
    simp at ha
    split at h
    · rename_i c hc; left; simp at h; exact ⟨ha, c, hc, h.symm⟩
    · rename_i hc; right; simp at h; exact ⟨ha, hc, h.symm⟩

/-- WRITE, all it can answer with a next state (42_commands.md R175). -/
theorem execWrite_cases {payload : List Byte} {s t : State} (h : execWrite payload s = .next t) :
    (s.mode = .waiting ∧ t = reject .badMode s)
    ∨ ((s.mode = .ready ∨ s.mode = .writing) ∧ ∃ c, writeCheck s.session payload s = some c ∧ t = reject c s)
    ∨ ((s.mode = .ready ∨ s.mode = .writing) ∧ writeCheck s.session payload s = none
        ∧ t = doWrite s.session payload s) := by
  rcases admitted_cases h with ⟨_, h⟩ | ⟨hm, ha, h⟩ | ⟨hm, ha, h⟩
  · simp at h
  · left
    simp at h ha
    refine ⟨?_, h⟩
    cases hs : s.mode <;> simp_all
  · right
    simp at ha
    split at h
    · rename_i c hc; left; simp at h; exact ⟨ha, c, hc, h.symm⟩
    · rename_i hc; right; simp at h; exact ⟨ha, hc, h.symm⟩

/-- DONE, all it can answer with a next state (42_commands.md R178). -/
theorem execDone_cases {payload : List Byte} {s t : State} (h : execDone payload s = .next t) :
    (s.mode ≠ .invalid ∧ s.mode ≠ .writing ∧ t = reject .badMode s)
    ∨ (s.mode = .writing ∧ t = doDone s.session s) := by
  rcases admitted_cases h with ⟨_, h⟩ | ⟨hm, ha, h⟩ | ⟨hm, ha, h⟩
  · simp at h
  · left; simp at h ha; exact ⟨hm, ha, h⟩
  · right
    simp at ha h
    exact ⟨ha, h.symm⟩

/-- UNRECOGNISED, all it can answer with a next state (42_commands.md R179). -/
theorem execUnrecognised_cases {line : BadLine} {s t : State} (h : execUnrecognised line s = .next t) :
    (line = .framing ∨ s.mode ≠ .invalid) ∧ t = reject .unrecognised s := by
  unfold execUnrecognised at h
  split at h
  · simp at h; exact ⟨.inl rfl, h.symm⟩
  · rcases admitted_cases h with ⟨_, h⟩ | ⟨_, h, _⟩ | ⟨hm, _, h⟩
    · simp at h
    · simp at h
    · simp at h; exact ⟨.inr hm, h.symm⟩

/-- All an instruction can answer with a next state: a rejection, or its command's effect after its checks. -/
theorem exec_cases {i : Instr} {s t : State} (h : exec i s = .next t) :
    (∃ c, t = reject c s)
    ∨ (∃ p, i = .reset p ∧ t = doReset s)
    ∨ (∃ p id, i = .init p ∧ s.mode = .waiting ∧ initCheck s.par p = .ok id ∧ t = doInit id s)
    ∨ (∃ p, i = .read p ∧ s.mode = .ready ∧ readCheck s.session p = none ∧ t = doRead s.session p s)
    ∨ (∃ p, i = .write p ∧ (s.mode = .ready ∨ s.mode = .writing) ∧ writeCheck s.session p s = none
        ∧ t = doWrite s.session p s)
    ∨ (∃ p, i = .done p ∧ s.mode = .writing ∧ t = doDone s.session s) := by
  cases i with
  | unrecognised line => exact .inl ⟨_, (execUnrecognised_cases h).2⟩
  | reset p => exact .inr (.inl ⟨p, rfl, (execReset_cases (payload := p) h).2⟩)
  | init p =>
    rcases execInit_cases h with ⟨_, _, e⟩ | ⟨_, c, _, e⟩ | ⟨hm, id, hid, e⟩
    · exact .inl ⟨_, e⟩
    · exact .inl ⟨_, e⟩
    · exact .inr (.inr (.inl ⟨p, id, rfl, hm, hid, e⟩))
  | read p =>
    rcases execRead_cases h with ⟨_, _, e⟩ | ⟨_, c, _, e⟩ | ⟨hm, hc, e⟩
    · exact .inl ⟨_, e⟩
    · exact .inl ⟨_, e⟩
    · exact .inr (.inr (.inr (.inl ⟨p, rfl, hm, hc, e⟩)))
  | write p =>
    rcases execWrite_cases h with ⟨_, e⟩ | ⟨_, c, _, e⟩ | ⟨hm, hc, e⟩
    · exact .inl ⟨_, e⟩
    · exact .inl ⟨_, e⟩
    · exact .inr (.inr (.inr (.inr (.inl ⟨p, rfl, hm, hc, e⟩))))
  | done p =>
    rcases execDone_cases (payload := p) h with ⟨_, _, e⟩ | ⟨hm, e⟩
    · exact .inl ⟨_, e⟩
    · exact .inr (.inr (.inr (.inr (.inr ⟨p, rfl, hm, e⟩))))

/-- What the write-buffer manager may change: WB with its cursors, and the chip by recorded transactions. -/
structure BufferFrame (s t : State) : Prop where
  mode : t.mode = s.mode
  session : t.session = s.session
  lb : t.lb = s.lb
  lbLen : t.lbLen = s.lbLen
  cmd : t.cmd = s.cmd
  dlen : t.dlen = s.dlen
  lbOvf : t.lbOvf = s.lbOvf
  lineInvalid : t.lineInvalid = s.lineInvalid
  phase : t.phase = s.phase
  resp : t.resp = s.resp
  txptr : t.txptr = s.txptr
  suart : t.suart = s.suart
  cfg : t.cfg = s.cfg
  inputs : t.inputs = s.inputs
  steady : t.steady = s.steady
  draws : t.draws = s.draws
  chip : ∃ txns, t.chipLog = s.chipLog ++ txns ∧ t.chip = chipAfter s.chip txns

theorem BufferFrame.refl (s : State) : BufferFrame s s where
  mode := rfl
  session := rfl
  lb := rfl
  lbLen := rfl
  cmd := rfl
  dlen := rfl
  lbOvf := rfl
  lineInvalid := rfl
  phase := rfl
  resp := rfl
  txptr := rfl
  suart := rfl
  cfg := rfl
  inputs := rfl
  steady := rfl
  draws := rfl
  chip := ⟨[], by simp [chipAfter]⟩

theorem BufferFrame.trans {s t u : State} (h : BufferFrame s t) (k : BufferFrame t u) : BufferFrame s u where
  mode := k.mode.trans h.mode
  session := k.session.trans h.session
  lb := k.lb.trans h.lb
  lbLen := k.lbLen.trans h.lbLen
  cmd := k.cmd.trans h.cmd
  dlen := k.dlen.trans h.dlen
  lbOvf := k.lbOvf.trans h.lbOvf
  lineInvalid := k.lineInvalid.trans h.lineInvalid
  phase := k.phase.trans h.phase
  resp := k.resp.trans h.resp
  txptr := k.txptr.trans h.txptr
  suart := k.suart.trans h.suart
  cfg := k.cfg.trans h.cfg
  inputs := k.inputs.trans h.inputs
  steady := k.steady.trans h.steady
  draws := k.draws.trans h.draws
  chip := by
    obtain ⟨as, ha, hca⟩ := h.chip
    obtain ⟨bs, hb, hcb⟩ := k.chip
    exact ⟨as ++ bs, by rw [hb, ha, List.append_assoc], by rw [hcb, hca, chipAfter_append]⟩

/-- A change of WB and its cursors only. -/
theorem BufferFrame.ofBuffer (s : State) (wb : Memory) (wbBase wbFill : Nat) :
    BufferFrame s { s with wb := wb, wbBase := wbBase, wbFill := wbFill } :=
  { BufferFrame.refl s with chip := ⟨[], by simp [chipAfter]⟩ }

theorem BufferFrame.ofRead (s : State) (x : Session) (addr n : Nat) : BufferFrame s (chipRead x addr n s).2 :=
  { BufferFrame.refl s with chip := ⟨[readTxn x addr n], by simp, rfl⟩ }

theorem BufferFrame.ofWrite (s : State) (x : Session) (addr : Nat) (page : List Byte) :
    BufferFrame s (chipWritePage x addr page s) :=
  { BufferFrame.refl s with chip := ⟨[writeTxn x addr page], by simp, rfl⟩ }

theorem wbPrime_frame (x : Session) (addr : Nat) (s : State) : BufferFrame s (wbPrime x addr s) := by
  rcases wbPrime_spec x addr s with ⟨_, e⟩ | ⟨_, e⟩
  · rw [e]; exact BufferFrame.ofBuffer s _ _ _
  · rw [e]; exact (BufferFrame.ofRead s _ _ _).trans (BufferFrame.ofBuffer _ _ _ _)

theorem wbAppend_frame (data : List Byte) (s : State) : BufferFrame s (wbAppend data s) :=
  BufferFrame.ofBuffer s _ s.wbBase _

theorem wbFlushPage_frame (x : Session) (s : State) : BufferFrame s (wbFlushPage x s) :=
  (BufferFrame.ofWrite s _ _ _).trans (BufferFrame.ofBuffer _ _ _ _)

theorem wbFlushLoop_frame (x : Session) : ∀ (fuel : Nat) (s : State), BufferFrame s (wbFlushLoop x fuel s) := by
  intro fuel
  induction fuel with
  | zero => intro s; exact BufferFrame.refl s
  | succ fuel ih =>
    intro s
    unfold wbFlushLoop
    split
    · exact BufferFrame.refl s
    · exact (wbFlushPage_frame x s).trans (ih _)

theorem tailBytes_frame (x : Session) (s : State) : BufferFrame s (tailBytes x s).2 := by
  unfold tailBytes
  split
  · exact BufferFrame.ofRead s _ _ _
  · exact BufferFrame.refl s

theorem wbFinalise_frame (x : Session) (s : State) : BufferFrame s (wbFinalise x s) := by
  unfold wbFinalise
  split
  · exact BufferFrame.refl s
  · exact ((tailBytes_frame x s).trans (BufferFrame.ofWrite _ _ _ _)).trans
      (BufferFrame.ofBuffer _ _ (chipWritePage x s.wbBase _ (tailBytes x s).2).wbBase _)

theorem writePrime_frame (x : Session) (addr : Nat) (s : State) : BufferFrame s (writePrime x addr s) := by
  unfold writePrime
  split
  · exact wbPrime_frame x addr s
  · exact BufferFrame.refl s

theorem writeBuffer_frame (x : Session) (payload : List Byte) (s : State) :
    BufferFrame s (writeBuffer x payload s) :=
  ((writePrime_frame x _ s).trans (wbAppend_frame _ _)).trans (wbFlushLoop_frame x _ _)

/-- READ's effect, when its bytes fit the line buffer (42_commands.md R174). -/
theorem doRead_spec (x : Session) (payload : List Byte) (s : State)
    (hcap : x.addrWidth.toNat + 1 + readLength s.par x payload ≤ lineCap s.par) :
    doRead x payload s = respond
      (plus (readText s.par payload
        (chipAnswers s.chip s.chipLog x (addrOf x payload) (readLength s.par x payload))))
      { s with
        lb := Memory.setBytes s.lb (x.addrWidth.toNat + 1)
          (chipAnswers s.chip s.chipLog x (addrOf x payload) (readLength s.par x payload))
        chipLog := s.chipLog ++ [readTxn x (addrOf x payload) (readLength s.par x payload)] } := by
  unfold doRead
  simp only [chipRead_eq]
  rw [storeBytes_of_le _ _ _ _ (by simpa using hcap)]

/-- READ stages at most N_MAX bytes (42_commands.md R174 step 4). -/
theorem readLength_le (p : Params) (x : Session) (payload : List Byte) : readLength p x payload ≤ p.nMax :=
  Nat.min_le_left _ _

/-- WRITE's buffer work (43_write_buffer.md R210 to R212) with the buffer's content before the append given:
the primed bytes, or what WRITING held. -/
theorem writeBuffer_spec (x : Session) (payload : List Byte) (s s1 : State) (vs : List Byte)
    (h1 : writePrime x (addrOf x payload) s = s1) (hwb : s1.wb = Memory.ofBytes 0 vs) (hf : s1.wbFill = vs.length)
    (hcap : vs.length + (dataBytes x payload).length ≤ wbCap s1.par) :
    writeBuffer x payload s = { s1 with
      wb := Memory.ofBytes 0 ((vs ++ dataBytes x payload).drop
        ((vs ++ dataBytes x payload).length / x.pageSize * x.pageSize))
      wbBase := s1.wbBase + (vs ++ dataBytes x payload).length / x.pageSize * x.pageSize
      wbFill := (vs ++ dataBytes x payload).length % x.pageSize
      chip := chipAfter s1.chip (pageWrites x ((vs ++ dataBytes x payload).length / x.pageSize) s1.wbBase
        (vs ++ dataBytes x payload))
      chipLog := s1.chipLog ++ pageWrites x ((vs ++ dataBytes x payload).length / x.pageSize) s1.wbBase
        (vs ++ dataBytes x payload) } := by
  unfold writeBuffer
  rw [h1, wbAppend_spec _ vs s1 hwb hf hcap]
  exact wbFlush_spec x (vs ++ dataBytes x payload) _ rfl rfl

/-- The number of data bytes of a WRITE (42_commands.md R175 step 2). -/
@[simp] theorem dataBytes_length (x : Session) (payload : List Byte) :
    (dataBytes x payload).length = dataCount x payload := by
  simp [dataBytes, dataCount]

/-- What a WRITE that passes all its checks fulfils (42_commands.md R175 steps 1 to 7). -/
theorem writeCheck_none {s : State} {x : Session} {payload : List Byte} (h : writeCheck x payload s = none) :
    WritePayloadGood s.par x payload ∧ (s.mode = .writing → addrOf x payload = s.wbBase + s.wbFill) := by
  unfold writeCheck at h
  split at h
  · cases h
  split at h
  · cases h
  split at h
  · cases h
  split at h
  · cases h
  rename_i hs
  split at h
  · cases h
  · exact ⟨⟨by omega, by omega, by by_contra hh; contradiction, by omega⟩,
      fun hm => by by_contra hh; exact hs ⟨hm, hh⟩⟩

end Sys2Proof.Machine
end

