-- ==== Sys2Proof/Laws/Framer.lean ====
section
/-! SUPPORT. Framer.lean: what the line reader and the decoder in place do (41_framer.md). -/

namespace Sys2Proof.Machine

/-- One character of `ReadLine()`, all its cases (41_framer.md R141, R143). -/
theorem takeChar_cases (c : Byte) (s : State) :
    (c = lineFeed ∧ takeChar c s = { s with phase := .decode })
    ∨ (c ≠ lineFeed ∧ s.lbLen < lineCap s.par - 1
        ∧ takeChar c s = { s with lb := Memory.set s.lb s.lbLen c, lbLen := s.lbLen + 1 })
    ∨ (c ≠ lineFeed ∧ ¬ s.lbLen < lineCap s.par - 1 ∧ takeChar c s = { s with lbOvf := true }) := by
  unfold takeChar
  split
  · exact .inl ⟨‹_›, rfl⟩
  · split
    · exact .inr (.inl ⟨‹_›, ‹_›, rfl⟩)
    · exact .inr (.inr ⟨‹_›, ‹_›, rfl⟩)

/-- The loop of the decoder in place reads the characters not yet overwritten (41_framer.md R146): with `done`
already decoded bytes at `LB[1 ..]`, it answers what decoding the remaining digits answers. -/
theorem decodeLoop_ofBytes (draw : Nat) (cmd : Byte) : ∀ (k : Nat) (done mid digits : List Byte),
    mid.length = done.length → digits.length = 2 * k →
    (hexPairs digits = none
      ∧ decodeLoop draw k done.length (Memory.ofBytes 0 (cmd :: (done ++ mid ++ digits))) = none)
    ∨ (∃ bs tail, hexPairs digits = some bs
      ∧ decodeLoop draw k done.length (Memory.ofBytes 0 (cmd :: (done ++ mid ++ digits)))
          = some (Memory.ofBytes 0 (cmd :: (done ++ bs ++ tail)))) := by
  intro k
  induction k with
  | zero =>
    intro done mid digits _ hd
    obtain rfl : digits = [] := List.length_eq_zero_iff.1 (by omega)
    exact .inr ⟨[], mid, rfl, by simp [decodeLoop]⟩
  | succ k ih =>
    intro done mid digits hm hd
    match digits, hd with
    | hi :: lo :: rest, hd =>
      have hl : rest.length = 2 * k := by simp at hd; omega
      have ghi : Memory.get (Memory.ofBytes 0 (cmd :: (done ++ mid ++ hi :: lo :: rest))) (1 + 2 * done.length)
          = some hi := by
        rw [Memory.get_ofBytes_zero, show 1 + 2 * done.length = (done ++ mid).length + 1 by simp; omega,
          List.getElem?_cons_succ, List.getElem?_append_right (le_refl _)]
        simp
      have glo : Memory.get (Memory.ofBytes 0 (cmd :: (done ++ mid ++ hi :: lo :: rest))) (2 + 2 * done.length)
          = some lo := by
        rw [Memory.get_ofBytes_zero, show 2 + 2 * done.length = ((done ++ mid).length + 1) + 1 by simp; omega,
          List.getElem?_cons_succ, List.getElem?_append_right (by omega)]
        simp
      simp only [decodeLoop, readByte_of_get _ _ ghi, readByte_of_get _ _ glo]
      cases hp : hexPair hi lo with
      | none => left; exact ⟨by simp [hexPairs, hp], rfl⟩
      | some b =>
        obtain ⟨mid', hml, hset⟩ : ∃ mid' : List Byte, mid'.length = done.length + 1 ∧
            Memory.set (Memory.ofBytes 0 (cmd :: (done ++ mid ++ hi :: lo :: rest))) (1 + done.length) b
              = Memory.ofBytes 0 (cmd :: ((done ++ [b]) ++ mid' ++ rest)) := by
          refine ⟨(mid ++ [hi, lo]).tail, by simp; omega, ?_⟩
          rw [Memory.set_ofBytes _ 0 _ _ (by omega) (by simp; omega)]
          congr 1
          have e1 : 1 + done.length - 0 = done.length + 1 := by omega
          rw [e1, List.take_succ_cons, List.drop_succ_cons]
          have e2 : (mid ++ hi :: lo :: rest).drop 1 = (mid ++ [hi, lo]).tail ++ rest := by
            cases mid <;> simp
          simp only [List.append_assoc, List.take_left', List.cons_append]
          rw [List.drop_append, List.drop_eq_nil_of_le (by omega), List.nil_append,
            show done.length + 1 - done.length = 1 by omega, e2]
          simp
        simp only [hset]
        have hlen : done.length + 1 = (done ++ [b]).length := by simp
        rw [hlen]
        rcases ih (done ++ [b]) mid' rest (by simp [hml]) hl with ⟨hn, he⟩ | ⟨bs, tail, hs, he⟩
        · left; exact ⟨by simp [hexPairs, hp, hn], he⟩
        · right
          refine ⟨b :: bs, tail, by simp [hexPairs, hp, hs], ?_⟩
          rw [he]
          simp

/-- `DecodeLine()` on a line of characters, all its cases (41_framer.md R144 to R147). -/
theorem decodeLine_spec (s : State) (line : List Byte) (hlb : s.lb = Memory.ofBytes 0 line)
    (hlen : s.lbLen = line.length) :
    ((s.lbOvf = true ∨ line.length % 2 = 0) ∧ decodeLine s = markInvalid s)
    ∨ (∃ cmd digits, s.lbOvf = false ∧ line = cmd :: digits ∧ digits.length % 2 = 0 ∧
        ((hexPairs digits = none
            ∧ decodeLine s = markInvalid { s with cmd := cmd, dlen := digits.length / 2 })
        ∨ (∃ bs, hexPairs digits = some bs ∧ decodeLine s = { s with
              lineInvalid := false, cmd := cmd, dlen := bs.length, lb := Memory.ofBytes 0 (cmd :: bs) }))) := by
  unfold decodeLine
  by_cases ho : s.lbOvf = true
  · left; exact ⟨.inl ho, by simp [ho]⟩
  simp only [Bool.not_eq_true] at ho
  by_cases he : line.length % 2 = 0
  · left; exact ⟨.inr he, by simp [ho, hlen, he]⟩
  right
  match line, hlb, hlen, he with
  | [], _, _, he => simp at he
  | cmd :: digits, hlb, hlen, he =>
    have hd : digits.length % 2 = 0 := by simp at he; omega
    refine ⟨cmd, digits, ho, rfl, hd, ?_⟩
    have hk : (s.lbLen - 1) / 2 = digits.length / 2 := by rw [hlen]; simp
    have h0 : readByte .line s.draws (Memory.ofBytes 0 (cmd :: digits)) 0 = cmd :=
      readByte_of_get _ _ (by simp)
    simp only [ho, Bool.false_eq_true, if_false, hlen, he, decodeDigits, clearInvalid, hlb, h0]
    have hn1 : (cmd :: digits).length - 1 = digits.length := by simp
    rw [hn1]
    have hloop := decodeLoop_ofBytes s.draws cmd (digits.length / 2) [] [] digits rfl (by omega)
    simp only [List.nil_append, List.length_nil] at hloop
    rcases hloop with ⟨hn, hl⟩ | ⟨bs, tail, hs, hl⟩
    · left; exact ⟨hn, by rw [hl]; rfl⟩
    · right
      have hbl := hexPairs_length _ _ hs
      have hb2 : digits.length / 2 = bs.length := by omega
      refine ⟨bs, hs, ?_⟩
      rw [hl]
      simp only [hb2, Memory.truncate_ofBytes]
      simp

/-- What the dispatcher fetches after a successful decode (42_commands.md R170). -/
theorem fetchInstr_ofBytes (s : State) (cmd : Byte) (bs : List Byte) (hv : s.lineInvalid = false)
    (hc : s.cmd = cmd) (hd : s.dlen = bs.length) (hlb : s.lb = Memory.ofBytes 0 (cmd :: bs)) :
    fetchInstr s = selectCommand cmd bs := by
  unfold fetchInstr
  rw [hv, hlb, hd, readBytes_ofBytes _ _ _ _ _ (by simp; omega), hc]
  simp

theorem fetchInstr_invalid (s : State) (h : s.lineInvalid = true) :
    fetchInstr s = .unrecognised .framing := by
  simp [fetchInstr, h]

/-- The decoder writes LINE_INVALID, CMD, DLEN and LB only (41_framer.md R144). -/
theorem decodeLine_frame (s : State) : decodeLine s = { s with
    lineInvalid := (decodeLine s).lineInvalid, cmd := (decodeLine s).cmd, dlen := (decodeLine s).dlen,
    lb := (decodeLine s).lb } := by
  unfold decodeLine
  split
  · rfl
  split
  · rfl
  · unfold decodeDigits
    dsimp only
    split <;> rfl

end Sys2Proof.Machine
end

