-- ==== Sys2Proof/Laws/PerInstr.lean ====
section
/-! SUPPORT. PerInstr.lean: the lemmas made per instruction: the line of a well-formed instruction holds no LF, so
that its stream ends where the line does (30_encoding.md R73, R91). -/

namespace Sys2Proof.Laws.EncodeHasNoLineFeed

/-- The encoding of the instruction, if a line spells it, holds no LF. -/
def Statement (i : Instr) : Prop := ∀ p : Params, i.wellFormed p = true → lineFeed ∉ encode i

theorem encodeCommand_noLineFeed (c : Byte) (payload : List Byte) (h : c ≠ lineFeed) :
    lineFeed ∉ encodeCommand c payload := by
  simp only [encodeCommand, List.mem_cons, not_or]
  exact ⟨h.symm, lineFeed_not_mem_hexText true payload⟩

theorem reset (payload : List Byte) : Statement (.reset payload) :=
  fun _ _ => encodeCommand_noLineFeed _ payload (by decide)

theorem init (payload : List Byte) : Statement (.init payload) :=
  fun _ _ => encodeCommand_noLineFeed _ payload (by decide)

theorem read (payload : List Byte) : Statement (.read payload) :=
  fun _ _ => encodeCommand_noLineFeed _ payload (by decide)

theorem write (payload : List Byte) : Statement (.write payload) :=
  fun _ _ => encodeCommand_noLineFeed _ payload (by decide)

theorem done (payload : List Byte) : Statement (.done payload) :=
  fun _ _ => encodeCommand_noLineFeed _ payload (by decide)

theorem unrecognised (line : BadLine) : Statement (.unrecognised line) := by
  intro p h
  cases line with
  | framing => simp [encode]
  | command c payload =>
    refine encodeCommand_noLineFeed c payload ?_
    rintro rfl
    simp [Instr.wellFormed, Instr.illFormed] at h

end Sys2Proof.Laws.EncodeHasNoLineFeed
end

