-- ==== Sys2Proof/Laws/Step.lean ====
section
/-! SUPPORT. Step.lean: all a step can do (41_framer.md R140, 70_reset_and_hazards.md R270). -/

namespace Sys2Proof.Machine

/-- One step that goes on is one of these: `rst`, a cycle of SUART, a held edge, or ENGINE's turn. -/
theorem step_cases {s t : State} (h : step s = .next t) :
    (s.edge.rst = true ∧ t = rstEdge s)
    ∨ (s.edge.rst = false ∧ s.suart.uphase = .tx ∧ t = txCycle s.tick)
    ∨ (s.edge.rst = false ∧ s.suart.uphase = .rxWait ∧ t = rxPollCycle s.edge.rxd s.tick)
    ∨ (s.edge.rst = false ∧ s.suart.uphase = .rxFrame ∧ t = rxCycle s.edge.rxd s.tick)
    ∨ (s.edge.rst = false ∧ s.suart.uphase = .idle ∧ s.edge.hold = true ∧ t = s.tick)
    ∨ (s.edge.rst = false ∧ s.suart.uphase = .idle ∧ s.edge.hold = false ∧ engineTurn s.turn = .next t) := by
  unfold step at h
  cases hr : s.edge.rst with
  | true => left; simp [hr] at h; exact ⟨rfl, h.symm⟩
  | false =>
    right
    simp only [hr, Bool.false_eq_true, if_false] at h
    unfold runEdge at h
    cases hu : s.suart.uphase with
    | tx => left; simp [hu] at h; exact ⟨rfl, rfl, h.symm⟩
    | rxWait => right; left; simp [hu] at h; exact ⟨rfl, rfl, h.symm⟩
    | rxFrame => right; right; left; simp [hu] at h; exact ⟨rfl, rfl, h.symm⟩
    | idle =>
      right; right; right
      simp only [hu] at h
      cases hh : s.edge.hold with
      | true => left; simp [hh] at h; exact ⟨rfl, rfl, rfl, h.symm⟩
      | false => right; simp [hh] at h; exact ⟨rfl, rfl, rfl, h⟩

/-- ENGINE's turn, by PHASE (41_framer.md R140). -/
theorem engineTurn_cases {s t : State} (h : engineTurn s = .next t) :
    (s.phase = .banner ∧ t = sendBanner s)
    ∨ (s.phase = .rxLine ∧ t = beginReceive s)
    ∨ (s.phase = .decode ∧ t = decodePhase s)
    ∨ (s.phase = .exec ∧ ∃ u, exec (fetchInstr s) s = .next u ∧ t = { u with phase := .respond })
    ∨ (s.phase = .respond ∧ t = sendNext s) := by
  unfold engineTurn at h
  cases hp : s.phase with
  | banner => simp [hp] at h; simp [h]
  | rxLine => simp [hp] at h; simp [h]
  | respond => simp [hp] at h; simp [h]
  | decode => simp [hp] at h; simp [h]
  | exec =>
    simp only [hp, execPhase] at h
    cases he : exec (fetchInstr s) s with
    | next u => simp [he, leaveExec] at h; simp [h]
    | fault f => simp [he, leaveExec] at h
    | refused r => simp [he, leaveExec] at h

/-- One cycle of a transmit call (40_softuart.md R112). -/
theorem txCycle_cases (s : State) :
    (1 < s.suart.preLeft ∧ txCycle s = { s with suart := { s.suart with preLeft := s.suart.preLeft - 1 } })
    ∨ (s.suart.preLeft = 1 ∧ txCycle s = { s with suart := startBits s.par (currentChar s) s.suart })
    ∨ (s.suart.preLeft = 0 ∧ (tickDelay s.par s.suart).dly ≠ 0
        ∧ txCycle s = { s with suart := tickDelay s.par s.suart })
    ∨ (s.suart.preLeft = 0 ∧ (tickDelay s.par s.suart).dly = 0 ∧ 1 < s.suart.bitcnt
        ∧ txCycle s = { s with suart := txNextBit s.par (tickDelay s.par s.suart) })
    ∨ (s.suart.preLeft = 0 ∧ (tickDelay s.par s.suart).dly = 0 ∧ s.suart.bitcnt ≤ 1
        ∧ txCycle s = { s with suart := endFrame (tickDelay s.par s.suart), txptr := s.txptr + 1 }) := by
  unfold txCycle
  split
  · rename_i h1; exact .inl ⟨h1, rfl⟩
  · right
    split
    · rename_i h1; exact .inl ⟨h1, rfl⟩
    · right
      have h0 : s.suart.preLeft = 0 := by omega
      dsimp only
      split
      · rename_i hd; exact .inl ⟨h0, hd, rfl⟩
      · rename_i hd
        have hd0 : (tickDelay s.par s.suart).dly = 0 := by simpa using hd
        right
        split
        · rename_i hb; exact .inl ⟨h0, hd0, by simpa using hb, rfl⟩
        · rename_i hb; exact .inr ⟨h0, hd0, by simpa using hb, rfl⟩

/-- The character being sent, where the response has one at TXPTR. -/
theorem currentChar_eq {s : State} {b : Byte} (h : s.resp[s.txptr]? = some b) : currentChar s = b := by
  simp [currentChar, h]

/-- One cycle of a receive frame (40_softuart.md R120). -/
theorem rxCycle_cases (rxd : Bool) (s : State) :
    ((tickDelay s.par s.suart).dly ≠ 0 ∧ rxCycle rxd s = { s with suart := tickDelay s.par s.suart })
    ∨ ((tickDelay s.par s.suart).dly = 0 ∧ 1 < s.suart.bitcnt
        ∧ rxCycle rxd s = { s with suart := rxNextBit s.par rxd (tickDelay s.par s.suart) })
    ∨ ((tickDelay s.par s.suart).dly = 0 ∧ s.suart.bitcnt ≤ 1
        ∧ rxCycle rxd s = takeChar s.suart.rxsr { s with suart := endFrame (tickDelay s.par s.suart) }) := by
  unfold rxCycle
  dsimp only
  split
  · left; exact ⟨‹_›, rfl⟩
  · rename_i hd
    have hd0 : (tickDelay s.par s.suart).dly = 0 := by simpa using hd
    right
    split
    · rename_i hb; left; exact ⟨hd0, by simpa using hb, rfl⟩
    · rename_i hb; right; exact ⟨hd0, by simpa using hb, by simp⟩

theorem State.edge_eq (s : State) : s.edge = edgeAt s 0 := by
  unfold State.edge edgeAt; cases s.inputs <;> rfl

/-- A step without `rst` or hold, with SUART idle, is ENGINE's turn. -/
theorem step_engine {s : State} (hr : s.edge.rst = false) (hh : s.edge.hold = false)
    (hu : s.suart.uphase = .idle) : step s = engineTurn s.turn := by
  simp [step, hr, runEdge, hu, hh]

/-- At a held edge ENGINE waits: the edge passes and nothing else changes. -/
theorem step_held {s : State} (hr : s.edge.rst = false) (hh : s.edge.hold = true)
    (hu : s.suart.uphase = .idle) : step s = .next s.tick := by
  simp [step, hr, runEdge, hu, hh]

/-- The machine's step is `step`. -/
theorem core_step (s : State) : Sys2Proof.core.step s = step s := rfl

/-- `k + 1` steps are one step and then `k`. -/
theorem run_succ (k : Nat) (s t : State) (h : step s = .next t) :
    Host.Core.run Sys2Proof.core (k + 1) s = Host.Core.run Sys2Proof.core k t := by
  have hs : Sys2Proof.core.step s = .next t := h
  simp only [Host.Core.run, hs]

/-- A run that goes on began with a step that goes on. -/
theorem run_succ_cases {k : Nat} {s t : State} (h : Host.Core.run Sys2Proof.core (k + 1) s = .next t) :
    ∃ u : State, step s = .next u ∧ Host.Core.run Sys2Proof.core k u = .next t := by
  cases hs : step s with
  | next u => exact ⟨u, rfl, by rw [← run_succ k s u hs]; exact h⟩
  | fault f =>
    have hs' : Sys2Proof.core.step s = .fault f := hs
    simp only [Host.Core.run, hs'] at h
    cases h
  | refused r =>
    have hs' : Sys2Proof.core.step s = .refused r := hs
    simp only [Host.Core.run, hs'] at h
    cases h

/-- The accesses issued by the time `rst` comes, where the command in P_EXEC would complete. -/
theorem issuedByEngine_of_exec {s u : State} (hp : s.phase = .exec) (hu : s.suart.uphase = .idle)
    (he : exec (fetchInstr s) s = .next u) :
    issuedByEngine s = (u.chipLog.drop s.chipLog.length).take s.edge.issued := by
  simp [issuedByEngine, hp, hu, execPhase, he, leaveExec]

/-- Held edges pass one after the other and change nothing else. -/
theorem run_held : ∀ (n : Nat) (s : State), s.suart.uphase = .idle →
    (∀ k, k < n → (edgeAt s k).rst = false ∧ (edgeAt s k).hold = true) →
    Host.Core.run Sys2Proof.core n s = .next { s with inputs := s.inputs.drop n } := by
  intro n
  induction n with
  | zero => intro s _ _; rfl
  | succ n ih =>
    intro s hu hk
    have h0 := hk 0 (by omega)
    rw [← State.edge_eq] at h0
    rw [run_succ n s _ (step_held h0.1 h0.2 hu), ih s.tick (by simpa using hu)]
    · simp [State.tick]
    · intro k hkn
      have e : edgeAt s.tick k = edgeAt s (k + 1) := by
        simp [edgeAt, State.tick, List.getD_eq_getElem?_getD]
      rw [e]; exact hk (k + 1) (by omega)

/-- Runs are put end to end. -/
theorem run_add (j k : Nat) : ∀ s t : State, Host.Core.run Sys2Proof.core j s = .next t →
    Host.Core.run Sys2Proof.core (j + k) s = Host.Core.run Sys2Proof.core k t := by
  induction j with
  | zero => intro s t h; cases h; rw [Nat.zero_add]
  | succ j ih =>
    intro s t h
    obtain ⟨u, hs, hu⟩ := run_succ_cases h
    rw [show j + 1 + k = (j + k) + 1 by omega, run_succ (j + k) s u hs]
    exact ih u t hu

/-- What holds at a state and is kept by every step holds at every state a run reaches. -/
theorem run_invariant {P : State → Prop} (hstep : ∀ s t, P s → step s = .next t → P t) (k : Nat) :
    ∀ s t : State, P s → Host.Core.run Sys2Proof.core k s = .next t → P t := by
  induction k with
  | zero => intro s t hp h; cases h; exact hp
  | succ k ih =>
    intro s t hp h
    obtain ⟨u, hs, hu⟩ := run_succ_cases h
    exact ih u t (hstep s u hp hs) hu

end Sys2Proof.Machine
end

