-- ==== Sys2Proof/Laws/Waits.lean ====
section
/-! SUPPORT. Waits.lean: what the edges of a wait of SUART do, for a transmit and for a receive frame
(40_softuart.md R112, R120, R128). -/

namespace Sys2Proof.Machine

/-- A state with its inputs and SUART replaced. -/
def State.put (s : State) (es : List Edge) (u : Suart) : State := { s with inputs := es, suart := u }

@[simp] theorem put_inputs (s : State) (es : List Edge) (u : Suart) : (s.put es u).inputs = es := rfl
@[simp] theorem put_suart (s : State) (es : List Edge) (u : Suart) : (s.put es u).suart = u := rfl
@[simp] theorem put_par (s : State) (es : List Edge) (u : Suart) : (s.put es u).par = s.par := rfl
@[simp] theorem put_cfg (s : State) (es : List Edge) (u : Suart) : (s.put es u).cfg = s.cfg := rfl
@[simp] theorem put_resp (s : State) (es : List Edge) (u : Suart) : (s.put es u).resp = s.resp := rfl
@[simp] theorem put_txptr (s : State) (es : List Edge) (u : Suart) : (s.put es u).txptr = s.txptr := rfl
@[simp] theorem put_put (s : State) (es fs : List Edge) (u v : Suart) : (s.put es u).put fs v = s.put fs v := rfl

@[simp] theorem put_steady (s : State) (es : List Edge) (u : Suart) : (s.put es u).steady = s.steady := rfl

theorem edgeAt_put_drop (s : State) (j k : Nat) (u : Suart) :
    edgeAt (s.put (s.inputs.drop j) u) k = edgeAt s (j + k) := by
  simp [edgeAt, List.getD_eq_getElem?_getD, List.getElem?_drop]

theorem edgeAt_put_tail (s : State) (k : Nat) (u : Suart) :
    edgeAt (s.put s.inputs.tail u) k = edgeAt s (k + 1) := by
  rw [← List.drop_one, edgeAt_put_drop, Nat.add_comm]

theorem noReset_edge {s : State} {n : Nat} (h : noReset s (n + 1)) : s.edge.rst = false := by
  rw [State.edge_eq]; exact h 0 (by omega)

theorem noReset_put_drop {s : State} {n : Nat} (h : noReset s n) (j m : Nat) (u : Suart) (hm : j + m ≤ n) :
    noReset (s.put (s.inputs.drop j) u) m := by
  intro k hk; rw [edgeAt_put_drop]; exact h _ (by omega)

theorem noReset_put_tail {s : State} {n : Nat} (h : noReset s (n + 1)) (u : Suart) :
    noReset (s.put s.inputs.tail u) n := by
  intro k hk; rw [edgeAt_put_tail]; exact h _ (by omega)

/-- SUART with its delay counter replaced. -/
def Suart.delayed (u : Suart) (d : BitVec 8) (e : Nat) : Suart := { u with dly := d, dlySub := e }

@[simp] theorem delayed_uphase (u : Suart) (d : BitVec 8) (e : Nat) : (u.delayed d e).uphase = u.uphase := rfl
@[simp] theorem delayed_preLeft (u : Suart) (d : BitVec 8) (e : Nat) : (u.delayed d e).preLeft = u.preLeft := rfl
@[simp] theorem delayed_bitcnt (u : Suart) (d : BitVec 8) (e : Nat) : (u.delayed d e).bitcnt = u.bitcnt := rfl
@[simp] theorem delayed_txsr (u : Suart) (d : BitVec 8) (e : Nat) : (u.delayed d e).txsr = u.txsr := rfl
@[simp] theorem delayed_rxsr (u : Suart) (d : BitVec 8) (e : Nat) : (u.delayed d e).rxsr = u.rxsr := rfl
@[simp] theorem delayed_crit (u : Suart) (d : BitVec 8) (e : Nat) : (u.delayed d e).crit = u.crit := rfl
@[simp] theorem delayed_txd (u : Suart) (d : BitVec 8) (e : Nat) : (u.delayed d e).txd = u.txd := rfl
@[simp] theorem delayed_delayed (u : Suart) (d d' : BitVec 8) (e e' : Nat) :
    (u.delayed d e).delayed d' e' = u.delayed d' e' := rfl

theorem tickDelay_delayed (p : Params) (u : Suart) : ∃ d e, tickDelay p u = u.delayed d e := by
  unfold tickDelay
  split
  · exact ⟨_, _, rfl⟩
  · split <;> exact ⟨_, _, rfl⟩

/-- What the last edge of a wait of the transmit frame does: the next bit period, or the end (40_softuart.md R112). -/
def txWaitEnd (s : State) : State :=
  if 1 < s.suart.bitcnt then { s with suart := txNextBit s.par (s.suart.delayed 0 0) }
  else { s with suart := endFrame s.suart, txptr := s.txptr + 1 }

theorem txWaitEnd_delayed (s : State) (es : List Edge) (u : Suart) (d : BitVec 8) (e : Nat) :
    txWaitEnd (s.put es (u.delayed d e)) = txWaitEnd (s.put es u) := rfl

theorem step_tx {s : State} (hr : s.edge.rst = false) (hu : s.suart.uphase = .tx) :
    step s = .next (txCycle s.tick) := by
  simp [step, hr, runEdge, hu]

/-- A wait of the transmit frame with `c` cycles left: only the delay counter moves, until its last edge. -/
theorem run_txWait : ∀ (c : Nat) (s : State), s.suart.uphase = .tx → s.suart.preLeft = 0 →
    Waiting s.par s.suart → cyclesLeft s.par s.suart = c → noReset s c →
    (∀ j, j < c → ∃ d e, Host.Core.run Sys2Proof.core j s = .next (s.put (s.inputs.drop j) (s.suart.delayed d e)))
    ∧ Host.Core.run Sys2Proof.core c s = .next (txWaitEnd (s.put (s.inputs.drop c) s.suart)) := by
  intro c
  induction c with
  | zero => intro s _ _ hw hc; unfold cyclesLeft at hc; have := hw.subPos; omega
  | succ c ih =>
    intro s hu hp hw hc hn
    have hr := noReset_edge hn
    have hstep := step_tx hr hu
    obtain ⟨d, e, hde⟩ : ∃ d e, tickDelay s.par s.suart = s.suart.delayed d e := tickDelay_delayed _ _
    rcases tickDelay_spec hw with ⟨h1, h2, h3⟩ | ⟨h1, h2⟩
    · have htx : txCycle s.tick = s.put s.inputs.tail (s.suart.delayed d e) := by
        unfold txCycle
        simp only [tick_suart, hp, tick_par, hde]
        rw [hde] at h2
        have := h2.counting
        rw [if_neg (by omega), if_neg (by omega), if_pos (by simpa using this)]; rfl
      rw [htx] at hstep
      rw [hde] at h2 h3
      obtain ⟨k1, k2⟩ := ih (s.put s.inputs.tail (s.suart.delayed d e))
        (by simp [hu]) (by simp [hp]) (by simpa using h2) (by simp; omega)
        (noReset_put_tail hn _)
      refine ⟨?_, ?_⟩
      · intro j hj
        cases j with
        | zero => exact ⟨_, _, rfl⟩
        | succ j =>
          obtain ⟨d', e', hk⟩ := k1 j (by omega)
          refine ⟨d', e', ?_⟩
          rw [run_succ j s _ hstep]
          rw [hk]
          simp
      · rw [run_succ c s _ hstep]
        rw [k2]
        simp [txWaitEnd_delayed]
    · have htx : txCycle s.tick = txWaitEnd (s.put s.inputs.tail s.suart) := by
        unfold txCycle
        simp only [tick_suart, hp, tick_par]
        rw [if_neg (by omega), if_neg (by omega)]
        simp only [h2]
        by_cases hb : 1 < s.suart.bitcnt
        · rw [if_neg (by simp), if_pos (by exact hb)]; unfold txWaitEnd; rw [if_pos (by exact hb)]; rfl
        · rw [if_neg (by simp), if_neg (by exact hb)]; unfold txWaitEnd; rw [if_neg (by exact hb)]; rfl
      have hc0 : c = 0 := by omega
      subst hc0
      rw [htx] at hstep
      refine ⟨?_, ?_⟩
      · intro j hj
        obtain rfl : j = 0 := by omega
        exact ⟨_, _, rfl⟩
      · rw [run_succ 0 s _ hstep]
        simp [Host.Core.run]

/-- What the last edge of a wait of the receive frame does: a sample and the next wait, or the byte is handed over
(40_softuart.md R120). -/
def rxWaitEnd (rxd : Bool) (s : State) : State :=
  if 1 < s.suart.bitcnt then { s with suart := rxNextBit s.par rxd (s.suart.delayed 0 0) }
  else takeChar s.suart.rxsr { s with suart := endFrame s.suart }

theorem rxWaitEnd_delayed (rxd : Bool) (s : State) (es : List Edge) (u : Suart) (d : BitVec 8) (e : Nat) :
    rxWaitEnd rxd (s.put es (u.delayed d e)) = rxWaitEnd rxd (s.put es u) := rfl

theorem step_rx {s : State} (hr : s.edge.rst = false) (hu : s.suart.uphase = .rxFrame) :
    step s = .next (rxCycle s.edge.rxd s.tick) := by
  simp [step, hr, runEdge, hu]

/-- A wait of the receive frame with `c` cycles left: only the delay counter moves, until its last edge, whose level
is the one sampled. -/
theorem run_rxWait : ∀ (c : Nat) (s : State), s.suart.uphase = .rxFrame → Waiting s.par s.suart →
    cyclesLeft s.par s.suart = c → noReset s c →
    (∀ j, j < c → ∃ d e, Host.Core.run Sys2Proof.core j s = .next (s.put (s.inputs.drop j) (s.suart.delayed d e)))
    ∧ Host.Core.run Sys2Proof.core c s
      = .next (rxWaitEnd (edgeAt s (c - 1)).rxd (s.put (s.inputs.drop c) s.suart)) := by
  intro c
  induction c with
  | zero => intro s _ hw hc; unfold cyclesLeft at hc; have := hw.subPos; omega
  | succ c ih =>
    intro s hu hw hc hn
    have hr := noReset_edge hn
    have hstep := step_rx hr hu
    obtain ⟨d, e, hde⟩ : ∃ d e, tickDelay s.par s.suart = s.suart.delayed d e := tickDelay_delayed _ _
    rcases tickDelay_spec hw with ⟨h1, h2, h3⟩ | ⟨h1, h2⟩
    · have htx : rxCycle s.edge.rxd s.tick = s.put s.inputs.tail (s.suart.delayed d e) := by
        unfold rxCycle
        simp only [tick_suart, tick_par, hde]
        rw [hde] at h2
        have := h2.counting
        rw [if_pos (by simpa using this)]; rfl
      rw [htx] at hstep
      rw [hde] at h2 h3
      obtain ⟨k1, k2⟩ := ih (s.put s.inputs.tail (s.suart.delayed d e))
        (by simp [hu]) (by simpa using h2) (by simp; omega)
        (noReset_put_tail hn _)
      refine ⟨?_, ?_⟩
      · intro j hj
        cases j with
        | zero => exact ⟨_, _, rfl⟩
        | succ j =>
          obtain ⟨d', e', hk⟩ := k1 j (by omega)
          refine ⟨d', e', ?_⟩
          rw [run_succ j s _ hstep]
          rw [hk]
          simp
      · rw [run_succ c s _ hstep]
        rw [k2]
        have hc1 : 1 ≤ c := by omega
        rw [edgeAt_put_tail, show c - 1 + 1 = c + 1 - 1 by omega]
        simp only [put_inputs, put_put]
        simp [rxWaitEnd_delayed]
    · have hc0 : c = 0 := by omega
      subst hc0
      have htx : rxCycle s.edge.rxd s.tick = rxWaitEnd (edgeAt s 0).rxd (s.put s.inputs.tail s.suart) := by
        rw [← State.edge_eq]
        unfold rxCycle
        simp only [tick_suart, tick_par]
        simp only [h2]
        by_cases hb : 1 < s.suart.bitcnt
        · rw [if_neg (by simp), if_pos (by exact hb)]; unfold rxWaitEnd; rw [if_pos (by exact hb)]; rfl
        · rw [if_neg (by simp), if_neg (by exact hb)]; unfold rxWaitEnd; rw [if_neg (by exact hb)]; rfl
      rw [htx] at hstep
      refine ⟨?_, ?_⟩
      · intro j hj
        obtain rfl : j = 0 := by omega
        exact ⟨_, _, rfl⟩
      · rw [run_succ 0 s _ hstep]
        simp [Host.Core.run]

end Sys2Proof.Machine
end

