-- ==== Sys2Proof/Tests/Slice0.lean ====
section
/-! SUPPORT. Slice0.lean: the model's own tests, each with expected values from 95_test_vectors.md or worked out by
hand from the rules, and for each statement a state and operands that meet its hypotheses. -/

namespace Sys2Proof.Tests

open Sys2Proof Sys2Proof.Machine

/-! ## Helpers -/

/-- The next state of an outcome, if it is one. -/
def nextOf : Outcome → Option State
  | .next s => some s
  | .fault _ => none
  | .refused _ => none

/-- What an instruction answers, seen through one field of the next state. -/
def after {α : Type} (view : State → α) (o : Outcome) : Option α := (nextOf o).map view

/-- A success line, from the text after its `+`. -/
def okLine (cs : List Char) : List Byte := 0x2B#8 :: chars cs ++ [lineFeed]

/-- A rejection line, from the text after its `-`. -/
def noLine (cs : List Char) : List Byte := 0x2D#8 :: chars cs ++ [lineFeed]

/-- The session of line `i1190`: SPI, page size 4, capacity 16, address width 1. -/
def small : Session := { ifkind := .spi, pageExp := 1, capExp := 3, addrWidth := 1 }

/-- The chip of 95_test_vectors.md V9 and P2: `M[a] = 0xA0 + a`. -/
def chipA : Memory := Memory.ofBytes 0 [0xA0#8, 0xA1#8, 0xA2#8, 0xA3#8, 0xA4#8, 0xA5#8, 0xA6#8, 0xA7#8,
  0xA8#8, 0xA9#8, 0xAA#8, 0xAB#8, 0xAC#8, 0xAD#8, 0xAE#8, 0xAF#8]

/-- READY with a session and a chip. -/
def ready (x : Session) (cells : Memory) : State :=
  { State.reset with mode := .ready, session := x, chip := .reference cells }

/-- WRITING with buffered bytes at a base. -/
def writing (x : Session) (base : Nat) (vs : List Byte) (cells : Memory) : State :=
  { ready x cells with mode := .writing, wb := Memory.ofBytes 0 vs, wbBase := base, wbFill := vs.length }

/-- The third row of V9: WRITING, base 4, content 33 44 55. -/
def row3 : State := writing small 4 [0x33#8, 0x44#8, 0x55#8] chipA

/-- The state with the fields an instance of parameters fixes. -/
def withParams (p : Params) (h : p.legal = true) (s : State) : State := { s with cfg := ⟨p, h⟩ }

/-- An instance whose widest address has three bytes. -/
def narrow : Params := { Params.defaults with aMax := 3 }

/-- An instance that completes pages with 0xFF. -/
def padding : Params := { Params.defaults with tailFill := .pad 0xFF#8 }

/-- An instance on one wire. -/
def oneWire : Params := { Params.defaults with singleWire := true }

/-- A line received, in P_DECODE. -/
def received (line : List Byte) (s : State) : State :=
  { s with phase := .decode, lb := Memory.ofBytes 0 line, lbLen := line.length }

/-- A line decoded, in P_EXEC. -/
def decoded (cmd : Byte) (payload : List Byte) (s : State) : State :=
  { s with phase := .exec, cmd := cmd, dlen := payload.length, lb := Memory.ofBytes 0 (cmd :: payload) }

/-- Row 3 with the line of DONE received, where decoding takes its edge, one edge holds ENGINE in P_EXEC, and `rst`
comes after one access. -/
def cutShort : State :=
  { received [0x64#8] row3 with
    inputs := [{ Edge.quiet with passes := true }, { Edge.quiet with hold := true },
      { Edge.quiet with rst := true, issued := 1 }] }

/-! ## WellFormed refuses -/

theorem test_wellFormed_longest : (Instr.write (List.replicate 25 0)).wellFormed Params.defaults = true := by decide

theorem test_illFormed_payload :
    (Instr.read (List.replicate 26 0)).illFormed Params.defaults = some .payloadTooLong := by decide

theorem test_illFormed_recognised :
    (Instr.unrecognised (.command 0x69#8 [])).illFormed Params.defaults = some .commandIsRecognised := by decide

theorem test_illFormed_lineFeed :
    (Instr.unrecognised (.command 0x0A#8 [])).illFormed Params.defaults = some .commandIsLineFeed := by decide

/-! ## Decoding: lines of V4, V8, V9 written out -/

theorem test_decode_reset : decode Params.defaults [0x21#8, 0x30#8, 0x30#8] = .reset [0x00#8] := by decide

theorem test_decode_init :
    decode Params.defaults [0x69#8, 0x35#8, 0x37#8, 0x32#8, 0x30#8] = .init [0x57#8, 0x20#8] := by decide

theorem test_decode_read : decode Params.defaults [0x72#8, 0x30#8, 0x66#8] = .read [0x0F#8] := by decide

theorem test_decode_write :
    decode Params.defaults [0x77#8, 0x30#8, 0x32#8, 0x31#8, 0x31#8, 0x32#8, 0x32#8, 0x33#8, 0x33#8,
        0x30#8, 0x30#8, 0x36#8, 0x38#8]
      = .write [0x02#8, 0x11#8, 0x22#8, 0x33#8, 0x00#8, 0x68#8] := by decide

theorem test_decode_done : decode Params.defaults [0x64#8] = .done [] := by decide

theorem test_decode_wrongCase : decode Params.defaults [0x49#8] = .unrecognised (.command 0x49#8 []) := by decide

theorem test_decode_evenCount : decode Params.defaults [0x21#8, 0x30#8] = .unrecognised .framing := by decide

theorem test_decode_nonHex : decode Params.defaults [0x72#8, 0x30#8, 0x67#8] = .unrecognised .framing := by decide

theorem test_decode_longest :
    decode Params.defaults (0x69#8 :: List.replicate 50 0x30#8) = .init (List.replicate 25 0) := by decide

theorem test_decode_tooLong :
    decode Params.defaults (0x69#8 :: List.replicate 52 0x30#8) = .unrecognised .framing := by decide

/-! ## The rows of the opcode table, first in the decoder, then as the first instruction after reset -/

theorem test_table_reset : decodeTableWord 8 0x21 = some (.reset []) := by decide

theorem test_table_init : decodeTableWord 8 0x69 = some (.init [0x00#8, 0x00#8]) := by decide

theorem test_table_read : decodeTableWord 8 0x72 = some (.read []) := by decide

theorem test_table_write : decodeTableWord 8 0x77 = some (.write []) := by decide

theorem test_table_done : decodeTableWord 8 0x64 = some (.done []) := by decide

theorem test_table_unrecognised : decodeTableWord 8 0x78 = some (.unrecognised (.command 0x78#8 [])) := by decide

theorem test_fetch_reset : after State.resp (step (State.reset.withFetchWord 8 0x21))
    = some (okLine ['e', 'e', 'p', 'r', 'o', 'g']) := by decide

theorem test_fetch_init : after State.mode (step (State.reset.withFetchWord 8 0x69)) = some .ready := by decide

theorem test_fetch_done : after State.resp (step (State.reset.withFetchWord 8 0x64))
    = some (noLine ['C', 'o', 'm', 'm', 'a', 'n', 'd', ' ', 'i', 'n', 'v', 'a', 'l', 'i', 'd', ' ', 'f', 'o', 'r',
      ' ', 'm', 'o', 'd', 'e', '.']) := by decide

/-! ## Codecs: V3, V5 -/

theorem test_hexValue : [0x39#8, 0x41#8, 0x66#8, 0x47#8, 0x2F#8, 0x3A#8, 0x40#8, 0x60#8, 0xB0#8].map hexValue
    = [some 9, some 10, some 15, none, none, none, none, none, none] := by decide

theorem test_hexText : hexText true [0x00#8, 0x7F#8, 0xA5#8, 0xFF#8]
    = chars ['0', '0', '7', 'F', 'A', '5', 'F', 'F'] := by decide

theorem test_dec : [0, 2, 256, 33554432].map dec
    = [chars ['0'], chars ['2'], chars ['2', '5', '6'], chars ['3', '3', '5', '5', '4', '4', '3', '2']] := by decide

theorem test_checksum : checksum [0x0F#8, 0xFF#8] = 0x010E#16
    ∧ checksumBytes 0x010E#16 = [0x01#8, 0x0E#8] := by decide

/-! ## The commands: V6, V8, V9, V10, P2 -/

theorem test_reset_drops : after (fun s => (s.mode, s.wbFill, s.wb, s.chip)) (exec (.reset [0x00#8]) row3)
    = some (.waiting, 0, [], .reference chipA) := by decide

theorem test_init_5720 : after State.resp (exec (.init [0x57#8, 0x20#8]) State.reset)
    = some (okLine ['S', 'P', 'I', ' ', '2', '5', '6', 'K', 'b', ',', ' ', '6', '4', ' ', 'b', 'y', 't', 'e', ' ',
      'p', 'a', 'g', 'e', '.']) := by decide

theorem test_init_FFF0 :
    (after State.session (exec (.init [0xFF#8, 0xF0#8]) State.reset)).map
        (fun x => (x.ifkind, x.pageSize, x.capacity, x.addrWidth))
      = some (.i2c, 256, 4294967296, 7) := by decide

theorem test_read_end : after (fun s => (s.resp, s.chipLog))
      (exec (.read [0x0F#8]) (ready { small with pageExp := 0 } [(15, 0xFF#8)]))
    = some (okLine ['0', 'F', 'F', 'F', '0', '1', '0', 'E'], [.read .spi 1 15 1]) := by decide

theorem test_read_7FF8 : after State.resp (exec (.read [0x7F#8, 0xF8#8])
      (ready { ifkind := .spi, pageExp := 5, capExp := 14, addrWidth := 2 }
        (Memory.ofBytes 32760 [0xCB#8, 0xD2#8, 0xD9#8, 0xE0#8, 0xE7#8, 0xEE#8, 0xF5#8, 0xFC#8])))
    = some (okLine ['7', 'F', 'F', '8', 'C', 'B', 'D', '2', 'D', '9', 'E', '0', 'E', '7', 'E', 'E', 'F', '5', 'F', 'C',
      '0', '8', '9', '3']) := by decide

theorem test_write_row1 :
    let outcome := exec (.write [0x02#8, 0x11#8, 0x22#8, 0x33#8, 0x00#8, 0x68#8]) (ready small chipA)
    after (fun s => (s.mode, s.wbBase, s.wbFill)) outcome = some (.writing, 4, 1)
    ∧ after State.wb outcome = some [(0, 0x33#8)]
    ∧ after State.chipLog outcome
        = some [.read .spi 1 0 2, .writePage .spi 1 0 [0xA0#8, 0xA1#8, 0x11#8, 0x22#8]] := by decide

theorem test_write_row3 : after State.resp (exec (.write [0x08#8, 0x66#8, 0x00#8, 0x6E#8]) row3)
    = some (noLine ['D', 'a', 't', 'a', ' ', 'i', 's', ' ', 'n', 'o', 't', ' ', 's', 'e', 'q', 'u', 'e', 'n', 't', 'i',
      'a', 'l', '.']) := by decide

theorem test_done_preserves : after (fun s => (s.mode, s.wbFill, s.chipLog)) (exec (.done []) row3)
    = some (.ready, 0, [.read .spi 1 7 1, .writePage .spi 1 4 [0x33#8, 0x44#8, 0x55#8, 0xA7#8]]) := by decide

theorem test_done_pads : after State.chipLog (exec (.done []) (withParams padding (by decide) row3))
    = some [.writePage .spi 1 4 [0x33#8, 0x44#8, 0x55#8, 0xFF#8]] := by decide

theorem test_unrecognised : after State.resp (exec (.unrecognised (.command 0x78#8 [0x00#8])) row3)
    = some (noLine ['U', 'n', 'r', 'e', 'c', 'o', 'g', 'n', 'i', 's', 'e', 'd', ' ', 'c', 'o', 'm', 'm', 'a', 'n', 'd',
      '.']) := by decide

/-! ## SUART and `rst`: V1, V2, 40_softuart.md R120, 70_reset_and_hazards.md R270 -/

theorem test_frame_plus : (List.range 10).map (txFrame 0x2B#8).getLsbD
    = [false, true, true, false, true, false, true, false, false, true] := by decide

/-- The poll reads 0: the frame starts, CRIT is 1, and `wait(T_HALF)` begins (V2). -/
theorem test_poll_start : after (fun s => (s.suart.uphase, s.suart.crit, s.suart.dly))
      (step { State.reset with
        phase := .rxLine
        suart := { Suart.reset Params.defaults with uphase := .rxWait }
        inputs := [{ Edge.quiet with rxd := false }] })
    = some (.rxFrame, true, 4#8) := by decide

/-- The wait before data bit 7 ends with the line at 1: bit 7 is set, and one wait is left (R120). -/
theorem test_sample_bit7 : after (fun s => (s.suart.rxsr, s.suart.bitcnt, s.suart.dly))
      (step { State.reset with
        phase := .rxLine
        suart := { Suart.reset Params.defaults with
          uphase := .rxFrame, crit := true, rxsr := 0x69#8, bitcnt := 2, dly := 1, dlySub := 1 } })
    = some (0xE9#8, 1, 8#8) := by decide

/-- DONE decoded at an edge that passes with it, one edge of the chip access, then `rst` after the read and before the
page write: the block is reset, the chip is not written. -/
theorem test_rst_in_exec :
    let outcome := Host.Core.run Sys2Proof.core 3 cutShort
    after (fun s => (s.phase, s.mode, s.wbFill)) outcome = some (.banner, .waiting, 0)
    ∧ after (fun s => (s.chip, s.chipLog)) outcome = some (.reference chipA, [.read .spi 1 7 1]) := by decide

/-- A chip access that never returns (20_memory.md R49): ENGINE makes no step, however many edges pass; `rst` ends it.
-/
theorem test_never_returns :
    let s : State := { decoded 0x64#8 [] row3 with steady := { Edge.quiet with hold := true } }
    nextOf (Host.Core.run Sys2Proof.core 3 s) = some s
    ∧ after State.phase (step { s with inputs := [{ Edge.quiet with rst := true }] }) = some .banner := by decide

/-! ## Witnesses: for each statement with hypotheses, a state and operands that meet them -/

/-- The address of row 3's next byte, with the data that fills the page (V9 row 6). -/
def row6 : List Byte := [0x07#8, 0x66#8, 0x00#8, 0x6D#8]

/-- DONE received and decoded in row 3: a WRITING state in P_EXEC that meets the invariant. -/
def doneInRow3 : State := decoded 0x64#8 [] row3

theorem witness_inv : Inv doneInRow3 ∧ doneInRow3.mode = .writing ∧ doneInRow3.wbFill = 3 := by
  refine ⟨⟨⟨by decide, by decide⟩, ⟨by decide, by decide, ?_, by decide⟩,
    ⟨by decide, by decide, by decide, by decide, by decide, by decide, by decide, by decide⟩,
    ⟨by decide, by decide, by decide, by decide, ?_, by decide, by decide⟩⟩, rfl, rfl⟩
  · exact fun _ => ⟨by decide, by decide, by decide, by decide⟩
  · intro h
    cases h

theorem witness_inv_waiting : Inv (received [0x64#8] State.reset) := by
  refine ⟨⟨by decide, by decide⟩, ⟨by decide, by decide, ?_, by decide⟩,
    ⟨by decide, by decide, by decide, by decide, by decide, by decide, by decide, by decide⟩,
    ⟨by decide, by decide, by decide, by decide, ?_, by decide, by decide⟩⟩
  · intro h
    cases h
  · intro h
    cases h

theorem witness_BufferInv : BufferInv row3 ∧ row3.session = small
    ∧ after accepted (exec (.write row6) row3) = some true := by
  refine ⟨⟨by decide, by decide, ?_, by decide⟩, by decide, by decide⟩
  exact fun _ => ⟨by decide, by decide, by decide, by decide⟩

theorem witness_DecodeEncodeAgree :
    (Instr.reset []).wellFormed Params.defaults = true
    ∧ (Instr.init [0xFF#8, 0xF0#8]).wellFormed Params.defaults = true
    ∧ (Instr.read (List.replicate 25 0xFF#8)).wellFormed Params.defaults = true
    ∧ (Instr.write (List.replicate 25 0x80#8)).wellFormed narrow = false
    ∧ (Instr.write (List.replicate 21 0x80#8)).wellFormed narrow = true
    ∧ (Instr.done [0x00#8]).wellFormed Params.defaults = true
    ∧ (Instr.unrecognised .framing).wellFormed Params.defaults = true
    ∧ (Instr.unrecognised (.command 0x00#8 [])).wellFormed Params.defaults = true := by decide

theorem witness_LineSpellsItsInstruction :
    lineFeed ∉ [0x72#8, 0x30#8, 0x66#8]
    ∧ decode Params.defaults [0x72#8, 0x30#8, 0x66#8] ≠ .unrecognised .framing := by decide

theorem witness_ReadResponseParsesAsWrite :
    ([0x0F#8] : List Byte).length = small.addrWidth.toNat
    ∧ ([] : List Byte).length = { small with addrWidth := 0 }.addrWidth.toNat := by decide

theorem witness_ChecksumSeesOneByte :
    small.addrWidth.toNat + 2 ≤ row6.length ∧ checksum (checkedBytes small row6) = checksumField row6
    ∧ 0 < row6.length ∧ row6[0]? ≠ some 0x08#8 ∧ 3 < row6.length ∧ row6[3]? ≠ some 0x6E#8 := by decide

theorem witness_DecimalTextIsTheNumber : (33554432 : Nat) ≠ 0 ∧ 0x30#8 ∈ dec 10 := by decide

theorem witness_LineReaderStoresCharacters :
    lineFeed ∉ List.replicate 51 0x30#8 ∧ lineFeed ∉ List.replicate 52 0x30#8
    ∧ (enterRxLine row3).lb = [] ∧ (enterRxLine row3).lbLen = 0 ∧ (enterRxLine row3).lbOvf = false := by decide

/-- An empty line, and one of the greatest length. -/
theorem witness_InPlaceDecoderAgrees :
    (received [] row3).lb = Memory.ofBytes 0 [] ∧ (received [] row3).lbLen < lineCap (received [] row3).par
    ∧ (received (List.replicate 51 0x30#8) row3).lbLen = (List.replicate 51 0x30#8 : List Byte).length
    ∧ (received (List.replicate 51 0x30#8) row3).lbLen < lineCap row3.par := by decide

theorem witness_StepRunsTheFetchedInstruction :
    doneInRow3.phase = .exec ∧ doneInRow3.suart.uphase = .idle ∧ doneInRow3.edge.rst = false
    ∧ doneInRow3.edge.hold = false ∧ fetchInstr doneInRow3 = .done [] := ⟨rfl, rfl, rfl, rfl, rfl⟩

theorem witness_ReceivedLineIsRun :
    let s := received [0x72#8, 0x30#8, 0x66#8] (ready small chipA)
    s.phase = .decode ∧ s.suart.uphase = .idle ∧ s.edge.rst = false ∧ s.edge.hold = false
    ∧ s.lb = Memory.ofBytes 0 [0x72#8, 0x30#8, 0x66#8] ∧ s.lbLen = 3 ∧ s.lbLen < lineCap s.par
    ∧ s.lbOvf = false ∧ (nextOf (step s)).map (fun t => (t.edge.rst, t.edge.hold)) = some (false, false) := by decide

theorem witness_CommandIsCutShortByRst :
    cutShort.phase = .decode ∧ cutShort.suart.uphase = .idle ∧ cutShort.lb = Memory.ofBytes 0 [0x64#8]
    ∧ cutShort.lbLen = 1 ∧ cutShort.lbLen < lineCap cutShort.par ∧ cutShort.lbOvf = false
    ∧ (edgeAt cutShort 0).rst = false ∧ (edgeAt cutShort 0).hold = false ∧ (edgeAt cutShort 0).passes = true
    ∧ (∀ k, 1 ≤ k → k ≤ 1 → (edgeAt cutShort k).rst = false ∧ (edgeAt cutShort k).hold = true)
    ∧ (edgeAt cutShort (1 + 1)).rst = true
    ∧ (nextOf (Host.Core.run Sys2Proof.core (1 + 1) cutShort)).bind
        (fun t => after (fun u => u.chipLog.length) (exec (.done []) t)) = some 2 := by
  refine ⟨rfl, rfl, rfl, rfl, by decide, rfl, rfl, rfl, rfl, ?_, rfl, by decide⟩
  intro k h1 h2
  obtain rfl : k = 1 := by omega
  decide

theorem witness_HeldEdgeOnlyPasses :
    let s : State := { doneInRow3 with steady := { Edge.quiet with hold := true } }
    s.suart.uphase = .idle ∧ s.edge.rst = false ∧ s.edge.hold = true ∧ s.inputs = [] ∧ s.steady.rst = false
    ∧ s.steady.hold = true := by decide

theorem witness_ModeFollowsTheTable :
    row3.mode ≠ .invalid ∧ admits (.read []) row3.mode = false ∧ admits (.init []) row3.mode = false
    ∧ admits (.done []) State.reset.mode = false ∧ admits (.write []) State.reset.mode = false
    ∧ after accepted (exec (.done []) row3) = some true
    ∧ after accepted (exec (.write row6) row3) = some true := by decide

theorem witness_InvalidModeFaultsAndIsNeverWritten :
    { row3 with mode := .invalid }.mode = .invalid ∧ Instr.reset [] ≠ .unrecognised .framing
    ∧ row3.mode ≠ .invalid ∧ after State.mode (step doneInRow3) = some .ready := by decide

/-- For RejectionsArePrecise, EachCommandRaisesItsCauses, EveryCommandLeavesOneLine and CommandsKeepTheFramer. -/
theorem witness_Rejections :
    after rejected (exec (.init [0x57#8, 0x2F#8]) State.reset) = some true
    ∧ after rejected (exec (.read []) (ready small chipA)) = some true
    ∧ after rejected (exec (.write [0x07#8, 0x66#8, 0x00#8, 0x00#8]) row3) = some true
    ∧ after rejected (exec (.done []) State.reset) = some true
    ∧ after rejected (exec (.unrecognised .framing) row3) = some true := by decide

theorem witness_ResponsesFitTheirCapacity :
    Inv doneInRow3 ∧ after accepted (exec (.done []) doneInRow3) = some true := ⟨witness_inv.1, by decide⟩

theorem witness_CommandsKeepOtherBytes :
    after State.mode (exec (.reset []) row3) = some .waiting
    ∧ after State.mode (exec (.init [0x11#8, 0x90#8]) State.reset) = some .ready
    ∧ after State.mode (exec (.unrecognised .framing) row3) = some .writing
    ∧ after accepted (exec (.read [0x0F#8]) (ready small chipA)) = some true
    ∧ after accepted (exec (.write row6) row3) = some true
    ∧ after accepted (exec (.done []) row3) = some true
    ∧ row3.session = small ∧ row3.wbBase = 4 := by decide

theorem witness_ResetCommandCompletes : State.reset.mode ≠ .invalid ∧ row3.mode ≠ .invalid := by decide

theorem witness_InitLoadsTheIdentifier :
    State.reset.mode = .waiting ∧ 1 < 2 ∧ 7 < 8 ∧ 31 < 32 ∧ 7 ≤ State.reset.par.aMax
    ∧ 0 ≤ State.reset.par.aMax := by decide

theorem witness_InitRejects :
    ([0x57#8] : List Byte).length ≠ 2 ∧ (0x2F#8).toNat % 16 ≠ 0
    ∧ (0xF0#8).toNat % 16 = 0
    ∧ (withParams narrow (by decide) State.reset).par.aMax < (0xF0#8).toNat / 16 % 8
    ∧ (withParams narrow (by decide) State.reset).mode = .waiting := by decide

/-- The last address, and the empty address. -/
theorem witness_ReadAnswersFromTheChip :
    let narrowest : Session := { small with addrWidth := 0 }
    (ready small chipA).mode = .ready ∧ (ready small chipA).session = small
    ∧ small.addrWidth.toNat ≤ (ready small chipA).par.aMax
    ∧ ([0x0F#8] : List Byte).length = small.addrWidth.toNat ∧ be [0x0F#8] < small.capacity
    ∧ (ready narrowest chipA).session = narrowest
    ∧ ([] : List Byte).length = narrowest.addrWidth.toNat ∧ be [] < narrowest.capacity := by decide

theorem witness_ReadRejects :
    (ready small chipA).mode = .ready ∧ (ready small chipA).session = small
    ∧ ([] : List Byte).length ≠ small.addrWidth.toNat
    ∧ ([0x10#8] : List Byte).length = small.addrWidth.toNat ∧ small.capacity ≤ be [0x10#8] := by decide

/-- V9 row 1 (mid-page), and row 9 (ends at the capacity). -/
theorem witness_WriteInReadyOpensTransaction :
    (ready small chipA).mode = .ready ∧ (ready small chipA).session = small
    ∧ WritePayloadGood (ready small chipA).par small [0x02#8, 0x11#8, 0x22#8, 0x33#8, 0x00#8, 0x68#8]
    ∧ WritePayloadGood (ready small chipA).par small [0x0F#8, 0x77#8, 0x00#8, 0x86#8] :=
  ⟨rfl, rfl, ⟨by decide, by decide, by decide, by decide⟩, ⟨by decide, by decide, by decide, by decide⟩⟩

theorem witness_WriteInWritingContinues :
    row3.mode = .writing ∧ row3.session = small ∧ row3.wbBase = 4
    ∧ row3.wb = Memory.ofBytes 0 [0x33#8, 0x44#8, 0x55#8] ∧ row3.wbFill = 3 ∧ 3 < small.pageSize
    ∧ WritePayloadGood row3.par small row6 ∧ addrOf small row6 = 4 + 3 :=
  ⟨rfl, rfl, rfl, rfl, rfl, by decide, ⟨by decide, by decide, by decide, by decide⟩, by decide⟩

/-- V9 rows 13, 14, 5, 3 and 12, clause by clause. -/
theorem witness_WriteRejects :
    ([0x0E#8, 0x0E#8] : List Byte).length < small.addrWidth.toNat + 3
    ∧ small.addrWidth.toNat + 2 + row3.par.nMax < (List.replicate 20 0x00#8 : List Byte).length
    ∧ checksum (checkedBytes small [0x07#8, 0x66#8, 0x00#8, 0x00#8])
        ≠ checksumField [0x07#8, 0x66#8, 0x00#8, 0x00#8]
    ∧ checksum (checkedBytes small [0x08#8, 0x66#8, 0x00#8, 0x6E#8])
        = checksumField [0x08#8, 0x66#8, 0x00#8, 0x6E#8]
    ∧ addrOf small [0x08#8, 0x66#8, 0x00#8, 0x6E#8] ≠ 4 + row3.wbFill
    ∧ checksum (checkedBytes small [0x0E#8, 0x77#8, 0x88#8, 0x99#8, 0x01#8, 0xA6#8])
        = checksumField [0x0E#8, 0x77#8, 0x88#8, 0x99#8, 0x01#8, 0xA6#8]
    ∧ small.capacity < addrOf small [0x0E#8, 0x77#8, 0x88#8, 0x99#8, 0x01#8, 0xA6#8]
        + dataCount small [0x0E#8, 0x77#8, 0x88#8, 0x99#8, 0x01#8, 0xA6#8] := by decide

/-- After V9 row 6 the next WRITE goes on at address 8. -/
theorem witness_RunningAddress :
    (nextOf (exec (.write row6) row3)).bind
      (fun t => after accepted (exec (.write [0x08#8, 0x66#8, 0x00#8, 0x6E#8]) t)) = some true := by decide

theorem witness_DoneWritesThePartialPage :
    (writing small 8 [] chipA).wbFill = 0 ∧ (writing small 8 [] chipA).mode = .writing
    ∧ row3.wbBase = 4 ∧ row3.wb = Memory.ofBytes 0 [0x33#8, 0x44#8, 0x55#8] ∧ row3.wbFill = 3 ∧ 0 < 3
    ∧ 3 < small.pageSize ∧ row3.par.tailFill = .preserve
    ∧ (withParams padding (by decide) row3).par.tailFill = .pad 0xFF#8 := by decide

theorem witness_UnrecognisedIsRejected :
    (markInvalid row3).lineInvalid = true
    ∧ (decoded 0x78#8 [0x00#8] row3).lineInvalid = false
    ∧ (decoded 0x78#8 [0x00#8] row3).cmd ∉ [0x21#8, 0x69#8, 0x72#8, 0x77#8, 0x64#8]
    ∧ (decoded 0x78#8 [0x00#8] row3).mode ≠ .invalid := by decide

theorem witness_ChipAccessesAreLegal :
    Inv doneInRow3 ∧ after (fun t => t.chipLog.length) (exec (.done []) doneInRow3) = some 2 :=
  ⟨witness_inv.1, by decide⟩

theorem witness_ChipIsReachedByAcceptedTransfersOnly :
    after State.phase (step (received [0x64#8] row3)) = some .exec ∧ (received [0x64#8] row3).phase ≠ .exec
    ∧ after State.chipLog (exec (.done []) row3) ≠ some row3.chipLog := by decide

theorem witness_TransactionChangesExactlyItsBytes :
    (ready small chipA).mode = .ready ∧ (ready small chipA).session = small
    ∧ WritePayloadGood (ready small chipA).par small [0x02#8, 0x11#8, 0x22#8, 0x33#8, 0x00#8, 0x68#8]
    ∧ (ready small chipA).par.tailFill = .preserve ∧ (ready small chipA).chip = .reference chipA :=
  ⟨rfl, rfl, ⟨by decide, by decide, by decide, by decide⟩, rfl, rfl⟩

/-- A response of one character and LF, about to be sent. -/
def responding : State := { respond [0x2B#8] State.reset with phase := .respond }

theorem witness_TransmitHoldsEachLevel :
    responding.suart.uphase = .idle ∧ responding.phase = .respond ∧ responding.resp[responding.txptr]? = some 0x2B#8
    ∧ responding.edge.rst = false ∧ responding.edge.hold = false
    ∧ noReset responding.turn (responding.par.txPre + 10 * responding.par.tTx) :=
  ⟨rfl, rfl, rfl, rfl, rfl, fun _ _ => rfl⟩

theorem witness_FrameLevels : 0 < 8 ∧ 7 < 8 := by decide

/-- Polling, with the start edge at the coming edge. -/
def polling : State :=
  { State.reset with
    phase := .rxLine
    suart := { Suart.reset Params.defaults with uphase := .rxWait }
    inputs := [{ Edge.quiet with rxd := false }] }

theorem witness_ReceiveSamplesMidBit :
    polling.suart.uphase = .rxWait ∧ (edgeAt polling 0).rxd = false
    ∧ noReset polling (polling.par.tHalf + 9 * polling.par.tRx + 1) := by
  refine ⟨rfl, rfl, fun k _ => ?_⟩
  cases k <;> rfl

/-- On one wire, at the end of the response before. -/
def listening : State :=
  { withParams oneWire (by decide) State.reset with
    phase := .rxLine, suart := { Suart.reset oneWire with txdOe := true } }

theorem witness_PollWaitsForTheStartEdge :
    polling.suart.uphase = .rxWait ∧ polling.edge.rst = false ∧ polling.edge.rxd = false
    ∧ { polling with inputs := [] }.edge.rxd = true
    ∧ listening.phase = .rxLine ∧ listening.suart.uphase = .idle ∧ listening.edge.rst = false
    ∧ listening.edge.hold = false ∧ listening.par.singleWire = true
    ∧ after (fun t => (t.suart.uphase, t.suart.txdOe)) (step listening) = some (.rxWait, false) := by decide

theorem witness_RxdHasNoOtherEffect :
    responding.suart.uphase ≠ .rxWait ∧ ¬ atSamplePoint responding
    ∧ { responding with inputs := [{ Edge.quiet with rxd := false }], steady := Edge.quiet }.edge
        = { responding.edge with rxd := false } :=
  ⟨by decide, fun h => absurd h.1 (by decide), rfl⟩

theorem witness_WholeLineIsSentThenReading :
    responding.suart.uphase = .idle ∧ responding.phase = .respond ∧ responding.txptr = 0 ∧ responding.resp.length = 2
    ∧ noDelay responding (2 * (responding.par.txPre + 10 * responding.par.tTx) + 1)
    ∧ { responding with phase := .banner }.phase = .banner ∧ responding.resp ≠ [] :=
  ⟨rfl, rfl, rfl, rfl, fun _ _ => ⟨rfl, rfl, rfl⟩, rfl, by decide⟩

/-- A silent host: the banner is sent at once. -/
theorem witness_BannerFollowsReset : noDelay State.reset 1 := fun _ _ => ⟨rfl, rfl, rfl⟩

theorem witness_RstActsAtAnyEdge :
    let s : State := { doneInRow3 with inputs := [{ Edge.quiet with rst := true, issued := 1 }] }
    s.edge.rst = true ∧ s.phase = .exec ∧ s.suart.uphase = .idle ∧ fetchInstr s = .done []
    ∧ after State.mode (exec (.done []) s) = some .ready ∧ { row3 with inputs := s.inputs }.phase ≠ .exec :=
  ⟨rfl, rfl, rfl, rfl, by decide, by decide⟩

theorem witness_PhasesFollowInOrder :
    Inv doneInRow3 ∧ doneInRow3.edge.rst = false ∧ after State.phase (step doneInRow3) = some .respond :=
  ⟨witness_inv.1, by decide, by decide⟩

theorem witness_SessionIsNotReadInWaiting : State.reset.mode = .waiting := by decide

theorem witness_InstanceIsConstant : after State.phase (step State.reset) = some .banner := by decide

theorem witness_ResetMeetsTheInvariant :
    Memory.wf Collaborator.oracle.cells = true ∧ Memory.wf (Collaborator.reference chipA).cells = true := by decide

theorem witness_StepKeepsTheInvariant :
    Inv doneInRow3 ∧ after State.mode (step doneInRow3) = some .ready := ⟨witness_inv.1, by decide⟩

theorem witness_OnlyInvalidModeStops :
    doneInRow3.mode ≠ .invalid ∧ State.reset.mode ≠ .invalid
    ∧ step { doneInRow3 with mode := .invalid } = .fault .invalidMode := ⟨by decide, by decide, rfl⟩

end Sys2Proof.Tests
end

section
/-! The transmit frame's bits and its counter (40_softuart.md R113). -/

namespace Sys2Proof.Machine

/-- Settles O38: the first bit period loads the frame of the byte, whose levels are `txFrame_start`, `txFrame_stop`
and `txFrame_data`; a further period changes BITCNT and leaves TXSR, by the field lemmas of the two operations. -/
theorem frameLevels : Obligations.FrameLevels := by
  unfold Obligations.FrameLevels
  intro p b u
  rw [startBits_txsr]
  exact ⟨txFrame_start b, txFrame_stop b, txFrame_data b,
    startBits_bitcnt p b u, txNextBit_bitcnt p u, txNextBit_txsr p u⟩

end Sys2Proof.Machine
end

section
/-! The unrecognised line: what is fetched and how it is answered (42_commands.md R170, R179). -/

namespace Sys2Proof.Machine

/-- A well-framed line whose first character is none of the five commands' is fetched as that unknown command, with
the payload the decoder left in LB (30_encoding.md R84). -/
theorem fetchInstr_other (s : State) (hv : s.lineInvalid = false)
    (hc : s.cmd ∉ [0x21#8, 0x69#8, 0x72#8, 0x77#8, 0x64#8]) :
    fetchInstr s = .unrecognised (.command s.cmd (readBytes .line s.draws s.lb 1 s.dlen)) := by
  have hother : commandCharacters.contains s.cmd = false := by simpa [commandCharacters] using hc
  simp [fetchInstr, hv, selectCommand_other _ _ hother]

/-- A framing error is rejected in every mode, MODE 3 included. -/
theorem exec_unrecognised_framing (s : State) :
    exec (.unrecognised .framing) s = .next (reject .unrecognised s) := rfl

/-- An unknown command passes the invalid-mode guard in a legal mode, and is then rejected. -/
theorem exec_unrecognised_command (c : Byte) (payload : List Byte) (s : State) (hm : s.mode ≠ .invalid) :
    exec (.unrecognised (.command c payload)) s = .next (reject .unrecognised s) :=
  admitted_of_admits (admits := fun _ => true) (run := fun s => .next (reject .unrecognised s)) hm rfl

/-- The whole state after E_UNRECOGNISED (60_exceptions.md R231, R233): the staged message, and nothing else. -/
theorem reject_unrecognised_eq (s : State) :
    reject .unrecognised s = { s with
      resp := 0x2D#8 :: s.par.msgUnrecognised ++ [lineFeed], txptr := 0 } := rfl

/-- Settles O33: each of the two kinds of line is fetched as an unrecognised instruction, and both are answered by
the one rejection, whose whole state is `reject_unrecognised_eq`. -/
theorem unrecognisedIsRejected : Obligations.UnrecognisedIsRejected := by
  unfold Obligations.UnrecognisedIsRejected
  constructor
  · intro s hinvalid
    rw [exec_unrecognised_framing, reject_unrecognised_eq]
    exact ⟨fetchInstr_invalid s hinvalid, rfl⟩
  · intro s hvalid hcmd hmode
    refine ⟨readBytes .line s.draws s.lb 1 s.dlen, readBytes_length .., fetchInstr_other s hvalid hcmd, ?_⟩
    rw [exec_unrecognised_command _ _ s hmode, reject_unrecognised_eq]

end Sys2Proof.Machine
end

section
/-! Rejections: which answers are one, that each is `reject` of a cause of the table, and a line for every cause of
the table (60_exceptions.md R232, R234). -/

namespace Sys2Proof.Machine

/-! A success line is no rejection (30_encoding.md R81). -/

@[simp] theorem rejected_respond_plus (text : List Byte) (s : State) :
    rejected (respond (plus text) s) = false := rfl
@[simp] theorem rejected_doReset (s : State) : rejected (doReset s) = false := rejected_respond_plus _ _
@[simp] theorem rejected_doInit (id : BitVec 16) (s : State) : rejected (doInit id s) = false :=
  rejected_respond_plus _ _
@[simp] theorem rejected_doRead (x : Session) (payload : List Byte) (s : State) :
    rejected (doRead x payload s) = false := rejected_respond_plus _ _
@[simp] theorem rejected_doWrite (x : Session) (payload : List Byte) (s : State) :
    rejected (doWrite x payload s) = false := rejected_respond_plus _ _
@[simp] theorem rejected_doDone (x : Session) (s : State) : rejected (doDone x s) = false := rejected_respond_plus _ _

/-! The causes of the checks, and of the commands that make them. -/

/-- INIT's checks fail with E_IDENT or E_RESERVED only (42_commands.md R173). -/
theorem initCheck_cause {p : Params} {payload : List Byte} {c : Cause} (h : initCheck p payload = .error c) :
    c = .ident ∨ c = .reserved := by
  unfold initCheck at h
  split at h
  · split at h
    · cases h; exact .inr rfl
    · split at h
      · cases h; exact .inl rfl
      · cases h
  · cases h; exact .inl rfl

/-- READ's checks fail with E_LENGTH or E_RANGE only (42_commands.md R174). -/
theorem readCheck_cause {x : Session} {payload : List Byte} {c : Cause} (h : readCheck x payload = some c) :
    c = .length ∨ c = .range := by
  unfold readCheck at h
  split at h
  · cases h; exact .inl rfl
  · split at h
    · cases h; exact .inr rfl
    · cases h

/-- WRITE's checks fail with E_LENGTH, E_CHECKSUM or E_RANGE, and in WRITING with E_SEQUENCE too (42_commands.md
R175 to R177). -/
theorem writeCheck_cause {x : Session} {payload : List Byte} {s : State} {c : Cause}
    (h : writeCheck x payload s = some c) :
    c = .length ∨ c = .checksum ∨ c = .range ∨ (c = .sequence ∧ s.mode = .writing) := by
  unfold writeCheck at h
  split at h
  · cases h; exact .inl rfl
  split at h
  · cases h; exact .inl rfl
  split at h
  · cases h; exact .inr (.inl rfl)
  split at h
  next hseq => cases h; exact .inr (.inr (.inr ⟨rfl, hseq.1⟩))
  split at h
  · cases h; exact .inr (.inr (.inl rfl))
  · cases h

/-- The table's causes for WRITE: in every mode, but E_SEQUENCE in WRITING only. -/
theorem mem_causesOf_write {c : Cause} {payload : List Byte} {m : Mode} :
    c ∈ causesOf (.write payload) m ↔
      c = .badMode ∨ c = .length ∨ c = .checksum ∨ c = .range ∨ (c = .sequence ∧ m = .writing) := by
  cases m with
  | writing => simp [causesOf]; tauto
  | _ => simp [causesOf]

/-- Every rejection line is the work of `reject`, for a cause that the table gives the command in that mode. -/
theorem exec_rejected_cause {i : Instr} {s t : State} (h : exec i s = .next t) (hr : rejected t = true) :
    ∃ c ∈ causesOf i s.mode, t = reject c s := by
  cases i with
  | reset payload =>
    obtain ⟨_, rfl⟩ := execReset_cases (payload := payload) h
    simp at hr
  | init payload =>
    rcases execInit_cases h with ⟨_, _, rfl⟩ | ⟨_, c, hc, rfl⟩ | ⟨_, id, _, rfl⟩
    · exact ⟨.badMode, by simp [causesOf], rfl⟩
    · exact ⟨c, by simp [causesOf, initCheck_cause hc], rfl⟩
    · simp at hr
  | read payload =>
    rcases execRead_cases h with ⟨_, _, rfl⟩ | ⟨_, c, hc, rfl⟩ | ⟨_, _, rfl⟩
    · exact ⟨.badMode, by simp [causesOf], rfl⟩
    · exact ⟨c, by simp [causesOf, readCheck_cause hc], rfl⟩
    · simp at hr
  | write payload =>
    rcases execWrite_cases h with ⟨_, rfl⟩ | ⟨_, c, hc, rfl⟩ | ⟨_, _, rfl⟩
    · exact ⟨.badMode, mem_causesOf_write.mpr (.inl rfl), rfl⟩
    · exact ⟨c, mem_causesOf_write.mpr (.inr (writeCheck_cause hc)), rfl⟩
    · simp at hr
  | done payload =>
    rcases execDone_cases (payload := payload) h with ⟨_, _, rfl⟩ | ⟨_, rfl⟩
    · exact ⟨.badMode, by simp [causesOf], rfl⟩
    · simp at hr
  | unrecognised line => exact ⟨.unrecognised, by simp [causesOf], (execUnrecognised_cases h).2⟩

/-- Settles O17: a rejection is `reject` of some cause, which stages its line and changes nothing else. -/
theorem rejectionsArePrecise : Obligations.RejectionsArePrecise := by
  unfold Obligations.RejectionsArePrecise
  intro i s t h hr
  obtain ⟨c, _, rfl⟩ := exec_rejected_cause h hr
  rfl

/-! A failed test is the command's answer: of the mode first, then of the payload. -/

/-- The table gives E_BADMODE to the commands that some mode does not admit; there it is the answer (42_commands.md
R170, R171). -/
theorem exec_of_not_admits {i : Instr} {s : State} (hc : .badMode ∈ causesOf i s.mode) (hm : s.mode ≠ .invalid)
    (ha : admits i s.mode = false) : exec i s = .next (reject .badMode s) := by
  cases i with
  | reset payload => simp [causesOf] at hc
  | init payload => unfold exec execInit; exact admitted_of_not_admits hm ha
  | read payload => unfold exec execRead; exact admitted_of_not_admits hm ha
  | write payload => unfold exec execWrite; exact admitted_of_not_admits hm ha
  | done payload => unfold exec execDone; exact admitted_of_not_admits hm ha
  | unrecognised line => simp [causesOf] at hc

theorem exec_init_of_check {s : State} {payload : List Byte} {c : Cause} (hm : s.mode = .waiting)
    (hc : initCheck s.par payload = .error c) : exec (.init payload) s = .next (reject c s) := by
  change execInit payload s = _
  rw [execInit, admitted_of_admits (by simp [hm]) (by simp [hm]), hc]

theorem exec_read_of_check {s : State} {payload : List Byte} {c : Cause} (hm : s.mode = .ready)
    (hc : readCheck s.session payload = some c) : exec (.read payload) s = .next (reject c s) := by
  change execRead payload s = _
  rw [execRead, admitted_of_admits (by simp [hm]) (by simp [hm]), hc]

theorem exec_write_of_check {s : State} {payload : List Byte} {c : Cause} (hm : s.mode = .ready ∨ s.mode = .writing)
    (hc : writeCheck s.session payload s = some c) : exec (.write payload) s = .next (reject c s) := by
  change execWrite payload s = _
  rw [execWrite, admitted_of_admits (by rcases hm with hm | hm <;> simp [hm]) (by simp [hm]), hc]

/-! A line and a state for every cause of the table. -/

/-- Some payload of the command, in some state of a legal mode, is rejected for the cause. -/
def Raises (command : List Byte → Instr) (c : Cause) : Prop :=
  ∃ (payload : List Byte) (s : State), s.mode ≠ .invalid ∧ exec (command payload) s = .next (reject c s)

/-- READY with a chip of two cells, one page, addressed with one byte. -/
def twoCellsReady : State :=
  { State.reset with mode := .ready, session := { Session.reset with addrWidth := 1 } }

/-- The same chip in WRITING after its whole page was accepted: only an address past the end would continue. -/
def twoCellsWriting : State := { twoCellsReady with mode := .writing, wbBase := 2 }

theorem init_raises_table : ∀ c ∈ causesOf (.init []) .writing, Raises .init c := by
  have hbadMode : Raises .init .badMode :=
    ⟨[], twoCellsReady, by decide, exec_of_not_admits (by decide) (by decide) rfl⟩
  have hident : Raises .init .ident := ⟨[], State.reset, by decide, exec_init_of_check rfl rfl⟩
  have hreserved : Raises .init .reserved :=
    ⟨[0x00#8, 0x01#8], State.reset, by decide, exec_init_of_check rfl rfl⟩
  simp [causesOf, hbadMode, hident, hreserved]

theorem read_raises_table : ∀ c ∈ causesOf (.read []) .writing, Raises .read c := by
  have hbadMode : Raises .read .badMode :=
    ⟨[], State.reset, by decide, exec_of_not_admits (by decide) (by decide) rfl⟩
  have hlength : Raises .read .length := ⟨[], twoCellsReady, by decide, exec_read_of_check rfl (by decide)⟩
  have hrange : Raises .read .range :=
    ⟨[0x02#8], twoCellsReady, by decide, exec_read_of_check rfl (by decide)⟩
  simp [causesOf, hbadMode, hlength, hrange]

/-- The payloads are an address byte, a data byte 0xAA and a checksum field, right but for E_CHECKSUM's. -/
theorem write_raises_table : ∀ c ∈ causesOf (.write []) .writing, Raises .write c := by
  have hbadMode : Raises .write .badMode :=
    ⟨[], State.reset, by decide, exec_of_not_admits (by decide) (by decide) rfl⟩
  have hlength : Raises .write .length :=
    ⟨[], twoCellsReady, by decide, exec_write_of_check (.inl rfl) (by decide)⟩
  have hchecksum : Raises .write .checksum :=
    ⟨[0x00#8, 0xAA#8, 0x00#8, 0x00#8], twoCellsReady, by decide, exec_write_of_check (.inl rfl) (by decide)⟩
  have hsequence : Raises .write .sequence :=
    ⟨[0x01#8, 0xAA#8, 0x00#8, 0xAB#8], twoCellsWriting, by decide, exec_write_of_check (.inr rfl) (by decide)⟩
  have hrange : Raises .write .range :=
    ⟨[0x02#8, 0xAA#8, 0x00#8, 0xAC#8], twoCellsReady, by decide, exec_write_of_check (.inl rfl) (by decide)⟩
  simp [causesOf, hbadMode, hlength, hchecksum, hsequence, hrange]

theorem done_raises_table : ∀ c ∈ causesOf (.done []) .writing, Raises .done c := by
  have hbadMode : Raises .done .badMode :=
    ⟨[], State.reset, by decide, exec_of_not_admits (by decide) (by decide) rfl⟩
  simp [causesOf, hbadMode]

/-- RESET has no cause in the table. -/
theorem reset_raises_table : ∀ c ∈ causesOf (.reset []) .writing, Raises .reset c := by simp [causesOf]

/-- Both kinds of unrecognised line are rejected in every legal mode. -/
theorem exec_unrecognised (line : BadLine) (s : State) (hm : s.mode ≠ .invalid) :
    exec (.unrecognised line) s = .next (reject .unrecognised s) := by
  cases line with
  | framing => exact exec_unrecognised_framing s
  | command c payload => exact exec_unrecognised_command c payload s hm

/-- Settles O18: no cause but the table's is raised (`exec_rejected_cause`), each cause of the table is, command by
command, and an unrecognised line has one answer. -/
theorem eachCommandRaisesItsCauses : Obligations.EachCommandRaisesItsCauses := by
  unfold Obligations.EachCommandRaisesItsCauses
  refine ⟨fun i s t => exec_rejected_cause, ?_, exec_unrecognised⟩
  intro command hcommand
  simp only [List.mem_cons, List.not_mem_nil, or_false] at hcommand
  rcases hcommand with rfl | rfl | rfl | rfl | rfl
  · exact reset_raises_table
  · exact init_raises_table
  · exact read_raises_table
  · exact write_raises_table
  · exact done_raises_table

end Sys2Proof.Machine
end

section
/-! Decoding and encoding of lines (30_encoding.md sections 4, 5, 7 to 9). -/

namespace Sys2Proof.Machine

/-! Which payloads and instructions a line can spell (30_encoding.md R73). -/

@[simp] theorem checkPayload_eq_none (p : Params) (payload : List Byte) :
    checkPayload p payload = none ↔ payload.length ≤ maxPayload p := by
  unfold checkPayload
  split <;> simp_all

theorem isNone_checkPayload (p : Params) (payload : List Byte) :
    (checkPayload p payload).isNone = true ↔ payload.length ≤ maxPayload p := by
  rw [Option.isNone_iff_eq_none, checkPayload_eq_none]

theorem wellFormed_command_iff (p : Params) (c : Byte) (payload : List Byte) :
    (Instr.unrecognised (.command c payload)).wellFormed p = true
      ↔ c ≠ lineFeed ∧ commandCharacters.contains c = false ∧ payload.length ≤ maxPayload p := by
  simp only [Instr.wellFormed, Instr.illFormed]
  split
  next hlf => simp [hlf]
  next hlf =>
    cases hmem : commandCharacters.contains c with
    | true => simp
    | false => simp [hlf]

/-- LINE_CAP holds a command character, a longest payload's digits and LF (00_scope.md R5). -/
theorem lineCap_eq (p : Params) : lineCap p = 2 * maxPayload p + 2 := by
  unfold lineCap maxPayload
  omega

/-! The hex codec on whole runs of digits. -/

theorem hexPair_eq_none_iff (hi lo : Byte) :
    hexPair hi lo = none ↔ hexValue hi = none ∨ hexValue lo = none := by
  unfold hexPair
  cases hexValue hi <;> cases hexValue lo <;> simp

/-- A run of characters spells no bytes exactly if it is odd or holds a non-hex character (41_framer.md R145, R147). -/
theorem hexPairs_eq_none_iff : ∀ digits : List Byte,
    hexPairs digits = none ↔ digits.length % 2 = 1 ∨ ∃ c ∈ digits, hexValue c = none
  | [] => by simp [hexPairs]
  | [_] => by simp [hexPairs]
  | hi :: lo :: rest => by
    have hrest := hexPairs_eq_none_iff rest
    have hpair := hexPair_eq_none_iff hi lo
    have hlen : (hi :: lo :: rest).length % 2 = rest.length % 2 := by simp; omega
    have hdef : hexPairs (hi :: lo :: rest) = none ↔ hexPair hi lo = none ∨ hexPairs rest = none := by
      simp only [hexPairs]
      cases hexPair hi lo <;> cases hexPairs rest <;> simp
    rw [hdef, hpair, hrest, hlen]
    simp only [List.mem_cons, exists_eq_or_imp]
    tauto

/-- The upper-case digit of a hex character's value is the character in upper case (30_encoding.md R75, R83). -/
theorem hexDigit_of_hexValue {c : Byte} {d : BitVec 4} (h : hexValue c = some d) : hexDigit true d = upperHex c := by
  revert c d
  decide

theorem nibbles_of_append : ∀ d e : BitVec 4,
    (d ++ e : Byte).extractLsb' 4 4 = d ∧ (d ++ e : Byte).extractLsb' 0 4 = e := by decide

theorem hexByte_of_hexPair {hi lo b : Byte} (h : hexPair hi lo = some b) :
    hexByte true b = [upperHex hi, upperHex lo] := by
  unfold hexPair at h
  split at h
  next d e hd he =>
    obtain rfl : d ++ e = b := by simpa using h
    simp [hexByte, nibbles_of_append, hexDigit_of_hexValue hd, hexDigit_of_hexValue he]
  next => cases h

/-- The encoder writes decoded digits back in upper case (entry 24). -/
theorem hexText_of_hexPairs : ∀ (digits payload : List Byte), hexPairs digits = some payload →
    hexText true payload = digits.map upperHex
  | [], payload, h => by simp [hexPairs] at h; simp [h]
  | [_], _, h => by simp [hexPairs] at h
  | hi :: lo :: rest, payload, h => by
    simp only [hexPairs] at h
    split at h
    next b bs hb hbs =>
      obtain rfl : b :: bs = payload := by simpa using h
      have hrest := hexText_of_hexPairs rest bs hbs
      simp only [hexText] at hrest ⊢
      simp [hexByte_of_hexPair hb, hrest]
    next => cases h

/-! The choice of the command, and the decoder. -/

theorem contains_commandCharacters (c : Byte) : commandCharacters.contains c = true
    ↔ c = 0x21#8 ∨ c = 0x69#8 ∨ c = 0x72#8 ∨ c = 0x77#8 ∨ c = 0x64#8 := by
  simp [commandCharacters]

/-- The encoder writes the selected command's character and payload, whichever the command is. -/
theorem encode_selectCommand (c : Byte) (payload : List Byte) :
    encode (selectCommand c payload) = encodeCommand c payload := by
  by_cases hmem : commandCharacters.contains c = true
  · rcases (contains_commandCharacters c).mp hmem with rfl | rfl | rfl | rfl | rfl <;> rfl
  · rw [selectCommand_other c payload (by simpa using hmem)]
    rfl

theorem selectCommand_ne_framing (c : Byte) (payload : List Byte) :
    selectCommand c payload ≠ .unrecognised .framing := by
  unfold selectCommand
  split_ifs <;> simp

/-- What is selected by a character other than LF, with a payload that fits, is well-formed. -/
theorem selectCommand_wellFormed {p : Params} {c : Byte} {payload : List Byte} (hc : c ≠ lineFeed)
    (hlen : payload.length ≤ maxPayload p) : (selectCommand c payload).wellFormed p = true := by
  by_cases hmem : commandCharacters.contains c = true
  · rcases (contains_commandCharacters c).mp hmem with rfl | rfl | rfl | rfl | rfl <;>
      exact (isNone_checkPayload p payload).mpr hlen
  · have hother : commandCharacters.contains c = false := by simpa using hmem
    rw [selectCommand_other c payload hother]
    exact (wellFormed_command_iff p c payload).mpr ⟨hc, hother, hlen⟩

/-- The decoder, all its cases (30_encoding.md R74, R84, R85): a framing error, or the command of the first character
with the bytes that the digits spell. -/
theorem decode_cases (p : Params) (line : List Byte) :
    ((lineCap p - 1 < line.length ∨ line = [] ∨ ∃ c digits, line = c :: digits ∧ hexPairs digits = none)
      ∧ decode p line = .unrecognised .framing)
    ∨ ∃ c digits payload, line = c :: digits ∧ line.length ≤ lineCap p - 1 ∧ hexPairs digits = some payload
        ∧ decode p line = selectCommand c payload := by
  unfold decode
  split
  next hlong => exact .inl ⟨.inl hlong, rfl⟩
  next hfits =>
    cases line with
    | nil => exact .inl ⟨.inr (.inl rfl), rfl⟩
    | cons c digits =>
      cases hd : hexPairs digits with
      | none => exact .inl ⟨.inr (.inr ⟨c, digits, rfl, hd⟩), by simp [hd]⟩
      | some payload => exact .inr ⟨c, digits, payload, rfl, by omega, hd, by simp [hd]⟩

theorem decode_cons {p : Params} {c : Byte} {digits payload : List Byte} (hlen : digits.length + 1 ≤ lineCap p - 1)
    (hd : hexPairs digits = some payload) : decode p (c :: digits) = selectCommand c payload := by
  unfold decode
  rw [if_neg (by simp; omega)]
  simp [hd]

/-- A command's own line decodes to what its character selects. -/
theorem decode_encodeCommand {p : Params} {payload : List Byte} (c : Byte) (hlen : payload.length ≤ maxPayload p) :
    decode p (encodeCommand c payload) = selectCommand c payload := by
  have hcap := lineCap_eq p
  exact decode_cons (by simp; omega) (hexPairs_hexText true payload)

/-- Decoding inverts encoding, instruction by instruction (30_encoding.md R73 to R75, R84, R89). -/
theorem decode_encode {p : Params} {i : Instr} (h : i.wellFormed p = true) : decode p (encode i) = i := by
  cases i with
  | reset payload => exact decode_encodeCommand _ ((isNone_checkPayload p payload).mp h)
  | init payload => exact decode_encodeCommand _ ((isNone_checkPayload p payload).mp h)
  | read payload => exact decode_encodeCommand _ ((isNone_checkPayload p payload).mp h)
  | write payload => exact decode_encodeCommand _ ((isNone_checkPayload p payload).mp h)
  | done payload => exact decode_encodeCommand _ ((isNone_checkPayload p payload).mp h)
  | unrecognised line =>
    cases line with
    | framing => simp [encode, decode]
    | command c payload =>
      obtain ⟨_, hother, hlen⟩ := (wellFormed_command_iff p c payload).mp h
      calc decode p (encodeCommand c payload) = selectCommand c payload := decode_encodeCommand c hlen
        _ = .unrecognised (.command c payload) := selectCommand_other c payload hother

/-- No LF stands inside an instruction's line, so its stream ends where the line does (30_encoding.md R91). -/
theorem lineFeed_not_mem_encode {p : Params} {i : Instr} (h : i.wellFormed p = true) : lineFeed ∉ encode i := by
  cases i with
  | reset payload => exact Laws.EncodeHasNoLineFeed.reset payload p h
  | init payload => exact Laws.EncodeHasNoLineFeed.init payload p h
  | read payload => exact Laws.EncodeHasNoLineFeed.read payload p h
  | write payload => exact Laws.EncodeHasNoLineFeed.write payload p h
  | done payload => exact Laws.EncodeHasNoLineFeed.done payload p h
  | unrecognised line => exact Laws.EncodeHasNoLineFeed.unrecognised line p h

/-- Settles O1: the line holds no LF, so the stream splits where it ends (`splitLine_append`), and the line decodes to
its instruction (`decode_encode`). -/
theorem decodeEncodeAgree : Obligations.DecodeEncodeAgree := by
  unfold Obligations.DecodeEncodeAgree
  intro p i rest hwf
  have hsplit := splitLine_append (encode i) rest (lineFeed_not_mem_encode hwf)
  simp [decodeStream, encodeLine, hsplit, decode_encode hwf]

/-- Settles O2: seven closed evaluations of the decoder. -/
theorem specLinesDecode : Obligations.SpecLinesDecode := by
  unfold Obligations.SpecLinesDecode
  decide

/-- Settles O3, by the decoder's two cases: a framing error is well-formed, and what the first character selects is
written with the digits in upper case (`hexText_of_hexPairs`). -/
theorem lineSpellsItsInstruction : Obligations.LineSpellsItsInstruction := by
  unfold Obligations.LineSpellsItsInstruction
  intro p line hlf
  rcases decode_cases p line with ⟨_, hframing⟩ | ⟨c, digits, payload, rfl, hfits, hdigits, hselect⟩
  · rw [hframing]
    exact ⟨rfl, fun h => absurd rfl h⟩
  · have hc : c ≠ lineFeed := by rintro rfl; simp at hlf
    have hlen : payload.length ≤ maxPayload p := by
      have := hexPairs_length digits payload hdigits
      have := lineCap_eq p
      simp only [List.length_cons] at hfits
      omega
    rw [hselect]
    refine ⟨selectCommand_wellFormed hc hlen, fun _ => ⟨c, digits, rfl, ?_⟩⟩
    rw [encode_selectCommand, encodeCommand, hexText_of_hexPairs digits payload hdigits]

/-- Settles O4, by the decoder's two cases: what its framing test refuses is what the three conditions name
(`hexPairs_eq_none_iff`), and no command is a framing error. -/
theorem framingErrorsExactly : Obligations.FramingErrorsExactly := by
  unfold Obligations.FramingErrorsExactly
  intro p line
  rcases decode_cases p line with ⟨hcause, hframing⟩ | ⟨c, digits, payload, rfl, hfits, hdigits, hselect⟩
  · refine iff_of_true hframing ?_
    rcases hcause with hlong | rfl | ⟨c, digits, rfl, hnone⟩
    · exact .inl hlong
    · exact .inr (.inl rfl)
    · rcases (hexPairs_eq_none_iff digits).mp hnone with hodd | hchar
      · exact .inr (.inl (by simp; omega))
      · exact .inr (.inr hchar)
  · refine iff_of_false (hselect ▸ selectCommand_ne_framing c payload) ?_
    have heven := hexPairs_length digits payload hdigits
    have hsome : ¬(digits.length % 2 = 1 ∨ ∃ c ∈ digits, hexValue c = none) := by
      rw [← hexPairs_eq_none_iff, hdigits]; simp
    rintro (hlong | hcount | hchar)
    · omega
    · simp only [List.length_cons] at hcount; omega
    · exact hsome (.inr hchar)

end Sys2Proof.Machine
end

section
/-! The checksum and the READ response (30_encoding.md R79, R82; 41_framer.md R150, R151). -/

namespace Sys2Proof.Machine

/-- The checksum of two runs is the sum of their checksums (41_framer.md R150). -/
theorem checksum_append (as bs : List Byte) : checksum (as ++ bs) = checksum as + checksum bs := by
  induction bs using List.reverseRecOn with
  | nil => simp [checksum]
  | append_singleton bs b ih =>
    rw [← List.append_assoc, checksum_append_single, checksum_append_single, ih, BitVec.add_assoc]

theorem checksum_cons (b : Byte) (bs : List Byte) : checksum (b :: bs) = b.zeroExtend 16 + checksum bs := by
  rw [← List.singleton_append, checksum_append]
  simp [checksum]

/-- Another byte in one place gives another checksum: the bytes differ by less than 65536. -/
theorem eq_of_checksum_eq {front rear : List Byte} {a b : Byte}
    (h : checksum (front ++ a :: rear) = checksum (front ++ b :: rear)) : a = b := by
  simp only [checksum_append, checksum_cons] at h
  have hext : a.zeroExtend 16 = b.zeroExtend 16 := (BitVec.add_left_inj _).mp ((BitVec.add_right_inj _).mp h)
  have hnat := congrArg BitVec.toNat hext
  have := a.isLt
  have := b.isLt
  simp only [BitVec.truncate_eq_setWidth, BitVec.toNat_setWidth] at hnat
  exact BitVec.eq_of_toNat_eq (by omega)

/-- A 16-bit field determines its two bytes. -/
theorem field16_inj {hi lo hi' lo' : Byte} (h : field16 hi lo = field16 hi' lo') : hi = hi' ∧ lo = lo' := by
  have hnat := congrArg BitVec.toNat h
  simp only [field16, BitVec.toNat_append] at hnat
  have := lo.isLt
  have := lo'.isLt
  rw [← Nat.shiftLeft_add_eq_or_of_lt (by omega), ← Nat.shiftLeft_add_eq_or_of_lt (by omega),
    Nat.shiftLeft_eq, Nat.shiftLeft_eq] at hnat
  exact ⟨BitVec.eq_of_toNat_eq (by omega), BitVec.eq_of_toNat_eq (by omega)⟩

/-! A payload seen as checked bytes and the two bytes of its checksum field. -/

theorem checkedBytes_append {x : Session} {checked : List Byte} (hi lo : Byte)
    (h : x.addrWidth.toNat ≤ checked.length) : checkedBytes x (checked ++ [hi, lo]) = checked := by
  have hcount : x.addrWidth.toNat + dataCount x (checked ++ [hi, lo]) = checked.length := by
    simp [dataCount]; omega
  rw [checkedBytes, hcount, List.take_left]

theorem checksumField_append (checked : List Byte) (hi lo : Byte) :
    checksumField (checked ++ [hi, lo]) = field16 hi lo := by
  simp [checksumField, List.getD_eq_getElem?_getD]

/-- A payload long enough to hold a checksum field is its checked bytes and that field. -/
theorem exists_checked_field {payload : List Byte} (h : 2 ≤ payload.length) :
    ∃ checked hi lo, payload = checked ++ [hi, lo] := by
  obtain ⟨hi, lo, hlast⟩ : ∃ hi lo, payload.drop (payload.length - 2) = [hi, lo] :=
    List.length_eq_two.mp (by simp; omega)
  exact ⟨payload.take (payload.length - 2), hi, lo, by rw [← hlast, List.take_append_drop]⟩

/-- The checksum that the encoder appends verifies (41_framer.md R151). -/
theorem checksum_verifies {x : Session} {checked : List Byte} (h : x.addrWidth.toNat ≤ checked.length) :
    checksum (checkedBytes x (checked ++ checksumBytes (checksum checked)))
      = checksumField (checked ++ checksumBytes (checksum checked)) := by
  rw [checksumBytes, checkedBytes_append _ _ h, checksumField_append, field16_checksumBytes]

/-- One changed byte of the checked bytes changes the checksum. -/
theorem checksum_set_ne {bs : List Byte} {k : Nat} {v : Byte} (hk : k < bs.length) (hv : bs[k]? ≠ some v) :
    checksum (bs.set k v) ≠ checksum bs := by
  intro heq
  have hset := List.set_eq_take_append_cons_drop (l := bs) (i := k) (a := v)
  rw [if_pos hk] at hset
  have hsplit : bs = bs.take k ++ bs[k] :: bs.drop (k + 1) := by simp
  have hbyte : v = bs[k] := eq_of_checksum_eq (by rw [← hset, ← hsplit, heq])
  exact hv (by rw [List.getElem?_eq_getElem hk, hbyte])

/-- A verifying payload with one byte changed verifies no more (41_framer.md R151): the byte is one of the checked
bytes, and the checksum changes but the field does not; or one of the field's, and the field changes. -/
theorem verification_sees_one_byte {x : Session} {checked : List Byte} {hi lo v : Byte} {k : Nat}
    (haw : x.addrWidth.toNat ≤ checked.length) (hgood : checksum checked = field16 hi lo)
    (hk : k < checked.length + 2) (hv : (checked ++ [hi, lo])[k]? ≠ some v) :
    checksum (checkedBytes x ((checked ++ [hi, lo]).set k v)) ≠ checksumField ((checked ++ [hi, lo]).set k v) := by
  rcases Nat.lt_or_ge k checked.length with hlt | hge
  · rw [List.set_append_left _ _ hlt, checkedBytes_append _ _ (by simpa using haw), checksumField_append, ← hgood]
    rw [List.getElem?_append_left hlt] at hv
    exact checksum_set_ne hlt hv
  · rw [List.set_append_right _ _ hge]
    rw [List.getElem?_append_right hge] at hv
    obtain hzero | hone : k - checked.length = 0 ∨ k - checked.length = 1 := by omega
    · rw [hzero] at hv ⊢
      rw [List.set_cons_zero, checkedBytes_append _ _ haw, checksumField_append, hgood]
      intro heq
      exact hv (by simp [(field16_inj heq).1])
    · rw [hone] at hv ⊢
      rw [List.set_cons_succ, List.set_cons_zero, checkedBytes_append _ _ haw, checksumField_append, hgood]
      intro heq
      exact hv (by simp [(field16_inj heq).2])

/-- Settles O6: `checksum_verifies`, `verification_sees_one_byte`, and the sum of bytes commutes. -/
theorem checksumSeesOneByte : Obligations.ChecksumSeesOneByte := by
  unfold Obligations.ChecksumSeesOneByte
  refine ⟨?_, ?_, ?_⟩
  · intro x addr data haddr
    exact checksum_verifies (by simp; omega)
  · intro x payload k v hlen hgood hk hv
    obtain ⟨checked, hi, lo, rfl⟩ := exists_checked_field (payload := payload) (by omega)
    simp only [List.length_append, List.length_cons, List.length_nil] at hlen hk
    have haw : x.addrWidth.toNat ≤ checked.length := by omega
    rw [checkedBytes_append _ _ haw, checksumField_append] at hgood
    exact verification_sees_one_byte haw hgood (by omega) hv
  · intro front rear a b
    simp only [checksum_append, checksum_cons]
    ac_rfl

/-- Settles O5: the response is the digits of address, data and checksum, which the codec reads back
(`hexPairs_hexText`) and which verify (`checksum_verifies`). -/
theorem readResponseParsesAsWrite : Obligations.ReadResponseParsesAsWrite := by
  unfold Obligations.ReadResponseParsesAsWrite
  intro p x addr data haddr
  have hcount : dataCount x (addr ++ data ++ checksumBytes (checksum (addr ++ data))) = data.length := by
    simp [dataCount, checksumBytes, haddr]
  refine ⟨readText p addr data, addr ++ data ++ checksumBytes (checksum (addr ++ data)), rfl, ?_,
    hexPairs_hexText _ _, ?_, ?_, checksum_verifies (by simp [haddr])⟩
  · simp [readText, checksumBytes]; omega
  · rw [addrBytes, List.append_assoc, List.take_left' haddr]
  · rw [dataBytes, hcount, List.append_assoc, List.drop_left' haddr, List.take_left]

end Sys2Proof.Machine
end

section
/-! Decimal text (41_framer.md R161). -/

namespace Sys2Proof.Machine

theorem decDigit_toNat {d : Nat} (h : d < 10) : (decDigit d).toNat = 0x30 + d := by
  simp [decDigit]; omega

/-- The digits written before `tail`, read as a number, are worth `v` followed by `tail`. -/
theorem foldl_decDigits : ∀ (fuel v : Nat) (tail : List Byte), v < 10 ^ (fuel + 1) →
    (decDigits fuel v tail).foldl (fun v c => v * 10 + (c.toNat - 0x30)) 0
      = tail.foldl (fun v c => v * 10 + (c.toNat - 0x30)) v := by
  intro fuel
  induction fuel with
  | zero =>
    intro v tail hv
    have hlt : v < 10 := by simpa using hv
    simp [decDigits, Nat.mod_eq_of_lt hlt, decDigit_toNat hlt]
  | succ fuel ih =>
    intro v tail hv
    unfold decDigits
    split
    next hlt => simp [decDigit_toNat hlt]
    next hge =>
      have hdiv : v / 10 < 10 ^ (fuel + 1) := by rw [pow_succ] at hv; omega
      rw [ih _ _ hdiv, List.foldl_cons, decDigit_toNat (Nat.mod_lt v (by decide))]
      congr 1
      omega

/-- Only decimal digits are written before `tail`. -/
theorem mem_decDigits : ∀ (fuel v : Nat) (tail : List Byte) (c : Byte), c ∈ decDigits fuel v tail →
    (∃ d < 10, c = decDigit d) ∨ c ∈ tail := by
  intro fuel
  induction fuel with
  | zero =>
    intro v tail c hc
    rcases List.mem_cons.mp hc with rfl | hc
    · exact .inl ⟨v % 10, Nat.mod_lt v (by decide), rfl⟩
    · exact .inr hc
  | succ fuel ih =>
    intro v tail c hc
    unfold decDigits at hc
    split at hc
    next hlt =>
      rcases List.mem_cons.mp hc with rfl | hc
      · exact .inl ⟨v, hlt, rfl⟩
      · exact .inr hc
    next =>
      rcases ih _ _ _ hc with hd | hc
      · exact .inl hd
      · rcases List.mem_cons.mp hc with rfl | hc
        · exact .inl ⟨v % 10, Nat.mod_lt v (by decide), rfl⟩
        · exact .inr hc

/-- The first digit of a number other than 0 is not 0. -/
theorem head_decDigits_ne_zero : ∀ (fuel v : Nat) (tail : List Byte), v < 10 ^ (fuel + 1) → v ≠ 0 →
    ∃ d, 0 < d ∧ d < 10 ∧ (decDigits fuel v tail).head? = some (decDigit d) := by
  intro fuel
  induction fuel with
  | zero =>
    intro v tail hv h0
    have hlt : v < 10 := by simpa using hv
    exact ⟨v, by omega, hlt, by simp [decDigits, Nat.mod_eq_of_lt hlt]⟩
  | succ fuel ih =>
    intro v tail hv h0
    unfold decDigits
    split
    next hlt => exact ⟨v, by omega, hlt, rfl⟩
    next hge => exact ih _ _ (by rw [pow_succ] at hv; omega) (by omega)

/-- The fuel of `dec` is enough: a number has at most as many decimal digits as binary ones. -/
theorem lt_ten_pow_log2 (v : Nat) : v < 10 ^ (Nat.log2 v + 1) :=
  Nat.lt_log2_self.trans_le (Nat.pow_le_pow_left (by decide) _)

/-- Settles O7: `foldl_decDigits`, `mem_decDigits` and `head_decDigits_ne_zero`, with the fuel that `dec` has. -/
theorem decimalTextIsTheNumber : Obligations.DecimalTextIsTheNumber := by
  unfold Obligations.DecimalTextIsTheNumber
  intro v
  have hfuel := lt_ten_pow_log2 v
  refine ⟨foldl_decDigits _ v [] hfuel, ?_, ?_, by decide⟩
  · intro c hc
    rcases mem_decDigits _ v [] c hc with ⟨d, hd, rfl⟩ | hc
    · rw [decDigit_toNat hd]; omega
    · simp at hc
  · intro h0 hhead
    obtain ⟨d, hpos, hlt, hd⟩ := head_decDigits_ne_zero _ v [] hfuel h0
    rw [dec, hd, Option.some.injEq] at hhead
    have hnat := decDigit_toNat hlt
    rw [hhead] at hnat
    simp at hnat
    omega

end Sys2Proof.Machine
end

section
/-! Admission by mode, and MODE after it (42_commands.md R170, R171, R180, R181). -/

namespace Sys2Proof.Machine

/-! A command answers one line, and its first character says whether it was accepted (30_encoding.md R81). -/

@[simp] theorem accepted_respond_plus (text : List Byte) (s : State) : accepted (respond (plus text) s) = true := rfl
@[simp] theorem accepted_reject (c : Cause) (s : State) : accepted (reject c s) = false := rfl
@[simp] theorem accepted_doReset (s : State) : accepted (doReset s) = true := rfl
@[simp] theorem accepted_doInit (id : BitVec 16) (s : State) : accepted (doInit id s) = true := rfl
@[simp] theorem accepted_doRead (x : Session) (payload : List Byte) (s : State) :
    accepted (doRead x payload s) = true := rfl
@[simp] theorem accepted_doWrite (x : Session) (payload : List Byte) (s : State) :
    accepted (doWrite x payload s) = true := rfl
@[simp] theorem accepted_doDone (x : Session) (s : State) : accepted (doDone x s) = true := rfl

@[simp] theorem doReset_mode (s : State) : (doReset s).mode = .waiting := rfl
@[simp] theorem doInit_mode (id : BitVec 16) (s : State) : (doInit id s).mode = .ready := rfl
@[simp] theorem doRead_mode (x : Session) (payload : List Byte) (s : State) :
    (doRead x payload s).mode = s.mode := rfl
@[simp] theorem doWrite_mode (x : Session) (payload : List Byte) (s : State) :
    (doWrite x payload s).mode = .writing := rfl
@[simp] theorem doDone_mode (x : Session) (s : State) : (doDone x s).mode = .ready := rfl

theorem admitted_of_invalid {admits : Mode → Bool} {run : State → Outcome} {s : State} (hm : s.mode = .invalid) :
    admitted admits run s = .fault .invalidMode := by
  simp [admitted, hm]

/-- With MODE 3 every instruction but a framing error is the fault (42_commands.md R180). -/
theorem exec_of_invalid {i : Instr} {s : State} (hm : s.mode = .invalid) (hi : i ≠ .unrecognised .framing) :
    exec i s = .fault .invalidMode := by
  cases i with
  | reset payload => unfold exec execReset; exact admitted_of_invalid hm
  | init payload => unfold exec execInit; exact admitted_of_invalid hm
  | read payload => unfold exec execRead; exact admitted_of_invalid hm
  | write payload => unfold exec execWrite; exact admitted_of_invalid hm
  | done payload => unfold exec execDone; exact admitted_of_invalid hm
  | unrecognised line =>
    cases line with
    | framing => exact absurd rfl hi
    | command c payload => unfold exec execUnrecognised; exact admitted_of_invalid hm

/-- MODE after an instruction is the transition table's (42_commands.md R181). -/
theorem exec_mode {i : Instr} {s t : State} (h : exec i s = .next t) :
    t.mode = modeAfter i s.mode (accepted t) := by
  cases i with
  | reset payload =>
    obtain ⟨_, rfl⟩ := execReset_cases (payload := payload) h
    rfl
  | init payload =>
    rcases execInit_cases h with ⟨_, _, rfl⟩ | ⟨_, c, _, rfl⟩ | ⟨_, id, _, rfl⟩ <;> simp [modeAfter]
  | read payload =>
    rcases execRead_cases h with ⟨_, _, rfl⟩ | ⟨_, c, _, rfl⟩ | ⟨_, _, rfl⟩ <;> simp [modeAfter]
  | write payload =>
    rcases execWrite_cases h with ⟨_, rfl⟩ | ⟨_, c, _, rfl⟩ | ⟨_, _, rfl⟩ <;> simp [modeAfter]
  | done payload =>
    rcases execDone_cases (payload := payload) h with ⟨_, hm, rfl⟩ | ⟨hm, rfl⟩ <;> simp [modeAfter, hm]
  | unrecognised line =>
    obtain ⟨_, rfl⟩ := execUnrecognised_cases h
    rfl

/-- Settles O14: `exec_of_not_admits`, `exec_unrecognised` and `exec_mode`. -/
theorem modeFollowsTheTable : Obligations.ModeFollowsTheTable := by
  unfold Obligations.ModeFollowsTheTable
  intro i s hm
  refine ⟨fun ha hi => ?_, ?_, fun t => exec_mode⟩
  · cases i with
    | reset payload => simp [admits, hm] at ha
    | init payload => exact exec_of_not_admits (by simp [causesOf]) hm ha
    | read payload => exact exec_of_not_admits (by simp [causesOf]) hm ha
    | write payload => exact exec_of_not_admits (mem_causesOf_write.mpr (.inl rfl)) hm ha
    | done payload => exact exec_of_not_admits (by simp [causesOf]) hm ha
    | unrecognised line => exact absurd rfl (hi line)
  · rintro line rfl
    exact exec_unrecognised line s hm

/-- An instruction that completes does not write MODE 3 (42_commands.md R180). -/
theorem exec_mode_ne_invalid {i : Instr} {s t : State} (hm : s.mode ≠ .invalid) (h : exec i s = .next t) :
    t.mode ≠ .invalid := by
  rcases exec_cases h with ⟨c, rfl⟩ | ⟨p, _, rfl⟩ | ⟨p, id, _, _, _, rfl⟩ | ⟨p, _, _, _, rfl⟩ | ⟨p, _, _, _, rfl⟩
    | ⟨p, _, _, rfl⟩
  · exact hm
  · simp
  · simp
  · exact hm
  · simp
  · simp

end Sys2Proof.Machine
end

section
/-! What the parts of a step keep outside SUART and the framer. -/

namespace Sys2Proof.Machine

/-- What SUART's cycles and ENGINE's turns outside P_EXEC leave alone: MODE, the session, the write buffer, the chip
and the parameters (20_memory.md R50). -/
structure CoreFrame (s t : State) : Prop where
  mode : t.mode = s.mode
  session : t.session = s.session
  wb : t.wb = s.wb
  wbBase : t.wbBase = s.wbBase
  wbFill : t.wbFill = s.wbFill
  cfg : t.cfg = s.cfg
  chip : t.chip = s.chip
  chipLog : t.chipLog = s.chipLog

theorem takeChar_core (c : Byte) (s : State) : CoreFrame s (takeChar c s) := by
  rcases takeChar_cases c s with ⟨_, e⟩ | ⟨_, _, e⟩ | ⟨_, _, e⟩ <;> rw [e] <;> constructor <;> rfl

theorem txCycle_core (s : State) : CoreFrame s (txCycle s) := by
  rcases txCycle_cases s with ⟨_, e⟩ | ⟨_, e⟩ | ⟨_, _, e⟩ | ⟨_, _, _, e⟩ | ⟨_, _, _, e⟩ <;> rw [e] <;> constructor <;> rfl

theorem rxCycle_core (rxd : Bool) (s : State) : CoreFrame s (rxCycle rxd s) := by
  rcases rxCycle_cases rxd s with ⟨_, e⟩ | ⟨_, _, e⟩ | ⟨_, _, e⟩ <;> rw [e]
  · constructor <;> rfl
  · constructor <;> rfl
  · obtain ⟨hmode, hsession, hwb, hwbBase, hwbFill, hcfg, hchip, hchipLog⟩ := takeChar_core s.suart.rxsr
      { s with suart := endFrame (tickDelay s.par s.suart) }
    exact ⟨hmode, hsession, hwb, hwbBase, hwbFill, hcfg, hchip, hchipLog⟩

theorem sendNext_core (s : State) : CoreFrame s (sendNext s) := by
  unfold sendNext
  split <;> constructor <;> rfl

theorem sendBanner_core (s : State) : CoreFrame s (sendBanner s) := by
  unfold sendBanner
  split
  · constructor <;> rfl
  · exact sendNext_core s

theorem decodePhase_core (s : State) : CoreFrame s (decodePhase s) := by
  unfold decodePhase
  rw [decodeLine_frame s]
  constructor <;> rfl

theorem tick_core (s : State) : CoreFrame s s.tick := by constructor <;> rfl

theorem turn_core (s : State) : CoreFrame s s.turn := by constructor <;> simp

theorem CoreFrame.trans {s t u : State} (h : CoreFrame s t) (k : CoreFrame t u) : CoreFrame s u where
  mode := k.mode.trans h.mode
  session := k.session.trans h.session
  wb := k.wb.trans h.wb
  wbBase := k.wbBase.trans h.wbBase
  wbFill := k.wbFill.trans h.wbFill
  cfg := k.cfg.trans h.cfg
  chip := k.chip.trans h.chip
  chipLog := k.chipLog.trans h.chipLog

/-- All a step does to MODE, the session, the write buffer and the chip: `rst` resets, P_EXEC runs the fetched
instruction, and every other step keeps them (41_framer.md R140). -/
theorem step_core_cases {s t : State} (h : step s = .next t) :
    (s.edge.rst = true ∧ t = rstEdge s)
    ∨ CoreFrame s t
    ∨ (s.phase = .exec ∧ s.suart.uphase = .idle
        ∧ ∃ u, exec (fetchInstr s.turn) s.turn = .next u ∧ t = { u with phase := .respond }) := by
  rcases step_cases h with hrst | ⟨_, _, rfl⟩ | ⟨_, _, rfl⟩ | ⟨_, _, rfl⟩ | ⟨_, _, _, rfl⟩ | ⟨_, hidle, _, hturn⟩
  · exact .inl hrst
  · exact .inr (.inl ((tick_core s).trans (txCycle_core _)))
  · exact .inr (.inl (by constructor <;> rfl))
  · exact .inr (.inl ((tick_core s).trans (rxCycle_core _ _)))
  · exact .inr (.inl (tick_core s))
  · rcases engineTurn_cases hturn with ⟨_, rfl⟩ | ⟨_, rfl⟩ | ⟨_, rfl⟩ | ⟨hphase, hexec⟩ | ⟨_, rfl⟩
    · exact .inr (.inl ((turn_core s).trans (sendBanner_core _)))
    · exact .inr (.inl ((turn_core s).trans (by constructor <;> rfl)))
    · exact .inr (.inl ((turn_core s).trans (decodePhase_core _)))
    · exact .inr (.inr ⟨by simpa using hphase, hidle, hexec⟩)
    · exact .inr (.inl ((turn_core s).trans (sendNext_core _)))

/-- A step does not write MODE 3 (42_commands.md R180). -/
theorem step_mode_ne_invalid {s t : State} (hm : s.mode ≠ .invalid) (h : step s = .next t) : t.mode ≠ .invalid := by
  rcases step_core_cases h with ⟨_, rfl⟩ | hframe | ⟨_, _, u, hexec, rfl⟩
  · exact fun hc => by cases hc
  · rwa [hframe.mode]
  · exact exec_mode_ne_invalid (t := u) (by simpa using hm) hexec

/-- Settles O15: `exec_of_invalid` and `step_mode_ne_invalid`. -/
theorem invalidModeFaultsAndIsNeverWritten : Obligations.InvalidModeFaultsAndIsNeverWritten := by
  unfold Obligations.InvalidModeFaultsAndIsNeverWritten
  exact ⟨fun i s => exec_of_invalid, fun s t => step_mode_ne_invalid⟩

/-- In a legal mode every instruction completes. -/
theorem exec_total {i : Instr} {s : State} (hm : s.mode ≠ .invalid) : ∃ t, exec i s = .next t := by
  have hadmitted : ∀ (admits : Mode → Bool) (run : State → Outcome), (∃ t, run s = .next t) →
      ∃ t, admitted admits run s = .next t := by
    intro admits run hrun
    cases ha : admits s.mode with
    | false => exact ⟨_, admitted_of_not_admits hm ha⟩
    | true => rwa [admitted_of_admits hm ha]
  cases i with
  | reset payload => exact hadmitted (fun _ => true) (fun s => .next (doReset s)) ⟨_, rfl⟩
  | init payload =>
    unfold exec execInit
    refine hadmitted _ _ ?_
    cases initCheck s.par payload <;> exact ⟨_, rfl⟩
  | read payload =>
    unfold exec execRead
    refine hadmitted _ _ ?_
    cases readCheck s.session payload <;> exact ⟨_, rfl⟩
  | write payload =>
    unfold exec execWrite
    refine hadmitted _ _ ?_
    cases writeCheck s.session payload s <;> exact ⟨_, rfl⟩
  | done payload => exact hadmitted (fun m => m == .writing) (fun s => .next (doDone s.session s)) ⟨_, rfl⟩
  | unrecognised line => exact ⟨_, exec_unrecognised line s hm⟩

/-- An instruction that does not complete is the fault of MODE 3. -/
theorem exec_stops (i : Instr) (s : State) :
    (∃ t, exec i s = .next t) ∨ (s.mode = .invalid ∧ exec i s = .fault .invalidMode) := by
  by_cases hm : s.mode = .invalid
  · by_cases hi : i = .unrecognised .framing
    · exact .inl ⟨_, hi ▸ exec_unrecognised_framing s⟩
    · exact .inr ⟨hm, exec_of_invalid hm hi⟩
  · exact .inl (exec_total hm)

/-- ENGINE's turn goes on, or it is P_EXEC with MODE 3. -/
theorem engineTurn_stops (s : State) : (∃ t, engineTurn s = .next t)
    ∨ (s.mode = .invalid ∧ s.phase = .exec ∧ engineTurn s = .fault .invalidMode) := by
  unfold engineTurn
  cases s.phase with
  | banner => exact .inl ⟨_, rfl⟩
  | rxLine => exact .inl ⟨_, rfl⟩
  | decode => exact .inl ⟨_, rfl⟩
  | respond => exact .inl ⟨_, rfl⟩
  | exec =>
    rcases exec_stops (fetchInstr s) s with ⟨t, ht⟩ | ⟨hm, hf⟩
    · exact .inl ⟨{ t with phase := .respond }, by simp [execPhase, ht, leaveExec]⟩
    · exact .inr ⟨hm, rfl, by simp [execPhase, hf, leaveExec]⟩

theorem step_rst {s : State} (hr : s.edge.rst = true) : step s = .next (rstEdge s) := by
  simp [step, hr]

theorem step_poll {s : State} (hr : s.edge.rst = false) (hu : s.suart.uphase = .rxWait) :
    step s = .next (rxPollCycle s.edge.rxd s.tick) := by
  simp [step, hr, runEdge, hu]

/-- A step goes on, or ENGINE runs an instruction in P_EXEC with MODE 3 (60_exceptions.md R239). -/
theorem step_stops (s : State) : (∃ t, step s = .next t)
    ∨ (s.mode = .invalid ∧ s.phase = .exec ∧ s.suart.uphase = .idle ∧ step s = .fault .invalidMode) := by
  cases hr : s.edge.rst with
  | true => exact .inl ⟨rstEdge s, step_rst hr⟩
  | false =>
    cases hu : s.suart.uphase with
    | tx => exact .inl ⟨_, step_tx hr hu⟩
    | rxWait => exact .inl ⟨_, step_poll hr hu⟩
    | rxFrame => exact .inl ⟨_, step_rx hr hu⟩
    | idle =>
      cases hh : s.edge.hold with
      | true => exact .inl ⟨_, step_held hr hh hu⟩
      | false =>
        rw [step_engine hr hh hu]
        rcases engineTurn_stops s.turn with hnext | ⟨hm, hp, hf⟩
        · exact .inl hnext
        · exact .inr ⟨by simpa using hm, by simpa using hp, rfl, hf⟩

/-- In a legal mode no run stops. -/
theorem safe_of_mode : ∀ (k : Nat) (s : State), s.mode ≠ .invalid →
    ∃ t : State, Host.Core.run Sys2Proof.core k s = .next t := by
  intro k
  induction k with
  | zero => intro s _; exact ⟨s, rfl⟩
  | succ k ih =>
    intro s hm
    rcases step_stops s with ⟨t, ht⟩ | ⟨hinvalid, _⟩
    · obtain ⟨u, hu⟩ := ih t (step_mode_ne_invalid hm ht)
      exact ⟨u, (run_succ k s t ht).trans hu⟩
    · exact absurd hinvalid hm

/-- Settles O51: a run goes on as long as MODE is legal (`safe_of_mode`), and `step_stops` names the one stop. -/
theorem onlyInvalidModeStops : Obligations.OnlyInvalidModeStops := by
  unfold Obligations.OnlyInvalidModeStops
  refine ⟨fun s hm k => safe_of_mode k s hm, ?_, ?_⟩
  · intro s f hf
    rcases step_stops s with ⟨t, ht⟩ | ⟨hm, hp, hu, hs⟩
    · rw [ht] at hf; cases hf
    · rw [hs] at hf; cases hf; exact ⟨rfl, hm, hp, hu⟩
  · intro s r hr
    rcases step_stops s with ⟨t, ht⟩ | ⟨_, _, _, hs⟩
    · rw [ht] at hr; cases hr
    · rw [hs] at hr; cases hr

end Sys2Proof.Machine
end

section
/-! The frame of every command over the registers (10_state.md R23, 60_exceptions.md R234). -/

namespace Sys2Proof.Machine

/-- What the write-buffer manager leaves alone, a command that then sets MODE and answers leaves alone. -/
theorem BufferFrame.execFrame {s u : State} (h : BufferFrame s u) (text : List Byte) (mode : Mode) :
    ExecFrame s (respond text { u with mode := mode }) :=
  { h with txptr := rfl }

theorem execFrame_respond (text : List Byte) (s : State) : ExecFrame s (respond text s) :=
  (BufferFrame.refl s).execFrame text s.mode

theorem doRead_frame (x : Session) (payload : List Byte) (s : State) : ExecFrame s (doRead x payload s) :=
  { (BufferFrame.ofRead s x (addrOf x payload) (readLength s.par x payload)).execFrame [] s.mode with }

/-- Settles O21, by the cases of `exec`: a rejection, RESET and INIT touch no register of the frame, and READ, WRITE
and DONE change the collaborator as the write-buffer manager's frames say. -/
theorem commandsKeepTheFramer : Obligations.CommandsKeepTheFramer := by
  unfold Obligations.CommandsKeepTheFramer
  intro i s t h
  rcases exec_cases h with ⟨c, rfl⟩ | ⟨p, _, rfl⟩ | ⟨p, id, _, _, _, rfl⟩ | ⟨p, _, _, _, rfl⟩ | ⟨p, _, _, _, rfl⟩
    | ⟨p, _, _, rfl⟩
  · exact execFrame_respond _ s
  · exact { execFrame_respond [] s with }
  · exact { execFrame_respond [] s with }
  · exact doRead_frame s.session p s
  · exact (writeBuffer_frame s.session p s).execFrame _ _
  · exact (wbFinalise_frame s.session s).execFrame _ _

theorem exec_frame {i : Instr} {s t : State} (h : exec i s = .next t) : ExecFrame s t := commandsKeepTheFramer i s t h

/-- Settles O48: `rst`, P_EXEC and every other step keep the parameters. -/
theorem instanceIsConstant : Obligations.InstanceIsConstant := by
  unfold Obligations.InstanceIsConstant
  intro s t h
  rcases step_core_cases h with ⟨_, rfl⟩ | hframe | ⟨_, _, u, hexec, rfl⟩
  · rfl
  · exact hframe.cfg
  · exact (exec_frame hexec).cfg.trans (turn_cfg s)

end Sys2Proof.Machine
end

section
/-! RESET, INIT and READ: the exact next states (42_commands.md sections 2 to 4). -/

namespace Sys2Proof.Machine

/-- Settles O16: a rejection is `respond` of `-` and its cause's message, cause by cause. -/
theorem rejectionTexts : Obligations.RejectionTexts := by
  unfold Obligations.RejectionTexts
  intro s
  refine ⟨?_, ?_, ?_, ?_, ?_, ?_, ?_, ?_⟩ <;> rfl

/-- Settles O23: RESET is admitted in every legal mode, and its effect is `doReset`. -/
theorem resetCommandCompletes : Obligations.ResetCommandCompletes := by
  unfold Obligations.ResetCommandCompletes
  intro payload s hm
  exact admitted_of_admits (admits := fun _ => true) (run := fun s => .next (doReset s)) hm rfl

/-! The identifier's fields (30_encoding.md R76). -/

theorem field16_toNat (hi lo : Byte) : (field16 hi lo).toNat = hi.toNat * 256 + lo.toNat := by
  have hlo := lo.isLt
  rw [field16, BitVec.toNat_append, ← Nat.shiftLeft_add_eq_or_of_lt hlo, Nat.shiftLeft_eq]

theorem idReserved_toNat (id : BitVec 16) : (idReserved id).toNat = id.toNat % 16 := by
  simp [idReserved, BitVec.extractLsb'_toNat]

theorem idAddrWidth_toNat (id : BitVec 16) : (idAddrWidth id).toNat = id.toNat / 16 % 8 := by
  simp [idAddrWidth, BitVec.extractLsb'_toNat, Nat.shiftRight_eq_div_pow]

theorem idCapExp_toNat (id : BitVec 16) : (idCapExp id).toNat = id.toNat / 128 % 32 := by
  simp [idCapExp, BitVec.extractLsb'_toNat, Nat.shiftRight_eq_div_pow]

theorem idPageExp_toNat (id : BitVec 16) : (idPageExp id).toNat = id.toNat / 4096 % 8 := by
  simp [idPageExp, BitVec.extractLsb'_toNat, Nat.shiftRight_eq_div_pow]

theorem idKind_eq (id : BitVec 16) : idKind id = if id.toNat / 32768 % 2 = 0 then .spi else .i2c := by
  have hbit : id.getLsbD 15 = decide (id.toNat / 32768 % 2 = 1) := by
    rw [BitVec.getLsbD, Nat.testBit_eq_decide_div_mod_eq]
  rw [idKind, hbit]
  rcases Nat.mod_two_eq_zero_or_one (id.toNat / 32768) with h | h <;> simp [h]

/-! INIT's checks (42_commands.md R173 steps 1, 3, 4). -/

theorem initCheck_of_length {p : Params} {payload : List Byte} (h : payload.length ≠ 2) :
    initCheck p payload = .error .ident := by
  unfold initCheck
  split
  · simp at h
  · rfl

theorem initCheck_of_reserved (p : Params) {hi lo : Byte} (h : lo.toNat % 16 ≠ 0) :
    initCheck p [hi, lo] = .error .reserved := by
  have hres : idReserved (field16 hi lo) ≠ 0 := by
    intro hz
    have hnat := idReserved_toNat (field16 hi lo)
    rw [hz, field16_toNat] at hnat
    simp at hnat
    omega
  exact if_pos hres

theorem idReserved_eq_zero {hi lo : Byte} (h : lo.toNat % 16 = 0) : idReserved (field16 hi lo) = 0 := by
  apply BitVec.eq_of_toNat_eq
  rw [idReserved_toNat, field16_toNat]
  simp
  omega

theorem idAddrWidth_field16 (hi lo : Byte) : (idAddrWidth (field16 hi lo)).toNat = lo.toNat / 16 % 8 := by
  rw [idAddrWidth_toNat, field16_toNat]
  omega

theorem initCheck_of_width {p : Params} {hi lo : Byte} (h : lo.toNat % 16 = 0) (hw : p.aMax < lo.toNat / 16 % 8) :
    initCheck p [hi, lo] = .error .ident := by
  simp [initCheck, idReserved_eq_zero h, idAddrWidth_field16, hw]

theorem initCheck_ok {p : Params} {hi lo : Byte} (h : lo.toNat % 16 = 0) (hw : lo.toNat / 16 % 8 ≤ p.aMax) :
    initCheck p [hi, lo] = .ok (field16 hi lo) := by
  simp [initCheck, idReserved_eq_zero h, idAddrWidth_field16, hw]

/-- An accepted identifier's address width is at most A_MAX (42_commands.md R173 step 4). -/
theorem initCheck_ok_width {p : Params} {payload : List Byte} {id : BitVec 16} (h : initCheck p payload = .ok id) :
    (idSession id).addrWidth.toNat ≤ p.aMax := by
  unfold initCheck at h
  split at h
  · split at h
    · cases h
    · split at h
      · cases h
      next hw => cases h; exact Nat.le_of_not_lt hw
  · cases h

theorem exec_init_of_ok {s : State} {payload : List Byte} {id : BitVec 16} (hm : s.mode = .waiting)
    (hc : initCheck s.par payload = .ok id) : exec (.init payload) s = .next (doInit id s) := by
  change execInit payload s = _
  rw [execInit, admitted_of_admits (by simp [hm]) (by simp [hm]), hc]

/-- Settles O25: the checks fail in their order, and a failed check is the answer (`exec_init_of_check`). -/
theorem initRejects : Obligations.InitRejects := by
  unfold Obligations.InitRejects
  intro s payload hm
  refine ⟨fun hlen => exec_init_of_check hm (initCheck_of_length hlen), ?_⟩
  rintro hi lo rfl
  exact ⟨fun hres => exec_init_of_check hm (initCheck_of_reserved s.par hres),
    fun hres hw => exec_init_of_check hm (initCheck_of_width hres hw)⟩

/-- The two bytes of an identifier put together (30_encoding.md R76, most significant byte first). -/
theorem field16_ofNat (v : Nat) : field16 (BitVec.ofNat 8 (v / 256)) (BitVec.ofNat 8 v) = BitVec.ofNat 16 v := by
  apply BitVec.eq_of_toNat_eq
  rw [field16_toNat]
  simp only [BitVec.toNat_ofNat]
  omega

/-- Settles O24: the identifier's bytes pass the checks, and its fields are the numbers it was put together from. -/
theorem initLoadsTheIdentifier : Obligations.InitLoadsTheIdentifier := by
  unfold Obligations.InitLoadsTheIdentifier
  intro s k e c aw hm hk he hc haw hmax
  have hlo : (BitVec.ofNat 8 (k * 32768 + e * 4096 + c * 128 + aw * 16)).toNat = (c * 128 + aw * 16) % 256 := by
    rw [BitVec.toNat_ofNat]; omega
  have hcheck := initCheck_ok (p := s.par)
    (hi := BitVec.ofNat 8 ((k * 32768 + e * 4096 + c * 128 + aw * 16) / 256))
    (lo := BitVec.ofNat 8 (k * 32768 + e * 4096 + c * 128 + aw * 16)) (by rw [hlo]; omega) (by rw [hlo]; omega)
  rw [field16_ofNat] at hcheck
  have hid : (BitVec.ofNat 16 (k * 32768 + e * 4096 + c * 128 + aw * 16)).toNat
      = k * 32768 + e * 4096 + c * 128 + aw * 16 := by
    rw [BitVec.toNat_ofNat]; omega
  generalize hx : idSession (BitVec.ofNat 16 (k * 32768 + e * 4096 + c * 128 + aw * 16)) = x
  have hkind : x.ifkind = if k = 0 then .spi else .i2c := by
    rw [← hx, idSession, idKind_eq, hid, show (k * 32768 + e * 4096 + c * 128 + aw * 16) / 32768 % 2 = k by omega]
  have hpage : x.pageSize = 2 ^ (e + 1) := by
    rw [← hx, Session.pageSize, idSession, idPageExp_toNat, hid,
      show (k * 32768 + e * 4096 + c * 128 + aw * 16) / 4096 % 8 = e by omega]
  have hcap : x.capacity = 2 ^ (c + 1) := by
    rw [← hx, Session.capacity, idSession, idCapExp_toNat, hid,
      show (k * 32768 + e * 4096 + c * 128 + aw * 16) / 128 % 32 = c by omega]
  have hwidth : x.addrWidth.toNat = aw := by
    rw [← hx, idSession, idAddrWidth_toNat, hid]; omega
  have htext : kindText x.ifkind = if k = 0 then chars ['S', 'P', 'I'] else chars ['I', '2', 'C'] := by
    rw [hkind]; split <;> rfl
  refine ⟨x, ?_, hkind, hpage, hcap, hwidth⟩
  rw [exec_init_of_ok hm hcheck, doInit, hx, respond, initText, htext, hcap, hpage]
  simp only [plus, List.append_assoc, List.cons_append]

/-! READ (42_commands.md R174). -/

theorem addrOf_of_length {x : Session} {payload : List Byte} (h : payload.length = x.addrWidth.toNat) :
    addrOf x payload = be payload := by
  rw [addrOf, addrBytes, ← h, List.take_length]

theorem readCheck_of_length {x : Session} {payload : List Byte} (h : payload.length ≠ x.addrWidth.toNat) :
    readCheck x payload = some .length := by
  simp [readCheck, h]

theorem readCheck_of_range {x : Session} {payload : List Byte} (h : payload.length = x.addrWidth.toNat)
    (hr : x.capacity ≤ be payload) : readCheck x payload = some .range := by
  simp [readCheck, h, addrOf_of_length h, hr]

theorem readCheck_eq_none {x : Session} {payload : List Byte} :
    readCheck x payload = none ↔ payload.length = x.addrWidth.toNat ∧ be payload < x.capacity := by
  by_cases h : payload.length = x.addrWidth.toNat
  · simp [readCheck, h, addrOf_of_length h]
  · simp [readCheck, h]

theorem exec_read_of_none {s : State} {payload : List Byte} (hm : s.mode = .ready)
    (hc : readCheck s.session payload = none) : exec (.read payload) s = .next (doRead s.session payload s) := by
  change execRead payload s = _
  rw [execRead, admitted_of_admits (by simp [hm]) (by simp [hm]), hc]

/-- Settles O27: the checks fail in their order, and a failed check is the answer (`exec_read_of_check`). -/
theorem readRejects : Obligations.ReadRejects := by
  unfold Obligations.ReadRejects
  rintro s x payload hm rfl
  exact ⟨fun hlen => exec_read_of_check hm (readCheck_of_length hlen),
    fun hlen hr => exec_read_of_check hm (readCheck_of_range hlen hr)⟩

/-- The line buffer has room for a READ's data after its address (20_memory.md R57). -/
theorem read_fits {p : Params} {x : Session} (payload : List Byte) (hw : x.addrWidth.toNat ≤ p.aMax) :
    x.addrWidth.toNat + 1 + readLength p x payload ≤ lineCap p := by
  have := readLength_le p x payload
  unfold lineCap
  omega

/-- Settles O26: the checks pass, and READ's effect is `doRead_spec`, whose bytes fit the line buffer. -/
theorem readAnswersFromTheChip : Obligations.ReadAnswersFromTheChip := by
  unfold Obligations.ReadAnswersFromTheChip
  rintro s x payload hm rfl hw hlen hr
  refine ⟨_, rfl, ?_⟩
  have haddr := addrOf_of_length hlen
  have hn : readLength s.par s.session payload = min s.par.nMax (s.session.capacity - be payload) := by
    rw [readLength, haddr]
  rw [exec_read_of_none hm (readCheck_eq_none.mpr ⟨hlen, hr⟩), doRead_spec _ _ _ (read_fits payload hw), haddr, hn]
  rfl

end Sys2Proof.Machine
end

section
/-! WRITE: its checks, and the exact next state in READY and in WRITING (42_commands.md R175 to R177). -/

namespace Sys2Proof.Machine

theorem exec_write_of_none {s : State} {payload : List Byte} (hm : s.mode = .ready ∨ s.mode = .writing)
    (hc : writeCheck s.session payload s = none) :
    exec (.write payload) s = .next (doWrite s.session payload s) := by
  change execWrite payload s = _
  rw [execWrite, admitted_of_admits (by rcases hm with hm | hm <;> simp [hm]) (by simp [hm]), hc]

/-- The number of data bytes is the payload's length less address and checksum (42_commands.md R175 step 2). -/
theorem dataCount_add {x : Session} {payload : List Byte} (h : x.addrWidth.toNat + 3 ≤ payload.length) :
    x.addrWidth.toNat + dataCount x payload + 2 = payload.length := by
  unfold dataCount
  omega

theorem writeCheck_of_length {x : Session} {payload : List Byte} {s : State}
    (h : payload.length < x.addrWidth.toNat + 3 ∨ x.addrWidth.toNat + 2 + s.par.nMax < payload.length) :
    writeCheck x payload s = some .length := by
  unfold writeCheck
  split
  · rfl
  · rw [if_pos]
    unfold dataCount
    omega

/-- WRITE's checks after the length (42_commands.md R175 steps 4 to 7). -/
theorem writeCheck_of_fits {x : Session} {payload : List Byte} {s : State}
    (hmin : x.addrWidth.toNat + 3 ≤ payload.length) (hmax : payload.length ≤ x.addrWidth.toNat + 2 + s.par.nMax) :
    writeCheck x payload s = if checksum (checkedBytes x payload) ≠ checksumField payload then some .checksum
      else if s.mode = .writing ∧ addrOf x payload ≠ s.wbBase + s.wbFill then some .sequence
      else if x.capacity ≤ addrOf x payload ∨ x.capacity < addrOf x payload + dataCount x payload then some .range
      else none := by
  have hn := dataCount_add hmin
  unfold writeCheck
  rw [if_neg (by omega), if_neg (by omega)]

/-- Settles O30: the checks fail in their order, and a failed check is the answer (`exec_write_of_check`). -/
theorem writeRejects : Obligations.WriteRejects := by
  unfold Obligations.WriteRejects
  rintro s x payload hm rfl
  refine ⟨fun hlen => exec_write_of_check hm (writeCheck_of_length hlen), fun hmin hmax => ⟨fun hsum => ?_,
    fun hsum => ⟨fun hw hseq => ?_, fun hcont hrange => ?_⟩⟩⟩
  · exact exec_write_of_check hm (by rw [writeCheck_of_fits hmin hmax, if_pos hsum])
  · refine exec_write_of_check (c := .sequence) hm ?_
    rw [writeCheck_of_fits hmin hmax, if_neg (by simpa using hsum), if_pos ⟨hw, hseq⟩]
  · have hseq : ¬(s.mode = .writing ∧ addrOf s.session payload ≠ s.wbBase + s.wbFill) := by
      rintro ⟨hw, hne⟩
      rcases hcont with hready | heq
      · rw [hready] at hw; cases hw
      · exact hne heq
    refine exec_write_of_check (c := .range) hm ?_
    rw [writeCheck_of_fits hmin hmax, if_neg (by simpa using hsum), if_neg hseq, if_pos (.inr hrange)]

/-- A good payload passes every check, in WRITING at the next address (42_commands.md R175). -/
theorem writeCheck_eq_none {s : State} {x : Session} {payload : List Byte} (hgood : WritePayloadGood s.par x payload)
    (hseq : s.mode = .writing → addrOf x payload = s.wbBase + s.wbFill) : writeCheck x payload s = none := by
  obtain ⟨hmin, hmax, hsum, hrange⟩ := hgood
  have hn := dataCount_add hmin
  rw [writeCheck_of_fits hmin (by omega), if_neg (by simpa using hsum), if_neg (fun h => h.2 (hseq h.1)),
    if_neg (by omega)]

/-- The state after an accepted WRITE whose buffer held `vs` at `base` before the append, where `reads` had been
issued: the full pages have gone out, and the rest is buffered (43_write_buffer.md R211, R212). -/
def writeDone (x : Session) (payload : List Byte) (base : Nat) (vs : List Byte) (reads : List ChipTxn) (s : State) :
    State :=
  let content := vs ++ dataBytes x payload
  { s with
    mode := .writing
    wb := Memory.ofBytes 0 (content.drop (content.length / x.pageSize * x.pageSize))
    wbBase := base + content.length / x.pageSize * x.pageSize
    wbFill := content.length % x.pageSize
    chip := chipAfter s.chip (pageWrites x (content.length / x.pageSize) base content)
    chipLog := s.chipLog ++ reads ++ pageWrites x (content.length / x.pageSize) base content
    resp := 0x2B#8 :: s.par.okText ++ [lineFeed]
    txptr := 0 }

/-- A partial page and N_MAX bytes fit the write buffer (00_scope.md R5). -/
theorem write_fits {p : Params} {x : Session} {payload vs : List Byte} (hvs : vs.length < x.pageSize)
    (hgood : WritePayloadGood p x payload) : vs.length + (dataBytes x payload).length ≤ wbCap p := by
  have hpage := x.pageSize_le
  have hmax := hgood.atMostNMax
  rw [dataBytes_length, wbCap]
  omega

theorem primedBytes_length (x : Session) (addr : Nat) (s : State) :
    (primedBytes x addr s).length = addr % x.pageSize := by
  unfold primedBytes
  split <;> simp_all

/-- WRITE's effect in READY: the buffer before the append is the primed start of the page (42_commands.md R176). -/
theorem doWrite_ready {s : State} {x : Session} {payload : List Byte} (hm : s.mode = .ready)
    (hgood : WritePayloadGood s.par x payload) :
    doWrite x payload s = writeDone x payload (addrOf x payload - addrOf x payload % x.pageSize)
      (primedBytes x (addrOf x payload) s) (primingRead x (addrOf x payload)) s := by
  have hlt : (primedBytes x (addrOf x payload) s).length < x.pageSize := by
    rw [primedBytes_length]; exact Nat.mod_lt _ x.pageSize_pos
  have hcap := write_fits hlt hgood
  have hprime : writePrime x (addrOf x payload) s = wbPrime x (addrOf x payload) s := by simp [writePrime, hm]
  unfold doWrite
  rcases wbPrime_spec x (addrOf x payload) s with ⟨hk, e⟩ | ⟨hk, e⟩
  · have hnil : primedBytes x (addrOf x payload) s = [] := by simp [primedBytes, hk]
    rw [hnil] at hcap
    rw [writeBuffer_spec x payload s _ [] (hprime.trans e) rfl rfl hcap]
    simp [writeDone, respond, plus, hk, primingRead, hnil]
  · have hne : ¬addrOf x payload % x.pageSize = 0 := by omega
    have hbytes : primedBytes x (addrOf x payload) s = chipAnswers s.chip s.chipLog x
        (addrOf x payload - addrOf x payload % x.pageSize) (addrOf x payload % x.pageSize) := by
      simp [primedBytes, hne]
    have hlen := primedBytes_length x (addrOf x payload) s
    rw [← hbytes] at e
    rw [writeBuffer_spec x payload s _ _ (hprime.trans e) rfl hlen.symm hcap]
    simp [writeDone, respond, plus, hne, primingRead]

/-- WRITE's effect in WRITING: the buffer before the append is what WB held (42_commands.md R177). -/
theorem doWrite_writing {s : State} {x : Session} {payload vs : List Byte} (hm : s.mode = .writing)
    (hwb : s.wb = Memory.ofBytes 0 vs) (hfill : s.wbFill = vs.length) (hlt : vs.length < x.pageSize)
    (hgood : WritePayloadGood s.par x payload) :
    doWrite x payload s = writeDone x payload s.wbBase vs [] s := by
  have hprime : writePrime x (addrOf x payload) s = s := by simp [writePrime, hm]
  unfold doWrite
  rw [writeBuffer_spec x payload s s vs hprime hwb hfill (write_fits hlt hgood)]
  simp [writeDone, respond, plus]

/-- Settles O28: the payload passes the checks, and `doWrite_ready` is the whole next state. -/
theorem writeInReadyOpensTransaction : Obligations.WriteInReadyOpensTransaction := by
  unfold Obligations.WriteInReadyOpensTransaction
  rintro s x payload hm rfl hgood
  have hcheck := writeCheck_eq_none hgood (fun hw => by rw [hm] at hw; cases hw)
  refine ⟨_, _, rfl, rfl, ?_⟩
  rw [exec_write_of_none (.inl hm) hcheck, doWrite_ready hm hgood, writeDone, List.length_append, primedBytes_length,
    dataBytes_length]

/-- Settles O29: the payload passes the checks, and `doWrite_writing` is the whole next state. -/
theorem writeInWritingContinues : Obligations.WriteInWritingContinues := by
  unfold Obligations.WriteInWritingContinues
  rintro s x payload vs base hm rfl rfl hwb hfill hlt hgood haddr
  have hcheck := writeCheck_eq_none hgood (fun _ => by rw [haddr, hfill])
  refine ⟨_, rfl, ?_⟩
  rw [exec_write_of_none (.inr hm) hcheck, doWrite_writing hm hwb hfill hlt hgood, writeDone, List.length_append,
    dataBytes_length, List.append_nil, ← hm]

/-- An accepted WRITE, from a state that meets the write buffer's invariant: what the buffer held before the append is
the page of the address up to it, and only a priming read was issued before the pages (43_write_buffer.md R210, R214). -/
theorem doWrite_eq_writeDone {s : State} {payload : List Byte} (hb : BufferInv s)
    (hm : s.mode = .ready ∨ s.mode = .writing) (hc : writeCheck s.session payload s = none) :
    ∃ vs reads, vs.length = addrOf s.session payload % s.session.pageSize
      ∧ (reads = [] ∨ reads = primingRead s.session (addrOf s.session payload))
      ∧ doWrite s.session payload s = writeDone s.session payload
          (addrOf s.session payload - addrOf s.session payload % s.session.pageSize) vs reads s := by
  obtain ⟨hgood, hseq⟩ := writeCheck_none hc
  rcases hm with hm | hm
  · exact ⟨_, _, primedBytes_length _ _ _, .inr rfl, doWrite_ready hm hgood⟩
  · obtain ⟨vs, hlen, hwb⟩ := (Memory.spans_iff _ _).mp hb.wbSpans
    obtain ⟨haligned, hpartial, _, _⟩ := hb.opened hm
    have hmod : addrOf s.session payload % s.session.pageSize = vs.length := by
      rw [hseq hm, Nat.add_mod, Nat.mod_eq_zero_of_dvd haligned, Nat.zero_add, Nat.mod_mod, ← hlen,
        Nat.mod_eq_of_lt (hlen ▸ hpartial)]
    have hbase : addrOf s.session payload - addrOf s.session payload % s.session.pageSize = s.wbBase := by
      have := hseq hm
      omega
    refine ⟨vs, [], hmod.symm, .inl rfl, ?_⟩
    rw [hbase]
    exact doWrite_writing hm hwb hlen.symm (hlen ▸ hpartial) hgood

end Sys2Proof.Machine
end

section
/-! DONE, and the running address (42_commands.md R178; 43_write_buffer.md R213, R214). -/

namespace Sys2Proof.Machine

theorem exec_done_writing {s : State} (hm : s.mode = .writing) (payload : List Byte) :
    exec (.done payload) s = .next (doDone s.session s) := by
  change execDone payload s = _
  rw [execDone, admitted_of_admits (by simp [hm]) (by simp [hm])]

theorem doDone_empty (x : Session) {s : State} (hf : s.wbFill = 0) :
    doDone x s = { s with mode := .ready, resp := 0x2B#8 :: s.par.okText ++ [lineFeed], txptr := 0 } := by
  rw [doDone, wbFinalise_empty x s hf]
  rfl

/-- The state after DONE has written out a page that the transactions `txns` completed. -/
def pageDone (page : List Byte) (txns : List ChipTxn) (s : State) : State :=
  { s with
    mode := .ready
    wb := []
    wbFill := 0
    chip := chipTake s.wbBase page s.chip
    chipLog := s.chipLog ++ txns
    resp := 0x2B#8 :: s.par.okText ++ [lineFeed]
    txptr := 0 }

theorem doDone_preserve {x : Session} {s : State} {vs : List Byte} (hwb : s.wb = Memory.ofBytes 0 vs)
    (hf : s.wbFill = vs.length) (h0 : 0 < vs.length) (hlt : vs.length < x.pageSize)
    (ht : s.par.tailFill = .preserve) :
    doDone x s = pageDone (vs ++ chipAnswers s.chip s.chipLog x (s.wbBase + vs.length) (x.pageSize - vs.length))
      [readTxn x (s.wbBase + vs.length) (x.pageSize - vs.length), writeTxn x s.wbBase
        (vs ++ chipAnswers s.chip s.chipLog x (s.wbBase + vs.length) (x.pageSize - vs.length))] s := by
  rw [doDone, wbFinalise_preserve x vs s hwb hf h0 hlt ht]
  rfl

theorem doDone_pad {x : Session} {s : State} {vs : List Byte} {v : Byte} (hwb : s.wb = Memory.ofBytes 0 vs)
    (hf : s.wbFill = vs.length) (h0 : 0 < vs.length) (hlt : vs.length < x.pageSize)
    (ht : s.par.tailFill = .pad v) :
    doDone x s = pageDone (vs ++ List.replicate (x.pageSize - vs.length) v)
      [writeTxn x s.wbBase (vs ++ List.replicate (x.pageSize - vs.length) v)] s := by
  rw [doDone, wbFinalise_pad x vs s v hwb hf h0 hlt ht]
  rfl

/-- Settles O32: DONE is admitted in WRITING, and its effect is `doDone_empty`, `doDone_preserve` or `doDone_pad`. -/
theorem doneWritesThePartialPage : Obligations.DoneWritesThePartialPage := by
  unfold Obligations.DoneWritesThePartialPage
  rintro s x payload hm rfl
  rw [exec_done_writing hm]
  refine ⟨fun hf => by rw [doDone_empty _ hf], ?_⟩
  rintro base vs rfl hwb hf h0 hlt
  exact ⟨fun ht => ⟨_, rfl, by rw [doDone_preserve hwb hf h0 hlt ht]; rfl⟩,
    fun v ht => ⟨_, rfl, by rw [doDone_pad hwb hf h0 hlt ht]; rfl⟩⟩

/-- From a state that meets the write buffer's invariant DONE leaves the chip alone, or writes the page at WB_BASE,
completed by at most one read of its missing bytes (43_write_buffer.md R213). -/
theorem doDone_cases {s : State} (hb : BufferInv s) (hm : s.mode = .writing) :
    (s.wbFill = 0 ∧ doDone s.session s
      = { s with mode := .ready, resp := 0x2B#8 :: s.par.okText ++ [lineFeed], txptr := 0 })
    ∨ ∃ page reads, s.wbFill ≠ 0 ∧ page.length = s.session.pageSize
        ∧ (reads = [] ∨ reads = [readTxn s.session (s.wbBase + s.wbFill) (s.session.pageSize - s.wbFill)])
        ∧ doDone s.session s = pageDone page (reads ++ [writeTxn s.session s.wbBase page]) s := by
  obtain ⟨vs, hlen, hwb⟩ := (Memory.spans_iff _ _).mp hb.wbSpans
  have hlt : vs.length < s.session.pageSize := hlen ▸ (hb.opened hm).partialPage
  by_cases h0 : s.wbFill = 0
  · exact .inl ⟨h0, doDone_empty _ h0⟩
  · right
    cases ht : s.par.tailFill with
    | preserve =>
      refine ⟨vs ++ chipAnswers s.chip s.chipLog s.session (s.wbBase + vs.length) (s.session.pageSize - vs.length),
        _, h0, by simp; omega, .inr rfl, ?_⟩
      rw [doDone_preserve hwb hlen.symm (by omega) hlt ht, hlen]
      rfl
    | pad v =>
      refine ⟨vs ++ List.replicate (s.session.pageSize - vs.length) v, _, h0, by simp; omega, .inl rfl, ?_⟩
      rw [doDone_pad hwb hlen.symm (by omega) hlt ht]
      rfl

/-- An accepted WRITE passed its checks and had its effect. -/
theorem exec_write_accepted {s t : State} {payload : List Byte} (h : exec (.write payload) s = .next t)
    (ha : accepted t = true) : (s.mode = .ready ∨ s.mode = .writing) ∧ writeCheck s.session payload s = none
      ∧ t = doWrite s.session payload s := by
  rcases execWrite_cases h with ⟨_, rfl⟩ | ⟨_, c, _, rfl⟩ | hok
  · simp at ha
  · simp at ha
  · exact hok

/-- What the write buffer's cursors say after an accepted WRITE (43_write_buffer.md R214). -/
theorem writeDone_running (x : Session) (payload : List Byte) (base : Nat) (vs : List Byte) (reads : List ChipTxn)
    (s : State) : (writeDone x payload base vs reads s).wbBase + (writeDone x payload base vs reads s).wbFill
      = base + vs.length + dataCount x payload := by
  have hdiv := Nat.div_add_mod' (vs ++ dataBytes x payload).length x.pageSize
  have hlen : (vs ++ dataBytes x payload).length = vs.length + dataCount x payload := by simp
  simp only [writeDone]
  omega

theorem doWrite_running {s : State} {payload : List Byte} (hb : BufferInv s)
    (hm : s.mode = .ready ∨ s.mode = .writing) (hc : writeCheck s.session payload s = none) :
    (doWrite s.session payload s).wbBase + (doWrite s.session payload s).wbFill
      = addrOf s.session payload + dataCount s.session payload := by
  obtain ⟨vs, reads, hlen, _, e⟩ := doWrite_eq_writeDone hb hm hc
  have hle := Nat.mod_le (addrOf s.session payload) s.session.pageSize
  rw [e, writeDone_running]
  omega

theorem doWrite_session (x : Session) (payload : List Byte) (s : State) :
    (doWrite x payload s).session = s.session := (writeBuffer_frame x payload s).session

/-- Settles O31: `doWrite_running`, and the continuity check of the next accepted WRITE. -/
theorem runningAddress : Obligations.RunningAddress := by
  unfold Obligations.RunningAddress
  rintro s t x payload hb rfl h ha
  obtain ⟨hm, hc, rfl⟩ := exec_write_accepted h ha
  have hrun := doWrite_running hb hm hc
  refine ⟨hrun, fun next u hnext hu => ?_⟩
  obtain ⟨_, hc', _⟩ := exec_write_accepted hnext hu
  rw [doWrite_session] at hc'
  exact ((writeCheck_none hc').2 rfl).trans hrun

end Sys2Proof.Machine
end

section
/-! Which bytes the commands leave alone (20_memory.md R50). -/

namespace Sys2Proof.Machine

theorem get_cells_chipTake (chip : Collaborator) {addr a : Nat} {page : List Byte}
    (h : a < addr ∨ addr + page.length ≤ a) :
    Memory.get (chipTake addr page chip).cells a = Memory.get chip.cells a := by
  cases chip with
  | oracle => rfl
  | reference cells => exact Memory.get_setBytes_outside cells addr a page h

/-- Page writes leave the cells outside their pages alone. -/
theorem get_cells_pageWrites (x : Session) (a : Nat) : ∀ (q base : Nat) (content : List Byte) (chip : Collaborator),
    a < base ∨ base + q * x.pageSize ≤ a →
    Memory.get (chipAfter chip (pageWrites x q base content)).cells a = Memory.get chip.cells a := by
  intro q
  induction q with
  | zero => intros; rfl
  | succ q ih =>
    intro base content chip h
    rw [Nat.succ_mul] at h
    have hpage : (content.take x.pageSize).length ≤ x.pageSize := by simp
    rw [pageWrites, chipAfter_writeTxn, ih _ _ _ (by omega), get_cells_chipTake _ (by omega)]

/-- READ stages its data in LB after the address and nowhere else (42_commands.md R174). -/
theorem doRead_lb (x : Session) (payload : List Byte) (s : State) {a : Nat}
    (h : a ≤ x.addrWidth.toNat ∨ x.addrWidth.toNat + readLength s.par x payload < a) :
    (doRead x payload s).lb.get a = s.lb.get a := by
  refine Memory.get_setBytes_outside _ _ _ _ ?_
  rw [List.length_take, chipRead_length]
  omega

/-- The pages a WRITE flushes end at the last page boundary up to the end of its data. -/
theorem pages_end (addr n page : Nat) :
    addr - addr % page + (addr % page + n) / page * page = (addr + n) / page * page := by
  rcases Nat.eq_zero_or_pos page with rfl | hpos
  · simp
  · have hsplit : addr + n = addr % page + n + addr / page * page := by
      have := Nat.div_add_mod' addr page
      omega
    have hdiv := Nat.div_add_mod' addr page
    rw [hsplit, Nat.add_mul_div_right _ _ hpos, Nat.add_mul]
    omega

/-- WRITE leaves the cells outside the pages it flushes alone. -/
theorem doWrite_cells {s : State} {payload : List Byte} (hb : BufferInv s)
    (hm : s.mode = .ready ∨ s.mode = .writing) (hc : writeCheck s.session payload s = none) {a : Nat}
    (h : a < addrOf s.session payload - addrOf s.session payload % s.session.pageSize
      ∨ (addrOf s.session payload + dataCount s.session payload) / s.session.pageSize * s.session.pageSize ≤ a) :
    Memory.get (doWrite s.session payload s).chip.cells a = Memory.get s.chip.cells a := by
  obtain ⟨vs, reads, hlen, _, e⟩ := doWrite_eq_writeDone hb hm hc
  rw [e]
  refine get_cells_pageWrites _ a _ _ _ s.chip ?_
  rwa [List.length_append, hlen, dataBytes_length, pages_end]

/-- DONE leaves the cells outside the page at WB_BASE alone, and all of them with nothing buffered. -/
theorem doDone_cells {s : State} (hb : BufferInv s) (hm : s.mode = .writing) {a : Nat}
    (h : a < s.wbBase ∨ s.wbBase + s.session.pageSize ≤ a ∨ s.wbFill = 0) :
    Memory.get (doDone s.session s).chip.cells a = Memory.get s.chip.cells a := by
  rcases doDone_cases hb hm with ⟨_, e⟩ | ⟨page, reads, hfill, hpage, _, e⟩
  · rw [e]
  · rw [e]
    exact get_cells_chipTake s.chip (by omega)

/-- Settles O22, command by command: `doRead_lb`, `doWrite_cells` and `doDone_cells`; RESET, INIT and the rejections
touch no byte of LB or the chip. -/
theorem commandsKeepOtherBytes : Obligations.CommandsKeepOtherBytes := by
  unfold Obligations.CommandsKeepOtherBytes
  refine ⟨?_, ?_, ?_, ?_, ?_, ?_⟩
  · intro payload s t h
    obtain ⟨_, rfl⟩ := execReset_cases (payload := payload) h
    exact ⟨rfl, rfl⟩
  · intro payload s t h
    rcases execInit_cases h with ⟨_, _, rfl⟩ | ⟨_, c, _, rfl⟩ | ⟨_, id, _, rfl⟩ <;> exact ⟨rfl, rfl, rfl, rfl, rfl⟩
  · intro line s t h
    obtain ⟨_, rfl⟩ := execUnrecognised_cases h
    exact ⟨rfl, rfl, rfl, rfl, rfl, rfl⟩
  · rintro payload s t x rfl h
    rcases execRead_cases h with ⟨_, _, rfl⟩ | ⟨_, c, _, rfl⟩ | ⟨_, _, rfl⟩
    · exact ⟨rfl, rfl, rfl, rfl, rfl, fun a _ => rfl⟩
    · exact ⟨rfl, rfl, rfl, rfl, rfl, fun a _ => rfl⟩
    · exact ⟨rfl, rfl, rfl, rfl, rfl, fun a => doRead_lb s.session payload s⟩
  · rintro payload s t x rfl hb h
    rcases execWrite_cases h with ⟨_, rfl⟩ | ⟨_, c, _, rfl⟩ | ⟨hm, hc, rfl⟩
    · exact ⟨rfl, rfl, fun a _ => rfl⟩
    · exact ⟨rfl, rfl, fun a _ => rfl⟩
    · exact ⟨(writeBuffer_frame s.session payload s).lb, doWrite_session _ _ _, fun a => doWrite_cells hb hm hc⟩
  · rintro payload s t x base rfl rfl hb h
    rcases execDone_cases (payload := payload) h with ⟨_, _, rfl⟩ | ⟨hm, rfl⟩
    · exact ⟨rfl, rfl, rfl, fun a _ => rfl⟩
    · have hframe := wbFinalise_frame s.session s
      refine ⟨hframe.lb, hframe.session, ?_, fun a => doDone_cells hb hm⟩
      rcases doDone_cases hb hm with ⟨_, e⟩ | ⟨page, reads, _, _, _, e⟩
      · rw [e]
      · rw [e]
        rfl

end Sys2Proof.Machine
end

section
/-! Which chip accesses the commands make (20_memory.md R43, R46 to R48, R50). -/

namespace Sys2Proof.Machine

/-- A transaction that the session may issue (20_memory.md R43, R46 to R48). -/
def LegalTxn (p : Params) (x : Session) : ChipTxn → Prop
  | .read kind width _ n => kind = x.ifkind ∧ width = x.addrWidth ∧ 1 ≤ n ∧ n ≤ max p.nMax 255
  | .writePage kind width addr page =>
    kind = x.ifkind ∧ width = x.addrWidth ∧ page.length = x.pageSize ∧ x.pageSize ∣ addr

theorem legalTxn_read {p : Params} (x : Session) (addr : Nat) {n : Nat} (h1 : 1 ≤ n) (h2 : n ≤ max p.nMax 255) :
    LegalTxn p x (readTxn x addr n) := ⟨rfl, rfl, h1, h2⟩

theorem legalTxn_write {p : Params} {x : Session} {addr : Nat} {page : List Byte} (hlen : page.length = x.pageSize)
    (hdvd : x.pageSize ∣ addr) : LegalTxn p x (writeTxn x addr page) := ⟨rfl, rfl, hlen, hdvd⟩

theorem legalTxn_pageWrites {p : Params} {x : Session} : ∀ (q base : Nat) (content : List Byte),
    q * x.pageSize ≤ content.length → x.pageSize ∣ base → ∀ txn ∈ pageWrites x q base content, LegalTxn p x txn := by
  intro q
  induction q with
  | zero => intro base content _ _ txn h; cases h
  | succ q ih =>
    intro base content hlen hdvd txn h
    rw [Nat.succ_mul] at hlen
    rcases List.mem_cons.mp h with rfl | h
    · exact legalTxn_write (by simp; omega) hdvd
    · exact ih _ _ (by simp; omega) (Nat.dvd_add hdvd (Nat.dvd_refl _)) txn h

theorem legalTxn_primingRead {p : Params} {x : Session} {addr : Nat} :
    ∀ txn ∈ primingRead x addr, LegalTxn p x txn := by
  intro txn h
  unfold primingRead at h
  split at h
  next => cases h
  next hk =>
    have hlt := Nat.mod_lt addr x.pageSize_pos
    have hle := x.pageSize_le
    obtain rfl := List.mem_singleton.mp h
    exact legalTxn_read x _ (by omega) (by omega)

/-- Every transaction of an instruction is one the session may issue. -/
theorem exec_legalTxns {i : Instr} {s t : State} (hb : BufferInv s) (h : exec i s = .next t) :
    ∃ txns, t.chipLog = s.chipLog ++ txns ∧ ∀ txn ∈ txns, LegalTxn s.par s.session txn := by
  have hnone : ∃ txns, s.chipLog = s.chipLog ++ txns ∧ ∀ txn ∈ txns, LegalTxn s.par s.session txn :=
    ⟨[], by simp, by simp⟩
  rcases exec_cases h with ⟨c, rfl⟩ | ⟨p, _, rfl⟩ | ⟨p, id, _, _, _, rfl⟩ | ⟨p, _, _, hc, rfl⟩ | ⟨p, _, hm, hc, rfl⟩
    | ⟨p, _, hm, rfl⟩
  · exact hnone
  · exact hnone
  · exact hnone
  · obtain ⟨hlen, hrange⟩ := readCheck_eq_none.mp hc
    have hmax := readLength_le s.par s.session p
    have hpos : 1 ≤ readLength s.par s.session p := by
      have := Params.legal_nMax s.cfg.property
      rw [readLength, addrOf_of_length hlen, State.par_eq]
      omega
    refine ⟨[readTxn s.session (addrOf s.session p) (readLength s.par s.session p)], rfl, ?_⟩
    simpa using legalTxn_read s.session _ hpos (by omega)
  · obtain ⟨vs, reads, hlen, hreads, e⟩ := doWrite_eq_writeDone hb hm hc
    refine ⟨_, by rw [e, writeDone, List.append_assoc], fun txn htxn => ?_⟩
    rcases List.mem_append.mp htxn with htxn | htxn
    · rcases hreads with rfl | rfl
      · cases htxn
      · exact legalTxn_primingRead txn htxn
    · exact legalTxn_pageWrites _ _ _ (Nat.div_mul_le_self _ _) (Nat.dvd_sub_mod _) txn htxn
  · rcases doDone_cases hb hm with ⟨_, e⟩ | ⟨page, reads, hfill, hpage, hreads, e⟩
    · rw [e]
      exact hnone
    · obtain ⟨haligned, hpartial, _, _⟩ := hb.opened hm
      have hle := s.session.pageSize_le
      refine ⟨_, by rw [e, pageDone], fun txn htxn => ?_⟩
      rcases List.mem_append.mp htxn with htxn | htxn
      · rcases hreads with rfl | rfl
        · cases htxn
        · obtain rfl := List.mem_singleton.mp htxn
          exact legalTxn_read _ _ (by omega) (by omega)
      · obtain rfl := List.mem_singleton.mp htxn
        exact legalTxn_write hpage haligned

/-- Settles O34: the appended transactions are those of `exec_legalTxns`. -/
theorem chipAccessesAreLegal : Obligations.ChipAccessesAreLegal := by
  unfold Obligations.ChipAccessesAreLegal
  rintro i s t x hinv rfl h txn htxn
  obtain ⟨txns, hlog, hlegal⟩ := exec_legalTxns hinv.bufferInv h
  rw [hlog, List.drop_left] at htxn
  have htxnLegal := hlegal txn htxn
  cases txn <;> exact htxnLegal

/-- Only an accepted READ, WRITE or DONE issues a transaction (20_memory.md R50, 60_exceptions.md R234). -/
theorem exec_issues {i : Instr} {s t : State} (h : exec i s = .next t) (hlog : t.chipLog ≠ s.chipLog) :
    accepted t = true ∧ ((∃ p, i = .read p) ∨ (∃ p, i = .write p) ∨ ∃ p, i = .done p) := by
  rcases exec_cases h with ⟨c, rfl⟩ | ⟨p, _, rfl⟩ | ⟨p, id, _, _, _, rfl⟩ | ⟨p, rfl, _, _, rfl⟩ | ⟨p, rfl, _, _, rfl⟩
    | ⟨p, rfl, _, rfl⟩
  · exact absurd rfl hlog
  · exact absurd rfl hlog
  · exact absurd rfl hlog
  · exact ⟨rfl, .inl ⟨p, rfl⟩⟩
  · exact ⟨rfl, .inr (.inl ⟨p, rfl⟩)⟩
  · exact ⟨rfl, .inr (.inr ⟨p, rfl⟩)⟩

theorem issuedByEngine_of_not_exec {s : State} (hp : s.phase ≠ .exec) : issuedByEngine s = [] := by
  unfold issuedByEngine
  split
  next hexec _ => exact absurd hexec hp
  next => rfl

/-- Settles O35: `rst` outside P_EXEC finds nothing issued, every other step outside P_EXEC keeps the chip
(`step_core_cases`), and `exec_issues`. -/
theorem chipIsReachedByAcceptedTransfersOnly : Obligations.ChipIsReachedByAcceptedTransfersOnly := by
  unfold Obligations.ChipIsReachedByAcceptedTransfersOnly
  refine ⟨fun s t h hp => ?_, fun i s t => exec_issues⟩
  rcases step_core_cases h with ⟨_, rfl⟩ | hframe | ⟨hexec, _⟩
  · simp [rstEdge, State.resetWith, issuedByEngine_of_not_exec hp, chipAfter]
  · exact ⟨hframe.chipLog, hframe.chip⟩
  · exact absurd hexec hp

end Sys2Proof.Machine
end

section
/-! One WRITE and DONE on the reference collaborator (20_memory.md R59, 43_write_buffer.md R215). -/

namespace Sys2Proof.Machine

/-- The byte the reference array answers at a known cell is that cell's (20_memory.md R59). -/
theorem chipAnswers_known {cells : Memory} {history : List ChipTxn} {x : Session} {addr n i : Nat} {v : Byte}
    (hi : i < n) (hv : cells.get (addr + i) = some v) :
    (chipAnswers (.reference cells) history x addr n)[i]? = some v := by
  simp [chipAnswers, chipByte, hi, hv]

/-- The bytes that complete the last page of `content`, which belongs at `base`, given the cells after its full pages
went out and the transactions before: none if it fills its pages. -/
def completion (x : Session) (cells : Memory) (history : List ChipTxn) (base : Nat) (content : List Byte) : List Byte :=
  if content.length % x.pageSize = 0 then []
  else chipAnswers (.reference (Memory.setBytes cells base
      (content.take (content.length / x.pageSize * x.pageSize)))) history x
    (base + content.length) (x.pageSize - content.length % x.pageSize)

/-- DONE with the preserving tail after an accepted WRITE: all content and its completion stand in the array. -/
theorem doDone_writeDone {s : State} {x : Session} {payload vs : List Byte} {reads : List ChipTxn} {base : Nat}
    {cells : Memory} (ht : s.par.tailFill = .preserve) (hchip : s.chip = .reference cells) :
    (doDone x (writeDone x payload base vs reads s)).mode = .ready
    ∧ (doDone x (writeDone x payload base vs reads s)).wbFill = 0
    ∧ ∃ history, (doDone x (writeDone x payload base vs reads s)).chip
        = .reference (Memory.setBytes cells base ((vs ++ dataBytes x payload)
            ++ completion x cells history base (vs ++ dataBytes x payload))) := by
  generalize ht' : writeDone x payload base vs reads s = t
  generalize hcontent : vs ++ dataBytes x payload = content
  have hle := Nat.div_mul_le_self content.length x.pageSize
  have hdiv := Nat.div_add_mod' content.length x.pageSize
  have hfill : t.wbFill = content.length % x.pageSize := by rw [← ht', ← hcontent]; rfl
  have hpages : t.chip = .reference (Memory.setBytes cells base
      (content.take (content.length / x.pageSize * x.pageSize))) := by
    rw [← chipAfter_pageWrites x cells _ base content hle, ← hchip, ← ht', ← hcontent]; rfl
  by_cases h0 : content.length % x.pageSize = 0
  · have hfill0 : t.wbFill = 0 := hfill.trans h0
    rw [doDone_empty x hfill0]
    refine ⟨rfl, hfill0, [], hpages.trans ?_⟩
    rw [completion, if_pos h0, List.append_nil, show content.length / x.pageSize * x.pageSize = content.length by omega,
      List.take_length]
  · have hwb : t.wb = Memory.ofBytes 0 (content.drop (content.length / x.pageSize * x.pageSize)) := by
      rw [← ht', ← hcontent]; rfl
    have hrest : (content.drop (content.length / x.pageSize * x.pageSize)).length = content.length % x.pageSize := by
      rw [List.length_drop]; omega
    have hbase : t.wbBase = base + content.length / x.pageSize * x.pageSize := by rw [← ht', ← hcontent]; rfl
    have hpar : t.par = s.par := by rw [← ht']; rfl
    have hlt := Nat.mod_lt content.length x.pageSize_pos
    rw [doDone_preserve hwb (hfill.trans hrest.symm) (by omega) (by omega) (hpar ▸ ht)]
    refine ⟨rfl, rfl, t.chipLog, ?_⟩
    have hend : t.wbBase + content.length % x.pageSize = base + content.length := by omega
    have htake : (content.take (content.length / x.pageSize * x.pageSize)).length
        = content.length / x.pageSize * x.pageSize := by rw [List.length_take]; omega
    simp only [pageDone, hpages, chipTake, hrest, hend]
    rw [hbase, completion, if_neg h0]
    conv_rhs => rw [← List.take_append_drop (content.length / x.pageSize * x.pageSize) content, List.append_assoc,
      Memory.setBytes_append, htake]
    simp

/-- Content and its completion fill whole pages, and less than one page is completed. -/
theorem completion_length (x : Session) (cells : Memory) (history : List ChipTxn) (base : Nat) (content : List Byte) :
    x.pageSize ∣ (content ++ completion x cells history base content).length
    ∧ (content ++ completion x cells history base content).length < content.length + x.pageSize := by
  have hpos := x.pageSize_pos
  have hlt := Nat.mod_lt content.length hpos
  unfold completion
  split
  next h0 => exact ⟨by simpa using Nat.dvd_of_mod_eq_zero h0, by simp; omega⟩
  next h0 =>
    have hdiv := Nat.div_add_mod' content.length x.pageSize
    rw [List.length_append, chipAnswers_length]
    refine ⟨⟨content.length / x.pageSize + 1, ?_⟩, by omega⟩
    rw [Nat.mul_comm, Nat.succ_mul]
    omega

/-- A byte of the completion repeats the known cell it is stored to. -/
theorem completion_known {x : Session} {cells : Memory} {history : List ChipTxn} {base : Nat} {content : List Byte}
    {i : Nat} {v : Byte} (hi : i < (completion x cells history base content).length)
    (hv : cells.get (base + content.length + i) = some v) :
    (completion x cells history base content)[i]? = some v := by
  unfold completion at hi ⊢
  split
  next h0 => simp [h0] at hi
  next h0 =>
    rw [if_neg h0, chipAnswers_length] at hi
    refine chipAnswers_known hi ?_
    rw [Memory.get_setBytes_outside _ _ _ _ (.inr (by rw [List.length_take]; omega)), hv]

/-- A primed byte repeats the known cell it is stored to. -/
theorem primedBytes_known {x : Session} {addr i : Nat} {s : State} {cells : Memory} {v : Byte}
    (hchip : s.chip = .reference cells) (hi : i < addr % x.pageSize)
    (hv : cells.get (addr - addr % x.pageSize + i) = some v) : (primedBytes x addr s)[i]? = some v := by
  rw [primedBytes, if_neg (by omega), hchip]
  exact chipAnswers_known hi hv

/-- A page that holds no address of the data lies outside the pages of the content and its completion. -/
theorem outside_of_page {a addr n len page : Nat} (hpos : 0 < page) (hn : 0 < n) (hdvd : page ∣ len)
    (hlen : len < addr % page + n + page) (h : a / page < addr / page ∨ (addr + n - 1) / page < a / page) :
    a < addr - addr % page ∨ addr - addr % page + len ≤ a := by
  have hbase : addr - addr % page = addr / page * page := by
    have := Nat.div_add_mod' addr page
    omega
  have ha := Nat.div_mul_le_self a page
  rcases h with hlow | hhigh
  · left
    rw [hbase]
    exact (Nat.div_lt_iff_lt_mul hpos).mp hlow
  · right
    obtain ⟨q, rfl⟩ := hdvd
    have hstart : (addr / page + q) * page = addr - addr % page + page * q := by
      rw [Nat.add_mul, hbase, Nat.mul_comm q]
    have hmod := Nat.mod_le addr page
    have hlast : addr / page + q ≤ (addr + n - 1) / page + 1 := by
      rw [← Nat.add_div_right _ hpos, Nat.le_div_iff_mul_le hpos, hstart]
      omega
    calc addr - addr % page + page * q = (addr / page + q) * page := hstart.symm
      _ ≤ a / page * page := Nat.mul_le_mul_right _ (hlast.trans hhigh)
      _ ≤ a := ha

/-- Settles O36: after WRITE and DONE the array holds the primed bytes, the data and the completion from the start of
the page on (`doDone_writeDone`); the data stand at their addresses, and the other bytes repeat the known cells. -/
theorem transactionChangesExactlyItsBytes : Obligations.TransactionChangesExactlyItsBytes := by
  unfold Obligations.TransactionChangesExactlyItsBytes
  rintro s x payload finish cells hm rfl hgood ht hchip
  have hcheck := writeCheck_eq_none hgood (fun hw => by rw [hm] at hw; cases hw)
  have hwrite := (exec_write_of_none (.inl hm) hcheck).trans (congrArg _ (doWrite_ready hm hgood))
  obtain ⟨hmode, hfill, history, hafter⟩ := doDone_writeDone (x := s.session) (payload := payload)
    (vs := primedBytes s.session (addrOf s.session payload) s)
    (reads := primingRead s.session (addrOf s.session payload))
    (base := addrOf s.session payload - addrOf s.session payload % s.session.pageSize) ht hchip
  refine ⟨_, _, _, hwrite, exec_done_writing rfl finish, hmode, hfill, hafter, ?_⟩
  have hn := dataCount_add hgood.longEnough
  have hmin := hgood.longEnough
  generalize haddr : addrOf s.session payload = addr at *
  have hmodle := Nat.mod_le addr s.session.pageSize
  have hprimed := primedBytes_length s.session addr s
  have hdata := dataBytes_length s.session payload
  generalize hcontent : primedBytes s.session addr s ++ dataBytes s.session payload = content at *
  have hlen : content.length = addr % s.session.pageSize + dataCount s.session payload := by
    rw [← hcontent, List.length_append, hprimed, hdata]
  obtain ⟨hdvd, hshort⟩ := completion_length s.session cells history (addr - addr % s.session.pageSize) content
  have hwhole := List.length_append (as := content)
    (bs := completion s.session cells history (addr - addr % s.session.pageSize) content)
  refine ⟨fun k hk => ?_, fun a v hout hv => ?_, fun a hpage => ?_⟩
  · rw [Memory.get_setBytes, if_pos (by omega), List.getElem?_append_left (by omega), ← hcontent,
      List.getElem?_append_right (by omega)]
    congr 1
    omega
  · rw [Memory.get_setBytes]
    split
    next hin =>
      rcases Nat.lt_or_ge a addr with hlow | hhigh
      · rw [List.getElem?_append_left (by omega), ← hcontent, List.getElem?_append_left (by omega)]
        refine primedBytes_known hchip (by omega) ?_
        rw [← hv]
        congr 1
        omega
      · rw [List.getElem?_append_right (by omega)]
        refine completion_known (by omega) ?_
        rw [← hv]
        congr 1
        omega
    next => exact hv
  · refine Memory.get_setBytes_outside _ _ _ _ ?_
    exact outside_of_page s.session.pageSize_pos (by omega) hdvd (by omega) hpage

end Sys2Proof.Machine
end

section
/-! The response line of a command (30_encoding.md R81, R82; 41_framer.md R160 to R162; 10_state.md R25). -/

namespace Sys2Proof.Machine

/-- The texts a command in state `s` can answer after `+` (42_commands.md R172 to R175, R178). -/
inductive SuccessText (s : State) : List Byte → Prop where
  | banner : SuccessText s s.par.bannerText
  | ok : SuccessText s s.par.okText
  | init (x : Session) : SuccessText s (initText s.par x)
  | read (payload data : List Byte) (hm : s.mode = .ready) (hp : payload.length = s.session.addrWidth.toNat)
      (hd : data.length ≤ s.par.nMax) : SuccessText s (readText s.par payload data)

/-- The line a command leaves: a rejection's, or `+` and a success text. -/
theorem exec_line {i : Instr} {s t : State} (h : exec i s = .next t) :
    t.txptr = 0 ∧ ((∃ c, t.resp = minus (message s.par c) ++ [lineFeed])
      ∨ ∃ text, SuccessText s text ∧ t.resp = plus text ++ [lineFeed]) := by
  rcases exec_cases h with ⟨c, rfl⟩ | ⟨p, _, rfl⟩ | ⟨p, id, _, _, _, rfl⟩ | ⟨p, _, hm, hc, rfl⟩ | ⟨p, _, _, _, rfl⟩
    | ⟨p, _, _, rfl⟩
  · exact ⟨rfl, .inl ⟨c, rfl⟩⟩
  · exact ⟨rfl, .inr ⟨_, .banner, rfl⟩⟩
  · exact ⟨rfl, .inr ⟨_, .init (idSession id), rfl⟩⟩
  · exact ⟨rfl, .inr ⟨_, .read p _ hm (readCheck_eq_none.mp hc).1
      ((chipRead_length ..).trans_le (readLength_le s.par s.session p)), rfl⟩⟩
  · exact ⟨rfl, .inr ⟨_, .ok, rfl⟩⟩
  · exact ⟨rfl, .inr ⟨_, .ok, rfl⟩⟩

/-! No text holds an LF (60_exceptions.md R231, 30_encoding.md R81). -/

theorem oneLine_iff (text : List Byte) : Params.oneLine text = true ↔ lineFeed ∉ text := by
  simp only [Params.oneLine, List.all_eq_true, bne_iff_ne]
  exact ⟨fun h hmem => h _ hmem rfl, fun h c hc hlf => h (hlf ▸ hc)⟩

theorem lineFeed_not_mem_message {p : Params} (h : p.legal = true) (c : Cause) : lineFeed ∉ message p c := by
  simp only [Params.legal, Bool.and_eq_true] at h
  obtain ⟨⟨⟨⟨⟨⟨_, _⟩, hunrecognised⟩, hbadMode⟩, hident⟩, hreserved⟩, hlength⟩ := h
  cases c with
  | unrecognised => exact (oneLine_iff _).mp hunrecognised
  | badMode => exact (oneLine_iff _).mp hbadMode
  | ident => exact (oneLine_iff _).mp hident
  | reserved => exact (oneLine_iff _).mp hreserved
  | length => exact (oneLine_iff _).mp hlength
  | checksum => change lineFeed ∉ chars _; decide
  | range => change lineFeed ∉ chars _; decide
  | sequence => change lineFeed ∉ chars _; decide

theorem lineFeed_not_mem_dec (v : Nat) : lineFeed ∉ dec v := by
  intro hmem
  rcases mem_decDigits _ v [] lineFeed hmem with ⟨d, hd, hlf⟩ | hnil
  · have hnat := decDigit_toNat hd
    rw [← hlf] at hnat
    simp [lineFeed] at hnat
    omega
  · cases hnil

theorem lineFeed_not_mem_initText (p : Params) (x : Session) : lineFeed ∉ initText p x := by
  have hkind : lineFeed ∉ kindText x.ifkind := by cases x.ifkind <;> decide
  have hspace : lineFeed ∉ chars [' '] := by decide
  have hkb : lineFeed ∉ chars ['K', 'b', ',', ' '] := by decide
  have hpage : lineFeed ∉ chars [' ', 'b', 'y', 't', 'e', ' ', 'p', 'a', 'g', 'e', '.'] := by decide
  simp only [initText, List.mem_append, not_or]
  exact ⟨⟨⟨⟨⟨hkind, hspace⟩, lineFeed_not_mem_dec _⟩, hkb⟩, lineFeed_not_mem_dec _⟩, hpage⟩

theorem lineFeed_not_mem_success {s : State} {text : List Byte} (h : SuccessText s text) : lineFeed ∉ text := by
  have hlegal := s.cfg.property
  simp only [Params.legal, Bool.and_eq_true] at hlegal
  obtain ⟨⟨⟨⟨⟨⟨⟨_, hbanner⟩, hok⟩, _⟩, _⟩, _⟩, _⟩, _⟩ := hlegal
  cases h with
  | banner => exact (oneLine_iff _).mp hbanner
  | ok => exact (oneLine_iff _).mp hok
  | init x => exact lineFeed_not_mem_initText s.par x
  | read payload data _ _ _ => exact lineFeed_not_mem_hexText _ _

/-- Settles O19: the line is one of `exec_line`'s, whose texts hold no LF. -/
theorem everyCommandLeavesOneLine : Obligations.EveryCommandLeavesOneLine := by
  unfold Obligations.EveryCommandLeavesOneLine
  intro i s t h
  obtain ⟨htxptr, ⟨c, hresp⟩ | ⟨text, htext, hresp⟩⟩ := exec_line h
  · exact ⟨message s.par c, .inr hresp, lineFeed_not_mem_message s.cfg.property c, htxptr⟩
  · exact ⟨text, .inl hresp, lineFeed_not_mem_success htext, htxptr⟩

/-! No line is longer than RESP_CAP (10_state.md R25). -/

theorem length_decDigits_pos : ∀ (fuel v : Nat) (tail : List Byte),
    tail.length + 1 ≤ (decDigits fuel v tail).length := by
  intro fuel
  induction fuel with
  | zero => intro v tail; simp [decDigits]
  | succ fuel ih =>
    intro v tail
    unfold decDigits
    split
    · simp
    · have := ih (v / 10) (decDigit (v % 10) :: tail)
      simp only [List.length_cons] at this
      omega

/-- A smaller number has no more decimal digits. -/
theorem length_decDigits_mono : ∀ (fuel fuel' v w : Nat) (tail tail' : List Byte), v ≤ w → w < 10 ^ (fuel' + 1) →
    tail.length ≤ tail'.length → (decDigits fuel v tail).length ≤ (decDigits fuel' w tail').length := by
  intro fuel
  induction fuel with
  | zero =>
    intro fuel' v w tail tail' _ _ htail
    have := length_decDigits_pos fuel' w tail'
    simp only [decDigits, List.length_cons]
    omega
  | succ fuel ih =>
    intro fuel' v w tail tail' hvw hw htail
    by_cases hv : v < 10
    · have := length_decDigits_pos fuel' w tail'
      simp only [decDigits, if_pos hv, List.length_cons]
      omega
    · cases fuel' with
      | zero => rw [Nat.zero_add, pow_one] at hw; omega
      | succ fuel' =>
        simp only [decDigits, if_neg hv, if_neg (show ¬w < 10 by omega)]
        exact ih _ _ _ _ _ (by omega) (by rw [pow_succ] at hw; omega) (by simpa using htail)

theorem length_dec_mono {v w : Nat} (h : v ≤ w) : (dec v).length ≤ (dec w).length :=
  length_decDigits_mono _ _ v w [] [] h (lt_ten_pow_log2 w) (Nat.le_refl _)

/-- The longest INIT text is that of the largest page and the largest chip. -/
theorem initText_length_le (p : Params) (x : Session) : (initText p x).length
    ≤ (initText p { ifkind := .spi, pageExp := 7, capExp := 31, addrWidth := 0 }).length := by
  have hkind : ∀ kind, (kindText kind).length = 3 := fun kind => by cases kind <;> rfl
  generalize hy : ({ ifkind := .spi, pageExp := 7, capExp := 31, addrWidth := 0 } : Session) = y
  have hcap : x.capacity ≤ y.capacity := by rw [← hy]; exact x.capacity_le
  have hpage : x.pageSize ≤ y.pageSize := by rw [← hy]; exact x.pageSize_le
  have hcapText := length_dec_mono (Nat.div_le_div_right (c := p.kbDiv) hcap)
  have hpageText := length_dec_mono hpage
  simp only [initText, List.length_append, hkind]
  omega

theorem le_foldr_max {n : Nat} {ns : List Nat} (h : n ∈ ns) : n ≤ ns.foldr max 0 := by
  induction ns with
  | nil => cases h
  | cons m ns ih =>
    rcases List.mem_cons.mp h with rfl | h
    · exact Nat.le_max_left _ _
    · exact (ih h).trans (Nat.le_max_right _ _)

theorem message_length_le (p : Params) (c : Cause) : (message p c).length + 2 ≤ respCap p := by
  rw [respCap, Nat.add_comm]
  refine (Nat.add_le_add_left (le_foldr_max ?_) 2).trans (Nat.le_max_right _ _)
  simp only [List.mem_cons]
  cases c <;> simp only [message, true_or, or_true]

theorem success_length_le {s : State} {text : List Byte} (hs : SessionInv s) (h : SuccessText s text) :
    text.length + 2 ≤ respCap s.par := by
  simp only [respCap, List.foldr_cons, List.foldr_nil]
  cases h with
  | banner => omega
  | ok => omega
  | init x =>
    have := initText_length_le s.par x
    omega
  | read payload data hm hp hd =>
    have := hs.widthAdmitted (by rw [hm]; exact fun h => by cases h)
    simp only [readText, hexText_length, List.length_append, checksumBytes, List.length_cons, List.length_nil]
    omega

/-- Settles O20: `message_length_le` and `success_length_le`, with the two characters around the text. -/
theorem responsesFitTheirCapacity : Obligations.ResponsesFitTheirCapacity := by
  unfold Obligations.ResponsesFitTheirCapacity
  intro i s t hinv h
  obtain ⟨_, ⟨c, hresp⟩ | ⟨text, htext, hresp⟩⟩ := exec_line h
  · rw [hresp, List.length_append]
    exact message_length_le s.par c
  · rw [hresp, List.length_append]
    exact success_length_le hinv.sessionInv htext

/-! In WAITING no command reads a session field (10_state.md R17). -/

/-- Settles O47, command by command: RESET and INIT load a session without reading the old one, and everything else
is rejected. -/
theorem sessionIsNotReadInWaiting : Obligations.SessionIsNotReadInWaiting := by
  unfold Obligations.SessionIsNotReadInWaiting
  intro i s a b hm
  have hlegal : s.mode ≠ .invalid := by rw [hm]; exact fun h => by cases h
  refine ⟨exec_total hlegal, ?_⟩
  have hsame : ∀ f : Session → State, (∀ x, exec i { s with session := x } = .next (f x)) →
      withoutSession (.next (f a)) = withoutSession (.next (f b)) →
      withoutSession (exec i { s with session := a }) = withoutSession (exec i { s with session := b }) := by
    intro f hf heq
    rw [hf, hf, heq]
  have hbadMode : .badMode ∈ causesOf i .waiting → admits i .waiting = false →
      withoutSession (exec i { s with session := a }) = withoutSession (exec i { s with session := b }) :=
    fun hcause hadmits => hsame (fun x => reject .badMode { s with session := x })
      (fun x => exec_of_not_admits (s := { s with session := x }) (hm ▸ hcause) hlegal (hm ▸ hadmits)) rfl
  cases i with
  | reset payload =>
    exact hsame (fun x => doReset { s with session := x }) (fun x => resetCommandCompletes payload _ hlegal) rfl
  | init payload =>
    cases hc : initCheck s.par payload with
    | error c =>
      exact hsame (fun x => reject c { s with session := x })
        (fun x => exec_init_of_check (s := { s with session := x }) hm hc) rfl
    | ok id =>
      exact hsame (fun x => doInit id { s with session := x })
        (fun x => exec_init_of_ok (s := { s with session := x }) hm hc) rfl
  | read payload => exact hbadMode (by simp [causesOf]) rfl
  | write payload => exact hbadMode (by simp [causesOf]) rfl
  | done payload => exact hbadMode (by simp [causesOf]) rfl
  | unrecognised line =>
    exact hsame (fun x => reject .unrecognised { s with session := x })
      (fun x => exec_unrecognised line _ hlegal) rfl

end Sys2Proof.Machine
end

section
/-! The line reader, the decoder in place and the dispatcher (41_framer.md sections 1 to 3). -/

namespace Sys2Proof.Machine

/-- The line buffer after the reader has taken `line` into an empty one (41_framer.md R141, R143). -/
def lineRead (line : List Byte) (s : State) : State :=
  { s with
    lb := Memory.ofBytes 0 (line.take (lineCap s.par - 1))
    lbLen := min line.length (lineCap s.par - 1)
    lbOvf := decide (lineCap s.par - 1 < line.length) }

@[simp] theorem lineRead_lb (line : List Byte) (s : State) :
    (lineRead line s).lb = Memory.ofBytes 0 (line.take (lineCap s.par - 1)) := rfl
@[simp] theorem lineRead_lbLen (line : List Byte) (s : State) :
    (lineRead line s).lbLen = min line.length (lineCap s.par - 1) := rfl
@[simp] theorem lineRead_lbOvf (line : List Byte) (s : State) :
    (lineRead line s).lbOvf = decide (lineCap s.par - 1 < line.length) := rfl
@[simp] theorem lineRead_par (line : List Byte) (s : State) : (lineRead line s).par = s.par := rfl

theorem lineRead_nil {s : State} (hlb : s.lb = []) (hlen : s.lbLen = 0) (hovf : s.lbOvf = false) :
    lineRead [] s = s := by
  have hempty : lineRead [] s = { s with lb := [], lbLen := 0, lbOvf := false } := by simp [lineRead]
  rw [hempty, ← hlb, ← hlen, ← hovf]

/-- One more character is stored while there is room, and else sets LB_OVF. -/
theorem takeChar_lineRead {c : Byte} (hc : c ≠ lineFeed) (line : List Byte) (s : State) :
    takeChar c (lineRead line s) = lineRead (line ++ [c]) s := by
  rcases takeChar_cases c (lineRead line s) with ⟨hlf, _⟩ | ⟨_, hroom, e⟩ | ⟨_, hfull, e⟩
  · exact absurd hlf hc
  · have hlt : line.length < lineCap s.par - 1 := by
      simp only [lineRead_lbLen, lineRead_par] at hroom
      omega
    have hlb : Memory.set (lineRead line s).lb (lineRead line s).lbLen c = (lineRead (line ++ [c]) s).lb := by
      simp only [lineRead_lb, lineRead_lbLen]
      rw [Nat.min_eq_left (by omega), List.take_of_length_le (by omega), List.take_of_length_le (by simp; omega),
        Memory.set_ofBytes_end]
    have hlen : (lineRead line s).lbLen + 1 = (lineRead (line ++ [c]) s).lbLen := by simp; omega
    have hovf : (lineRead line s).lbOvf = (lineRead (line ++ [c]) s).lbOvf := by simp; omega
    rw [e, hlb, hlen, hovf]
    rfl
  · have hge : lineCap s.par - 1 ≤ line.length := by
      simp only [lineRead_lbLen, lineRead_par] at hfull
      omega
    have hlb : (lineRead line s).lb = (lineRead (line ++ [c]) s).lb := by
      simp only [lineRead_lb, List.take_append_of_le_length hge]
    have hlen : (lineRead line s).lbLen = (lineRead (line ++ [c]) s).lbLen := by simp; omega
    have hovf : true = (lineRead (line ++ [c]) s).lbOvf := by simp; omega
    rw [e, hlb, hlen, hovf]
    rfl

theorem foldl_takeChar (s : State) : ∀ line more : List Byte, lineFeed ∉ more →
    more.foldl (fun u c => takeChar c u) (lineRead line s) = lineRead (line ++ more) s := by
  intro line more
  induction more generalizing line with
  | nil => intro _; simp
  | cons c more ih =>
    intro hlf
    simp only [List.mem_cons, not_or] at hlf
    rw [List.foldl_cons, takeChar_lineRead (Ne.symm hlf.1), ih _ hlf.2, List.append_assoc, List.singleton_append]

/-- Settles O8, by induction on the characters (`foldl_takeChar`); the LF only moves PHASE on. -/
theorem lineReaderStoresCharacters : Obligations.LineReaderStoresCharacters := by
  unfold Obligations.LineReaderStoresCharacters
  intro line s hlf hlb hlen hovf
  have hfold := foldl_takeChar s [] line hlf
  rw [lineRead_nil hlb hlen hovf, List.nil_append] at hfold
  rw [hfold]
  exact ⟨rfl, if_pos rfl⟩

theorem decode_of_even {p : Params} {line : List Byte} (h : line.length % 2 = 0) :
    decode p line = .unrecognised .framing :=
  (framingErrorsExactly p line).mpr (.inr (.inl h))

theorem decode_of_none {p : Params} {c : Byte} {digits : List Byte} (h : hexPairs digits = none) :
    decode p (c :: digits) = .unrecognised .framing := by
  unfold decode
  split
  · rfl
  · simp [h]

/-- Settles O9, by the cases of the decoder in place (`decodeLine_spec`): each is the text decoder's. -/
theorem inPlaceDecoderAgrees : Obligations.InPlaceDecoderAgrees := by
  unfold Obligations.InPlaceDecoderAgrees
  rintro s t line hlb hlen hfits rfl
  refine ⟨?_, decodeLine_frame s, ?_⟩
  · rcases decodeLine_spec s line hlb hlen with ⟨hcause, e⟩ | ⟨c, digits, hovf, rfl, _, hdigits⟩
    · rw [e, fetchInstr_invalid _ rfl]
      rcases hcause with hovf | heven
      · simp [hovf]
      · simp [decode_of_even heven]
    · rcases hdigits with ⟨hnone, e⟩ | ⟨bs, hsome, e⟩
      · rw [e, fetchInstr_invalid _ rfl, decode_of_none hnone]
        simp
      · rw [e, fetchInstr_ofBytes _ c bs rfl rfl rfl rfl, hovf]
        simp only [List.length_cons] at hlen
        exact (decode_cons (by omega) hsome).symm
  · intro hvalid
    rcases decodeLine_spec s line hlb hlen with ⟨_, e⟩ | ⟨c, digits, _, rfl, _, ⟨_, e⟩ | ⟨bs, hsome, e⟩⟩
    · rw [e] at hvalid
      cases hvalid
    · rw [e] at hvalid
      cases hvalid
    · rw [e]
      exact ⟨digits, bs, rfl, hsome, rfl, rfl⟩

end Sys2Proof.Machine
end

section
/-! P_DECODE, P_EXEC and held edges (41_framer.md section 1, 42_commands.md section 1). -/

namespace Sys2Proof.Machine

/-- Settles O10: the step is ENGINE's turn (`step_engine`), which in P_EXEC runs the fetched instruction. -/
theorem stepRunsTheFetchedInstruction : Obligations.StepRunsTheFetchedInstruction := by
  unfold Obligations.StepRunsTheFetchedInstruction
  rintro s t i hphase hidle hrst hhold rfl rfl
  rw [step_engine hrst hhold hidle]
  have hfetch : fetchInstr s.turn = fetchInstr s := by rw [turn_eq]; rfl
  have hturn : engineTurn s.turn = execPhase s.turn := by simp [engineTurn, hphase]
  rw [hturn, execPhase, hfetch]
  rfl

/-- P_DECODE's turn on a line in LB: the next phase is P_EXEC, with the instruction that the line means. -/
theorem step_decode {s : State} {line : List Byte} (hphase : s.phase = .decode) (hidle : s.suart.uphase = .idle)
    (hrst : s.edge.rst = false) (hhold : s.edge.hold = false) (hlb : s.lb = Memory.ofBytes 0 line)
    (hlen : s.lbLen = line.length) (hfits : s.lbLen < lineCap s.par) (hovf : s.lbOvf = false) :
    step s = .next (decodePhase s.turn) ∧ (decodePhase s.turn).suart = s.suart
      ∧ (decodePhase s.turn).inputs = s.turn.inputs ∧ (decodePhase s.turn).steady = s.steady
      ∧ fetchInstr (decodePhase s.turn) = decode s.par line := by
  have hengine : step s = .next (decodePhase s.turn) := by
    rw [step_engine hrst hhold hidle]
    simp [engineTurn, hphase]
  obtain ⟨hfetch, hframe, _⟩ := inPlaceDecoderAgrees s.turn _ line (by simpa using hlb) (by simpa using hlen)
    (by simpa using hfits) rfl
  have hsuart : (decodeLine s.turn).suart = s.turn.suart := by rw [hframe]
  have hinputs : (decodeLine s.turn).inputs = s.turn.inputs := by rw [hframe]
  have hsteady : (decodeLine s.turn).steady = s.turn.steady := by rw [hframe]
  rw [turn_lbOvf, hovf, turn_par] at hfetch
  exact ⟨hengine, hsuart.trans (turn_suart s), hinputs, hsteady.trans (turn_steady s), hfetch⟩

theorem turn_inputs (s : State) : s.turn.inputs = if s.edge.passes then s.inputs.tail else s.inputs := by
  unfold State.turn
  split <;> rfl

/-- Settles O11: `step_decode`, and then the step of P_EXEC. -/
theorem receivedLineIsRun : Obligations.ReceivedLineIsRun := by
  unfold Obligations.ReceivedLineIsRun
  intro s line hphase hidle hrst hhold hlb hlen hfits hovf
  obtain ⟨hstep, hsuart, hinputs, _, hfetch⟩ := step_decode hphase hidle hrst hhold hlb hlen hfits hovf
  refine ⟨_, hstep, rfl, hinputs.trans (turn_inputs s), fun hrst' hhold' => ?_⟩
  exact stepRunsTheFetchedInstruction _ _ _ rfl (by rw [hsuart, hidle]) hrst' hhold' hfetch rfl

/-- Settles O13: `step_held`; where every edge holds, each step answers the same state. -/
theorem heldEdgeOnlyPasses : Obligations.HeldEdgeOnlyPasses := by
  unfold Obligations.HeldEdgeOnlyPasses
  refine ⟨fun s hidle hrst hhold => step_held hrst hhold hidle, fun s k hidle hinputs hrst hhold => ?_⟩
  have hedge : ∀ j, edgeAt s j = s.steady := by simp [edgeAt, hinputs]
  rw [run_held k s hidle (fun j _ => by rw [hedge]; exact ⟨hrst, hhold⟩), hinputs, List.drop_nil, ← hinputs]

end Sys2Proof.Machine
end

section
/-! `rst`, the reset values and the banner (70_reset_and_hazards.md sections 1, 2; 10_state.md section 10). -/

namespace Sys2Proof.Machine

/-- Settles O43: the step is `rstEdge`, whose accesses are `issuedByEngine`'s; after reset nothing is issued, so the
next one only takes its edge. -/
theorem rstActsAtAnyEdge : Obligations.RstActsAtAnyEdge := by
  unfold Obligations.RstActsAtAnyEdge
  intro s hrst
  refine ⟨rstEdge s, issuedByEngine s, step_rst hrst, rfl, ?_, ?_, fun hagain => ?_⟩
  · rintro (hphase | hissued)
    · exact issuedByEngine_of_not_exec hphase
    · unfold issuedByEngine
      split
      · split <;> simp [hissued]
      · rfl
  · rintro i u hphase hidle rfl hexec
    exact issuedByEngine_of_exec hphase hidle hexec
  · rw [step_rst hagain, rstEdge, issuedByEngine_of_not_exec (by exact fun h => by cases h)]
    simp [rstEdge, State.resetWith, chipAfter]

theorem decodePhase_phase (s : State) : (decodePhase s).phase = .exec := rfl

theorem decodePhase_draws (s : State) : (decodePhase s).draws = s.draws := by
  rw [decodePhase, decodeLine_frame s]

theorem edgeAt_of_tail {s t : State} (hinputs : t.inputs = s.inputs.tail) (hsteady : t.steady = s.steady) (k : Nat) :
    edgeAt t k = edgeAt s (k + 1) := by
  simp [edgeAt, hinputs, hsteady, List.getD_eq_getElem?_getD]

/-- Settles O12: decoding takes the first edge, the held edges pass (`run_held`), and the edge with `rst` finds the
accesses of `issuedByEngine`. -/
theorem commandIsCutShortByRst : Obligations.CommandIsCutShortByRst := by
  unfold Obligations.CommandIsCutShortByRst
  intro s line n hphase hidle hlb hlen hfits hovf hrst hhold hpasses hheld hend
  rw [← State.edge_eq] at hrst hhold hpasses
  obtain ⟨hstep, hsuart, hinputs, hsteady, hfetch⟩ := step_decode hphase hidle hrst hhold hlb hlen hfits hovf
  have hcore := (turn_core s).trans (decodePhase_core s.turn)
  have hdraws := (decodePhase_draws s.turn).trans (turn_draws s)
  have hexec := decodePhase_phase s.turn
  replace hinputs := hinputs.trans ((turn_inputs s).trans (if_pos hpasses))
  generalize decodePhase s.turn = d at *
  have hedge : ∀ k, edgeAt d k = edgeAt s (k + 1) := fun k => edgeAt_of_tail hinputs hsteady k
  have hrun : Host.Core.run Sys2Proof.core n d = .next { d with inputs := d.inputs.drop n } :=
    run_held n d (hsuart ▸ hidle) (fun k hk => hedge k ▸ hheld (k + 1) (by omega) (by omega))
  have hwait : Host.Core.run Sys2Proof.core (1 + n) s = .next { d with inputs := d.inputs.drop n } := by
    rw [Nat.add_comm, run_succ n s d hstep, hrun]
  generalize ht : { d with inputs := d.inputs.drop n } = t at *
  have htedge : t.edge = edgeAt s (n + 1) := by
    rw [State.edge_eq, ← hedge, ← ht]
    simp [edgeAt, List.getD_eq_getElem?_getD]
  have htlog : t.chipLog = s.chipLog := by rw [← ht]; exact hcore.chipLog
  refine ⟨t, issuedByEngine t, hwait, by rw [← ht]; exact hexec, ?_, fun u hu => ?_⟩
  · rw [run_add (1 + n) 1 s t hwait, run_succ 0 t _ (step_rst (htedge ▸ hend)), rstEdge, ← ht]
    simp [Host.Core.run, hcore.cfg, hsteady, hcore.chip, hcore.chipLog, hdraws, hinputs]
  · have htfetch : fetchInstr t = decode s.par line := by rw [← ht]; exact hfetch
    have htphase : t.phase = .exec := by rw [← ht]; exact hexec
    have htidle : t.suart.uphase = .idle := by rw [← ht]; exact hsuart ▸ hidle
    rw [issuedByEngine_of_exec htphase htidle (htfetch ▸ hu), htlog, htedge]

/-- Settles O44: field by field of the state after reset; empty arrays hold no value. -/
theorem resetValuesOfTheTable : Obligations.ResetValuesOfTheTable := by
  unfold Obligations.ResetValuesOfTheTable
  rintro cfg inputs steady chip log draws s rfl
  exact ⟨rfl, rfl, rfl, rfl, rfl, rfl, rfl, rfl, rfl, rfl, rfl, rfl, rfl, fun a => ⟨Memory.get_nil a, Memory.get_nil a⟩⟩

/-- ENGINE's turn at an edge that it neither waits at nor takes (entry 4). -/
theorem step_of_noDelay {s : State} {n : Nat} (h : noDelay s (n + 1)) (hidle : s.suart.uphase = .idle) :
    step s = engineTurn s := by
  obtain ⟨hrst, hhold, hpasses⟩ := h 0 (by omega)
  rw [← State.edge_eq] at hrst hhold hpasses
  rw [step_engine hrst hhold hidle, turn_of_not_passes hpasses]

/-- Settles O45: two turns of ENGINE in P_BANNER, the first with no response staged and the second with the banner. -/
theorem bannerFollowsReset : Obligations.BannerFollowsReset := by
  unfold Obligations.BannerFollowsReset
  rintro cfg inputs steady chip log draws s rfl hdelay
  generalize hs : State.resetWith cfg inputs steady chip log draws = s at *
  have hstage : step s = .next (respond (bannerLine s.par) s) := by
    rw [step_of_noDelay hdelay (by rw [← hs]; rfl), ← hs]
    rfl
  have hstart : step (respond (bannerLine s.par) s)
      = .next { respond (bannerLine s.par) s with suart := txEnter s.par 0x2B#8 s.suart } := by
    rw [step_of_noDelay (s := respond (bannerLine s.par) s) hdelay (by rw [← hs]; rfl), ← hs]
    rfl
  refine ⟨_, _, hstage, ?_, rfl, ?_, ?_, hstart, txEnter_uphase .., txEnter_crit .., rfl, rfl, ?_⟩ <;> rw [← hs] <;> rfl

end Sys2Proof.Machine
end

section
/-! The poll for a start bit, and the order of the phases (40_softuart.md R120, R121; 10_state.md R22). -/

namespace Sys2Proof.Machine

/-- Settles O40: ENGINE's turn in P_RXLINE is `beginReceive`, and a cycle of the poll is `rxPoll`. -/
theorem pollWaitsForTheStartEdge : Obligations.PollWaitsForTheStartEdge := by
  unfold Obligations.PollWaitsForTheStartEdge
  refine ⟨?_, fun s hwait hrst => ⟨fun hrxd => ?_, fun hrxd => ?_⟩⟩
  · rintro s t hphase hidle hrst hhold rfl
    have hturn : engineTurn s.turn = .next (beginReceive s.turn) := by simp [engineTurn, hphase]
    have henter : rxEnter s.par s.suart
        = { s.suart with uphase := .rxWait, txdOe := if s.par.singleWire then false else s.suart.txdOe } := by
      cases hwire : s.par.singleWire <;> simp [rxEnter, hwire]
    rw [step_engine hrst hhold hidle, hturn, beginReceive, turn_par, turn_suart, henter]
    rfl
  · rw [step_poll hrst hwait, hrxd]
    rfl
  · refine ⟨_, step_poll hrst hwait, ?_⟩
    rw [hrxd]
    exact ⟨rfl, rfl, rfl⟩

theorem takeChar_phase (c : Byte) (s : State) : (takeChar c s).phase = s.phase ∨ (takeChar c s).phase = .decode := by
  rcases takeChar_cases c s with ⟨_, e⟩ | ⟨_, _, e⟩ | ⟨_, _, e⟩ <;> rw [e]
  · exact .inr rfl
  · exact .inl rfl
  · exact .inl rfl

theorem txCycle_phase (s : State) : (txCycle s).phase = s.phase := by
  rcases txCycle_cases s with ⟨_, e⟩ | ⟨_, e⟩ | ⟨_, _, e⟩ | ⟨_, _, _, e⟩ | ⟨_, _, _, e⟩ <;> rw [e]

theorem rxCycle_phase (rxd : Bool) (s : State) :
    (rxCycle rxd s).phase = s.phase ∨ (rxCycle rxd s).phase = .decode := by
  rcases rxCycle_cases rxd s with ⟨_, e⟩ | ⟨_, _, e⟩ | ⟨_, _, e⟩ <;> rw [e]
  · exact .inl rfl
  · exact .inl rfl
  · exact takeChar_phase _ _

theorem sendNext_phase (s : State) : (sendNext s).phase = s.phase ∨ (sendNext s).phase = .rxLine := by
  unfold sendNext
  split
  · exact .inl rfl
  · exact .inr rfl

theorem sendBanner_phase (s : State) : (sendBanner s).phase = s.phase ∨ (sendBanner s).phase = .rxLine := by
  unfold sendBanner
  split
  · exact .inl rfl
  · exact sendNext_phase s

/-- Settles O46, by the cases of a step: SUART's cycles leave PHASE, but that the end of a line received in P_RXLINE
moves it to P_DECODE; ENGINE's turns move it on. -/
theorem phasesFollowInOrder : Obligations.PhasesFollowInOrder := by
  unfold Obligations.PhasesFollowInOrder
  intro s t hinv hrst h
  rcases step_cases h with ⟨hr, _⟩ | ⟨_, _, rfl⟩ | ⟨_, _, rfl⟩ | ⟨_, hframe, rfl⟩ | ⟨_, _, _, rfl⟩ | ⟨_, _, _, hturn⟩
  · rw [hrst] at hr; cases hr
  · exact .inl (txCycle_phase _)
  · exact .inl rfl
  · have hrx := hinv.suartInv.receives (.inr hframe)
    rcases rxCycle_phase s.edge.rxd s.tick with hsame | hdecode
    · exact .inl hsame
    · rw [hrx, hdecode]; simp
  · exact .inl rfl
  · rcases engineTurn_cases hturn with ⟨hp, rfl⟩ | ⟨hp, rfl⟩ | ⟨hp, rfl⟩ | ⟨hp, u, _, rfl⟩ | ⟨hp, rfl⟩ <;>
      rw [turn_phase] at hp
    · rcases sendBanner_phase s.turn with hsame | hnext
      · exact .inl (hsame.trans (turn_phase s))
      · rw [hp, hnext]; simp
    · exact .inl (turn_phase s)
    · rw [hp, decodePhase_phase]; simp
    · rw [hp]; simp
    · rcases sendNext_phase s.turn with hsame | hnext
      · exact .inl (hsame.trans (turn_phase s))
      · rw [hp, hnext]; simp

end Sys2Proof.Machine
end

section
/-! The invariant after reset, and its parts that ENGINE's commands change: MODE, the session and the write buffer
(10_state.md sections 2, 3). -/

namespace Sys2Proof.Machine

/-- Settles O49: every part of the invariant holds of the reset values. -/
theorem resetMeetsTheInvariant : Obligations.ResetMeetsTheInvariant := by
  unfold Obligations.ResetMeetsTheInvariant
  intro cfg inputs steady chip log draws hcells
  generalize hs : State.resetWith cfg inputs steady chip log draws = s
  have hcap : 0 < lineCap s.par := by rw [lineCap_eq]; omega
  have hmode : s.mode = .waiting := by rw [← hs]; rfl
  have hphase : s.phase = .banner := by rw [← hs]; rfl
  have hidle : s.suart.uphase = .idle := by rw [← hs]; rfl
  constructor
  · exact ⟨by simp [hmode], fun h => absurd hmode h⟩
  · refine ⟨by rw [← hs]; rfl, fun _ => by rw [← hs]; rfl, fun h => ?_, by rw [← hs]; exact hcells⟩
    rw [hmode] at h; cases h
  · have hlb : s.lb = [] := by rw [← hs]; rfl
    refine ⟨by rw [hlb]; rfl, by simp [hlb], by rw [← hs] at hcap ⊢; exact hcap, by rw [← hs]; exact Nat.zero_le _, ?_,
      fun h => ?_, fun _ => .inl ⟨by rw [← hs]; rfl, by rw [← hs]; rfl, hidle⟩, by rw [← hs]; exact Nat.zero_le _⟩
    · rintro (h | h) <;> (rw [hphase] at h; cases h)
    · rw [hphase] at h; cases h
  · refine ⟨by rw [← hs]; rfl, fun _ => by rw [← hs]; rfl, fun hwires => ?_, fun _ => by rw [← hs]; exact ⟨rfl, rfl, rfl, rfl⟩,
      fun h => ?_, ?_, fun h => ?_⟩
    · have hoe : s.suart.txdOe = !s.par.singleWire := by rw [← hs]; rfl
      rw [hoe, hwires]; rfl
    · rw [hidle] at h; cases h
    · rintro (h | h) <;> (rw [hidle] at h; cases h)
    · rw [hidle] at h; cases h

theorem SessionInv.of_core {s t : State} (h : SessionInv s) (hf : CoreFrame s t) : SessionInv t := by
  have hpar : t.par = s.par := congrArg Subtype.val hf.cfg
  exact ⟨by rw [hf.mode]; exact h.modeLegal, by rw [hf.mode, hf.session, hpar]; exact h.widthAdmitted⟩

theorem BufferInv.of_core {s t : State} (h : BufferInv s) (hf : CoreFrame s t) : BufferInv t :=
  ⟨by rw [hf.wb, hf.wbFill]; exact h.wbSpans, by rw [hf.mode, hf.wbFill]; exact h.closed,
    by rw [hf.mode, hf.session, hf.wbBase, hf.wbFill]; exact h.opened, by rw [hf.chip]; exact h.cellsWf⟩

/-- A session admitted in one state is admitted in another that keeps it, its parameters and a mode other than WAITING. -/
theorem SessionInv.of_session {s t : State} (h : SessionInv s) (hm : s.mode ≠ .waiting) (hmode : t.mode ≠ .invalid)
    (hsession : t.session = s.session) (hcfg : t.cfg = s.cfg) : SessionInv t := by
  have hpar : t.par = s.par := congrArg Subtype.val hcfg
  exact ⟨hmode, fun _ => by rw [hsession, hpar]; exact h.widthAdmitted hm⟩

/-- Every command keeps the session's invariant (42_commands.md R173 step 4, R180). -/
theorem exec_sessionInv {i : Instr} {s t : State} (hs : SessionInv s) (h : exec i s = .next t) : SessionInv t := by
  have hlegal := exec_mode_ne_invalid hs.modeLegal h
  have hcfg := (exec_frame h).cfg
  rcases exec_cases h with ⟨c, rfl⟩ | ⟨p, _, rfl⟩ | ⟨p, id, _, hm, hid, rfl⟩ | ⟨p, _, hm, _, rfl⟩ | ⟨p, _, hm, _, rfl⟩
    | ⟨p, _, hm, rfl⟩
  · exact ⟨hs.modeLegal, hs.widthAdmitted⟩
  · exact ⟨hlegal, fun hne => absurd rfl hne⟩
  · exact ⟨hlegal, fun _ => initCheck_ok_width hid⟩
  · exact hs.of_session (by simp [hm]) hlegal rfl hcfg
  · exact hs.of_session (by rcases hm with hm | hm <;> simp [hm]) hlegal (doWrite_session _ _ _) hcfg
  · exact hs.of_session (by simp [hm]) hlegal (wbFinalise_frame s.session s).session hcfg

/-- With nothing buffered and no transaction open the write buffer's invariant is the chip's canonical form. -/
theorem bufferInv_closed {t : State} (hm : t.mode ≠ .writing) (hwb : t.wb.spans 0) (hfill : t.wbFill = 0)
    (hcells : Memory.wf t.chip.cells = true) : BufferInv t :=
  ⟨by rw [hfill]; exact hwb, fun _ => hfill, fun h => absurd h hm, hcells⟩

/-- An accepted WRITE leaves an open transaction (10_state.md R32, 43_write_buffer.md R211 to R214). -/
theorem doWrite_bufferInv {s : State} {payload : List Byte} (hb : BufferInv s)
    (hm : s.mode = .ready ∨ s.mode = .writing) (hc : writeCheck s.session payload s = none) :
    BufferInv (doWrite s.session payload s) := by
  have hrun := doWrite_running hb hm hc
  obtain ⟨hgood, _⟩ := writeCheck_none hc
  have hn := dataCount_add hgood.longEnough
  have hmin := hgood.longEnough
  obtain ⟨vs, reads, hlen, _, e⟩ := doWrite_eq_writeDone hb hm hc
  rw [e] at hrun ⊢
  refine ⟨?_, fun hne => absurd rfl hne, fun _ => ⟨?_, Nat.mod_lt _ s.session.pageSize_pos, ?_, ?_⟩,
    wf_cells_chipAfter _ _ hb.cellsWf⟩
  · refine (Memory.spans_iff _ _).mpr ⟨_, ?_, rfl⟩
    have hdiv := Nat.div_add_mod' (vs ++ dataBytes s.session payload).length s.session.pageSize
    rw [List.length_drop]
    simp only [writeDone]
    omega
  · exact Nat.dvd_add (Nat.dvd_sub_mod _) (Nat.dvd_mul_left _ _)
  · exact hrun ▸ hgood.inRange
  · rw [hrun]
    omega

/-- Every command keeps the write buffer's invariant. -/
theorem exec_bufferInv {i : Instr} {s t : State} (hb : BufferInv s) (h : exec i s = .next t) : BufferInv t := by
  rcases exec_cases h with ⟨c, rfl⟩ | ⟨p, _, rfl⟩ | ⟨p, id, _, hm, _, rfl⟩ | ⟨p, _, _, _, rfl⟩ | ⟨p, _, hm, hc, rfl⟩
    | ⟨p, _, hm, rfl⟩
  · exact ⟨hb.wbSpans, hb.closed, hb.opened, hb.cellsWf⟩
  · exact bufferInv_closed (by simp) rfl rfl hb.cellsWf
  · have hfill : s.wbFill = 0 := hb.closed (by simp [hm])
    exact bufferInv_closed (by simp) (hfill ▸ hb.wbSpans) hfill hb.cellsWf
  · exact ⟨hb.wbSpans, hb.closed, hb.opened, hb.cellsWf⟩
  · exact doWrite_bufferInv hb hm hc
  · rcases doDone_cases hb hm with ⟨hfill, e⟩ | ⟨page, reads, _, _, _, e⟩ <;> rw [e]
    · exact bufferInv_closed (fun hc => by cases hc) (hfill ▸ hb.wbSpans) hfill hb.cellsWf
    · exact bufferInv_closed (fun hc => by cases hc) rfl rfl (wf_cells_chipTake _ _ _ hb.cellsWf)

end Sys2Proof.Machine
end

section
/-! The invariant of the line buffer and the response (10_state.md R21, R24, R25). -/

namespace Sys2Proof.Machine

theorem FramerInv.tick {s : State} (h : FramerInv s) : FramerInv s.tick := { h with }

/-- SUART's registers and the cursor may change where the response is not empty. -/
theorem FramerInv.sending {s : State} (h : FramerInv s) (u : Suart) {n : Nat} (hn : n ≤ s.resp.length)
    (hresp : s.phase = .banner → s.resp ≠ []) : FramerInv { s with suart := u, txptr := n } where
  lbWf := h.lbWf
  lbWithin := h.lbWithin
  lbLenFits := h.lbLenFits
  dlenFits := h.dlenFits
  reading := h.reading
  decoded := h.decoded
  banner hp := .inr ((h.banner hp).resolve_left fun hnil => hresp hp hnil.1)
  txptrFits := hn

/-- A line buffer that holds exactly some bytes is in canonical form and within LINE_CAP. -/
theorem lb_of_spans {m : Memory} {n cap : Nat} (h : m.spans n) (hn : n ≤ cap) :
    Memory.wf m = true ∧ ∀ c ∈ m, c.1 < cap :=
  ⟨Memory.wf_of_spans m n h, fun _ hc => (Memory.lt_of_spans h hc).trans_le hn⟩

/-- A received character keeps the framer's invariant (41_framer.md R141, R143). -/
theorem takeChar_framer {s : State} (c : Byte) (h : FramerInv s) (hp : s.phase = .rxLine) :
    FramerInv (takeChar c s) := by
  have hspans := h.reading (.inl hp)
  rcases takeChar_cases c s with ⟨_, e⟩ | ⟨_, hroom, e⟩ | ⟨_, _, e⟩ <;> rw [e]
  · exact { h with
      reading := fun _ => hspans
      decoded := fun hc => by cases hc
      banner := fun hc => by cases hc }
  · obtain ⟨vs, hlen, hlb⟩ := (Memory.spans_iff _ _).mp hspans
    have hnew : (Memory.set s.lb s.lbLen c).spans (s.lbLen + 1) := by
      rw [hlb, ← hlen, Memory.set_ofBytes_end]
      exact (Memory.spans_iff _ _).mpr ⟨_, by simp, rfl⟩
    obtain ⟨hwf, hwithin⟩ := lb_of_spans hnew (show s.lbLen + 1 ≤ lineCap s.par by omega)
    exact { h with
      lbWf := hwf
      lbWithin := hwithin
      lbLenFits := (show s.lbLen + 1 < lineCap s.par by omega)
      reading := fun _ => hnew
      decoded := fun hc => by rw [hp] at hc; cases hc }
  · exact { h with }

theorem enterRxLine_framer {s : State} (h : FramerInv s) : FramerInv (enterRxLine s) where
  lbWf := rfl
  lbWithin := by simp
  lbLenFits := by rw [enterRxLine_lbLen, lineCap_eq]; omega
  dlenFits := h.dlenFits
  reading _ := rfl
  decoded hc := by cases hc
  banner hc := by cases hc
  txptrFits := h.txptrFits

theorem sendNext_framer {s : State} (h : FramerInv s) : FramerInv (sendNext s) := by
  unfold sendNext
  split
  next b hb => exact h.sending _ h.txptrFits fun _ hnil => by simp [hnil] at hb
  next => exact enterRxLine_framer h

/-- A staged response is sent from its start; a banner in P_BANNER (41_framer.md R140, R160). -/
theorem respond_framer {s : State} (h : FramerInv s) (text : List Byte)
    (hp : s.phase = .banner → text = bannerLine s.par) : FramerInv (respond text s) :=
  { h with
    banner := fun hb => .inr (by rw [respond_resp, hp hb]; rfl)
    txptrFits := Nat.zero_le _ }

theorem sendBanner_framer {s : State} (h : FramerInv s) : FramerInv (sendBanner s) := by
  unfold sendBanner
  split
  · exact respond_framer h _ fun _ => rfl
  · exact sendNext_framer h

/-- The decoder leaves the command and the payload's bytes in LB, or nothing (41_framer.md R144 to R147). -/
theorem decodePhase_framer {s : State} (h : FramerInv s) (hp : s.phase = .decode) : FramerInv (decodePhase s) := by
  obtain ⟨line, hlen, hlb⟩ := (Memory.spans_iff _ _).mp (h.reading (.inr hp))
  have hfits := h.lbLenFits
  have hcap := lineCap_eq s.par
  have hinvalid : ∀ dlen cmd, dlen ≤ maxPayload s.par →
      FramerInv { markInvalid { s with cmd := cmd, dlen := dlen } with phase := .exec } := fun dlen cmd hd =>
    { h with
      lbWf := rfl
      lbWithin := fun c hc => by cases hc
      dlenFits := hd
      reading := by rintro (hc | hc) <;> cases hc
      decoded := fun _ hc => by cases hc
      banner := fun hc => by cases hc }
  unfold decodePhase
  rcases decodeLine_spec s line hlb hlen.symm with ⟨_, e⟩ | ⟨c, digits, _, rfl, heven, ⟨_, e⟩ | ⟨bs, hbs, e⟩⟩ <;> rw [e]
  · exact hinvalid s.dlen s.cmd h.dlenFits
  · refine hinvalid _ c ?_
    simp only [List.length_cons] at hlen
    omega
  · have hlength := hexPairs_length digits bs hbs
    simp only [List.length_cons] at hlen
    have hspans : (Memory.ofBytes 0 (c :: bs)).spans (bs.length + 1) := Memory.spans_ofBytes (c :: bs)
    obtain ⟨hwf, hwithin⟩ := lb_of_spans hspans (show bs.length + 1 ≤ lineCap s.par by omega)
    exact { h with
      lbWf := hwf
      lbWithin := hwithin
      dlenFits := (show bs.length ≤ maxPayload s.par by omega)
      reading := by rintro (hc | hc) <;> cases hc
      decoded := fun _ _ => hspans
      banner := fun hc => by cases hc }

/-- Only READ writes to LB, and stays within its cells (20_memory.md R57). -/
theorem exec_lb {i : Instr} {s t : State} (h : exec i s = .next t) :
    t.lb = s.lb ∨ ∃ a vs, t.lb = storeBytes (lineCap s.par) s.lb a vs := by
  rcases exec_cases h with ⟨c, rfl⟩ | ⟨p, _, rfl⟩ | ⟨p, id, _, _, _, rfl⟩ | ⟨p, _, _, _, rfl⟩ | ⟨p, _, _, _, rfl⟩
    | ⟨p, _, _, rfl⟩
  · exact .inl rfl
  · exact .inl rfl
  · exact .inl rfl
  · exact .inr ⟨_, _, rfl⟩
  · exact .inl (writeBuffer_frame s.session p s).lb
  · exact .inl (wbFinalise_frame s.session s).lb

/-- Every command keeps the framer's invariant, with PHASE moved to P_RESPOND. -/
theorem exec_framer {i : Instr} {s t : State} (hf : FramerInv s) (h : exec i s = .next t) :
    FramerInv { t with phase := .respond } := by
  have hframe := exec_frame h
  have hpar : t.par = s.par := congrArg Subtype.val hframe.cfg
  have hlb : Memory.wf t.lb = true ∧ ∀ c ∈ t.lb, c.1 < lineCap t.par := by
    rcases exec_lb h with e | ⟨a, vs, e⟩ <;> rw [e, hpar]
    · exact ⟨hf.lbWf, hf.lbWithin⟩
    · exact ⟨wf_storeBytes _ _ _ _ hf.lbWf, fun c hc =>
        (mem_storeBytes_lt _ _ _ _ c hc).elim (hf.lbWithin c) id⟩
  exact {
    lbWf := hlb.1
    lbWithin := hlb.2
    lbLenFits := show t.lbLen < lineCap t.par by rw [hframe.lbLen, hpar]; exact hf.lbLenFits
    dlenFits := show t.dlen ≤ maxPayload t.par by rw [hframe.dlen, hpar]; exact hf.dlenFits
    reading := by rintro (hc | hc) <;> cases hc
    decoded := fun hc => by cases hc
    banner := fun hc => by cases hc
    txptrFits := show t.txptr ≤ t.resp.length by rw [hframe.txptr]; exact Nat.zero_le _ }

end Sys2Proof.Machine
end

section
/-! The invariant of SUART (10_state.md R26 to R28, 60_exceptions.md R241), and the whole invariant. -/

namespace Sys2Proof.Machine

theorem SuartInv.tick {s : State} (h : SuartInv s) : SuartInv s.tick := { h with }

/-- Outside a frame SUART's invariant is: idle levels and counters at rest. -/
theorem suartInv_of_rest {t : State} (hu : t.suart.uphase = .idle ∨ (t.suart.uphase = .rxWait ∧ t.phase = .rxLine))
    (hcrit : t.suart.crit = false) (htxd : t.suart.txd = true)
    (hwires : t.par.singleWire = false → t.suart.txdOe = true)
    (hrest : t.suart.bitcnt = 0 ∧ t.suart.dly = 0 ∧ t.suart.dlySub = 0 ∧ t.suart.preLeft = 0) : SuartInv t := by
  rcases hu with hu | ⟨hu, hp⟩
  · exact ⟨by simp [hcrit, hu], fun _ => htxd, hwires, fun _ => hrest, by simp [hu], by simp [hu], by simp [hu]⟩
  · exact ⟨by simp [hcrit, hu], fun _ => htxd, hwires, fun _ => hrest, by simp [hu], fun _ => hp, by simp [hu]⟩

/-- In a transmit frame SUART's invariant is: CRIT, and what `Transmitting` says. -/
theorem suartInv_of_tx {t : State} (hu : t.suart.uphase = .tx) (hcrit : t.suart.crit = true)
    (hwires : t.par.singleWire = false → t.suart.txdOe = true)
    (hsends : (t.phase = .banner ∨ t.phase = .respond) ∧ t.txptr < t.resp.length ∧ Transmitting t) : SuartInv t :=
  ⟨by simp [hcrit, hu], by simp [hu], hwires, by simp [hu], fun _ => hsends, by simp [hu], by simp [hu]⟩

/-- In a receive frame SUART's invariant is: CRIT, the idle level of TXD, P_RXLINE, and a wait in progress. -/
theorem suartInv_of_rx {t : State} (hu : t.suart.uphase = .rxFrame) (hcrit : t.suart.crit = true)
    (htxd : t.suart.txd = true) (hwires : t.par.singleWire = false → t.suart.txdOe = true) (hp : t.phase = .rxLine)
    (hbits : 1 ≤ t.suart.bitcnt ∧ t.suart.bitcnt ≤ 10) (hwait : Waiting t.par t.suart)
    (hpre : t.suart.preLeft = 0) : SuartInv t :=
  ⟨by simp [hcrit, hu], fun _ => htxd, hwires, by simp [hu], by simp [hu], fun _ => hp,
    fun _ => ⟨hbits.1, hbits.2, hwait.counting, hwait.subPos, hwait.subLe, hpre⟩⟩

/-- A wait that has not ended with a cycle goes on. -/
theorem waiting_tickDelay {p : Params} {u : Suart} (h : Waiting p u) (hd : (tickDelay p u).dly ≠ 0) :
    Waiting p (tickDelay p u) := by
  rcases tickDelay_spec h with ⟨_, hw, _⟩ | ⟨_, e⟩
  · exact hw
  · rw [e] at hd; exact absurd rfl hd

/-- A bit period of the frame of `b` in progress, with TXD at its level (40_softuart.md R112, R113). -/
structure BitPeriod (p : Params) (b : Byte) (u : Suart) : Prop where
  preLeft : u.preLeft = 0
  bitcntPos : 1 ≤ u.bitcnt
  bitcntLe : u.bitcnt ≤ 10
  waiting : Waiting p u
  txsr : u.txsr = txFrame b
  txd : u.txd = u.txsr.getLsbD (10 - u.bitcnt)

theorem transmitting_iff (s : State) : Transmitting s ↔
    (0 < s.suart.preLeft ∧ s.suart.preLeft ≤ s.par.txPre ∧ s.suart.bitcnt = 0 ∧ s.suart.dly = 0 ∧ s.suart.dlySub = 0
      ∧ s.suart.txd = true)
    ∨ ∃ b, s.resp[s.txptr]? = some b ∧ BitPeriod s.par b s.suart := by
  refine or_congr Iff.rfl ⟨?_, ?_⟩
  · rintro ⟨hpre, hpos, hle, hdly, hsub, hsubLe, ⟨b, hb, htxsr⟩, htxd⟩
    exact ⟨b, hb, hpre, hpos, hle, ⟨hdly, hsub, hsubLe⟩, htxsr, htxd⟩
  · rintro ⟨b, hb, hpre, hpos, hle, ⟨hdly, hsub, hsubLe⟩, htxsr, htxd⟩
    exact ⟨hpre, hpos, hle, hdly, hsub, hsubLe, ⟨b, hb, htxsr⟩, htxd⟩

/-- The first bit period starts (40_softuart.md R112). -/
theorem bitPeriod_startBits {p : Params} (hp : p.legal = true) (b : Byte) (u : Suart) :
    BitPeriod p b (startBits p b u) :=
  ⟨rfl, by simp, by simp, waiting_loadDelay (Params.legal_dlyUnit hp) _ (Params.legal_tTx hp), rfl, rfl⟩

/-- A cycle inside a bit period stays in it (40_softuart.md R128). -/
theorem BitPeriod.tickDelay {p : Params} {b : Byte} {u : Suart} (h : BitPeriod p b u)
    (hd : (tickDelay p u).dly ≠ 0) : BitPeriod p b (tickDelay p u) :=
  ⟨by simpa using h.preLeft, by simpa using h.bitcntPos, by simpa using h.bitcntLe, waiting_tickDelay h.waiting hd,
    by simpa using h.txsr, by simpa using h.txd⟩

/-- The next bit period carries the next level (40_softuart.md R112). -/
theorem BitPeriod.txNextBit {p : Params} (hp : p.legal = true) {b : Byte} {u : Suart} (h : BitPeriod p b u)
    (hbit : 1 < u.bitcnt) : BitPeriod p b (txNextBit p (Machine.tickDelay p u)) := by
  have hle := h.bitcntLe
  refine ⟨by simpa using h.preLeft, by simp; omega, by simp; omega,
    waiting_loadDelay (Params.legal_dlyUnit hp) _ (Params.legal_tTx hp), by simpa using h.txsr, ?_⟩
  simp only [txNextBit_txd, txNextBit_txsr, txNextBit_bitcnt, tickDelay_bitcnt, tickDelay_txsr]
  congr 1
  omega

/-- The last bit period carries the stop level (40_softuart.md R113). -/
theorem BitPeriod.txd_last {p : Params} {b : Byte} {u : Suart} (h : BitPeriod p b u) (hbit : u.bitcnt ≤ 1) :
    u.txd = true := by
  have hone : u.bitcnt = 1 := Nat.le_antisymm hbit h.bitcntPos
  rw [h.txd, h.txsr, hone]
  exact txFrame_stop b

/-- A cycle of a transmit call keeps SUART's invariant, case by case of `txCycle_cases`. -/
theorem txCycle_suart {s : State} (h : SuartInv s) (hu : s.suart.uphase = .tx) : SuartInv (txCycle s) := by
  obtain ⟨hphase, hptr, htrans⟩ := h.sends hu
  have hcrit : s.suart.crit = true := by simpa [hu] using h.critInFrame
  have hwires : s.par.singleWire = false → (tickDelay s.par s.suart).txdOe = true :=
    fun hw => (tickDelay_txdOe _ _).trans (h.twoWires hw)
  rw [transmitting_iff] at htrans
  rcases txCycle_cases s with ⟨hpre, e⟩ | ⟨hpre, e⟩ | ⟨hpre, hdly, e⟩ | ⟨hpre, _, hbit, e⟩ | ⟨hpre, _, hbit, e⟩ <;> rw [e]
  · rcases htrans with ⟨_, hle, hrest⟩ | ⟨b, _, hb⟩
    · exact suartInv_of_tx hu hcrit h.twoWires ⟨hphase, hptr, .inl ⟨Nat.sub_pos_of_lt hpre, (Nat.sub_le _ _).trans hle, hrest⟩⟩
    · have := hb.preLeft
      omega
  · have hb := List.getElem?_eq_getElem hptr
    rw [currentChar_eq hb]
    exact suartInv_of_tx hu hcrit h.twoWires
      ⟨hphase, hptr, (transmitting_iff _).mpr (.inr ⟨_, hb, bitPeriod_startBits s.cfg.property _ _⟩)⟩
  · rcases htrans with ⟨hpos, _⟩ | ⟨b, hb, hperiod⟩
    · omega
    · exact suartInv_of_tx (by simpa using hu) (by simpa using hcrit) hwires
        ⟨hphase, hptr, (transmitting_iff _).mpr (.inr ⟨b, hb, hperiod.tickDelay hdly⟩)⟩
  · rcases htrans with ⟨hpos, _⟩ | ⟨b, hb, hperiod⟩
    · omega
    · exact suartInv_of_tx (by simpa using hu) (by simpa using hcrit) hwires
        ⟨hphase, hptr, (transmitting_iff _).mpr (.inr ⟨b, hb, hperiod.txNextBit s.cfg.property hbit⟩)⟩
  · rcases htrans with ⟨hpos, _⟩ | ⟨b, hb, hperiod⟩
    · omega
    · exact suartInv_of_rest (.inl rfl) rfl (by simpa using hperiod.txd_last hbit) hwires
        ⟨rfl, rfl, rfl, rfl⟩

/-- A cycle of the poll keeps SUART's invariant: nothing changes, or a receive frame starts with `wait(T_HALF)`. -/
theorem rxPollCycle_suart {s : State} (rxd : Bool) (h : SuartInv s) (hu : s.suart.uphase = .rxWait) :
    SuartInv (rxPollCycle rxd s) := by
  obtain ⟨_, _, _, hpre⟩ := h.rests (.inr hu)
  cases rxd with
  | true => exact h
  | false =>
    exact suartInv_of_rx rfl rfl (h.idleHigh (by simp [hu])) h.twoWires (h.receives (.inl hu))
      (show 1 ≤ 10 ∧ 10 ≤ 10 by decide)
      (waiting_loadDelay (Params.legal_dlyUnit s.cfg.property) _ (Params.legal_tHalf s.cfg.property)) hpre

theorem takeChar_suart (c : Byte) (s : State) : (takeChar c s).suart = s.suart := by
  rcases takeChar_cases c s with ⟨_, e⟩ | ⟨_, _, e⟩ | ⟨_, _, e⟩ <;> rw [e]

/-- A cycle of a receive frame keeps SUART's invariant, case by case of `rxCycle_cases`. -/
theorem rxCycle_suart {s : State} (rxd : Bool) (h : SuartInv s) (hu : s.suart.uphase = .rxFrame) :
    SuartInv (rxCycle rxd s) := by
  obtain ⟨hpos, hle, hdly, hsub, hsubLe, hpre⟩ := h.samples hu
  have hcrit : s.suart.crit = true := by simpa [hu] using h.critInFrame
  have htxd := h.idleHigh (by simp [hu])
  have hphase := h.receives (.inr hu)
  have hwires : s.par.singleWire = false → (tickDelay s.par s.suart).txdOe = true :=
    fun hw => (tickDelay_txdOe _ _).trans (h.twoWires hw)
  rcases rxCycle_cases rxd s with ⟨hd, e⟩ | ⟨_, hbit, e⟩ | ⟨_, hbit, e⟩ <;> rw [e]
  · exact suartInv_of_rx (by simpa using hu) (by simpa using hcrit) (by simpa using htxd) hwires
      hphase (by simpa using ⟨hpos, hle⟩) (waiting_tickDelay ⟨hdly, hsub, hsubLe⟩ hd) (by simpa using hpre)
  · exact suartInv_of_rx (by simpa using hu) (by simpa using hcrit) (by simpa using htxd) hwires
      hphase ⟨by simp; omega, by simp; omega⟩
      (waiting_loadDelay (Params.legal_dlyUnit s.cfg.property) _ (Params.legal_tRx s.cfg.property)) (by simpa using hpre)
  · have hend := takeChar_suart s.suart.rxsr { s with suart := endFrame (tickDelay s.par s.suart) }
    have hcfg := (takeChar_core s.suart.rxsr { s with suart := endFrame (tickDelay s.par s.suart) }).cfg
    have hpar := congrArg Subtype.val hcfg
    refine suartInv_of_rest ?_ ?_ ?_ ?_ ?_ <;> rw [hend]
    · exact .inl rfl
    · rfl
    · simpa using htxd
    · rw [State.par, hpar]
      exact hwires
    · exact ⟨rfl, rfl, rfl, rfl⟩

theorem SuartInv.crit_of_idle {s : State} (h : SuartInv s) (hu : s.suart.uphase = .idle) : s.suart.crit = false :=
  h.critInFrame.trans (by rw [hu]; rfl)

/-- SUART idle keeps its invariant while ENGINE changes other registers. -/
theorem SuartInv.of_idle {s t : State} (h : SuartInv s) (hu : s.suart.uphase = .idle) (hsuart : t.suart = s.suart)
    (hcfg : t.cfg = s.cfg) : SuartInv t := by
  have hpar : t.par = s.par := congrArg Subtype.val hcfg
  have hcrit := h.crit_of_idle hu
  refine suartInv_of_rest ?_ ?_ ?_ ?_ ?_ <;> rw [hsuart]
  · exact .inl hu
  · exact hcrit
  · exact h.idleHigh (by simp [hu])
  · rw [hpar]; exact h.twoWires
  · exact h.rests (.inl hu)

/-- ENGINE's turn while a line is sent: a transmit call is entered, or the line is at its end (41_framer.md R160). -/
theorem sendNext_suart {s : State} (h : SuartInv s) (hu : s.suart.uphase = .idle)
    (hp : s.phase = .banner ∨ s.phase = .respond) : SuartInv (sendNext s) := by
  obtain ⟨hbits, hdly, hsub, _⟩ := h.rests (.inl hu)
  unfold sendNext
  split
  next b hb =>
    have hptr : s.txptr < s.resp.length := (List.getElem?_eq_some_iff.mp hb).1
    refine suartInv_of_tx (txEnter_uphase ..) (txEnter_crit ..) (fun hw => ?_) ⟨hp, hptr, (transmitting_iff _).mpr ?_⟩
    · rw [txEnter_txdOe, h.twoWires hw, Bool.or_true]
    · change (0 < (txEnter s.par b s.suart).preLeft ∧ _) ∨ ∃ b', s.resp[s.txptr]? = some b' ∧
        BitPeriod s.par b' (txEnter s.par b s.suart)
      rw [txEnter_eq]
      split
      next => exact .inr ⟨b, hb, bitPeriod_startBits s.cfg.property b _⟩
      next hpre => exact .inl ⟨Nat.pos_of_ne_zero hpre, Nat.le_refl _, hbits, hdly, hsub, rfl⟩
  next => exact h.of_idle hu rfl rfl

theorem sendBanner_suart {s : State} (h : SuartInv s) (hu : s.suart.uphase = .idle) (hp : s.phase = .banner) :
    SuartInv (sendBanner s) := by
  unfold sendBanner
  split
  · exact h.of_idle hu rfl rfl
  · exact sendNext_suart h hu (.inl hp)

theorem beginReceive_suart {s : State} (h : SuartInv s) (hu : s.suart.uphase = .idle) (hp : s.phase = .rxLine) :
    SuartInv (beginReceive s) := by
  refine suartInv_of_rest (.inr ⟨rfl, hp⟩) (h.crit_of_idle hu) (h.idleHigh (by simp [hu]))
    (fun hw => ?_) (h.rests (.inl hu))
  have hwire : s.par.singleWire = false := hw
  rw [beginReceive, rxEnter_txdOe, h.twoWires hwire, hwire]
  rfl

/-- An edge passes without changing what the invariant speaks of. -/
theorem Inv.tick {s : State} (h : Inv s) : Inv s.tick :=
  ⟨h.sessionInv.of_core (tick_core s), h.bufferInv.of_core (tick_core s), h.framerInv.tick, h.suartInv.tick⟩

theorem Inv.turn {s : State} (h : Inv s) : Inv s.turn := by
  unfold State.turn
  split
  · exact h.tick
  · exact h

/-- A state that keeps the core's registers meets the invariant if its framer and its SUART do. -/
theorem Inv.of_core {s t : State} (h : Inv s) (hc : CoreFrame s t) (hf : FramerInv t) (hu : SuartInv t) : Inv t :=
  ⟨h.sessionInv.of_core hc, h.bufferInv.of_core hc, hf, hu⟩

theorem txCycle_inv {s : State} (h : Inv s) (hu : s.suart.uphase = .tx) : Inv (txCycle s) := by
  obtain ⟨_, hptr, _⟩ := h.suartInv.sends hu
  have hresp : s.phase = .banner → s.resp ≠ [] := fun _ hnil => by simp [hnil] at hptr
  refine h.of_core (txCycle_core s) ?_ (txCycle_suart h.suartInv hu)
  rcases txCycle_cases s with ⟨_, e⟩ | ⟨_, e⟩ | ⟨_, _, e⟩ | ⟨_, _, _, e⟩ | ⟨_, _, _, e⟩ <;> rw [e]
  · exact h.framerInv.sending _ hptr.le hresp
  · exact h.framerInv.sending _ hptr.le hresp
  · exact h.framerInv.sending _ hptr.le hresp
  · exact h.framerInv.sending _ hptr.le hresp
  · exact h.framerInv.sending _ hptr hresp

theorem rxPollCycle_inv {s : State} (rxd : Bool) (h : Inv s) (hu : s.suart.uphase = .rxWait) :
    Inv (rxPollCycle rxd s) := by
  have hp := h.suartInv.receives (.inl hu)
  exact h.of_core (by constructor <;> rfl)
    (h.framerInv.sending _ h.framerInv.txptrFits fun hb => by rw [hp] at hb; cases hb) (rxPollCycle_suart rxd h.suartInv hu)

theorem rxCycle_inv {s : State} (rxd : Bool) (h : Inv s) (hu : s.suart.uphase = .rxFrame) : Inv (rxCycle rxd s) := by
  have hp := h.suartInv.receives (.inr hu)
  have hframer : ∀ u, FramerInv { s with suart := u } := fun u =>
    h.framerInv.sending u h.framerInv.txptrFits fun hb => by rw [hp] at hb; cases hb
  refine h.of_core (rxCycle_core rxd s) ?_ (rxCycle_suart rxd h.suartInv hu)
  rcases rxCycle_cases rxd s with ⟨_, e⟩ | ⟨_, _, e⟩ | ⟨_, _, e⟩ <;> rw [e]
  · exact hframer _
  · exact hframer _
  · exact takeChar_framer _ (hframer _) hp

/-- ENGINE's turn keeps the invariant, phase by phase (41_framer.md R140). -/
theorem engineTurn_inv {s t : State} (h : Inv s) (hu : s.suart.uphase = .idle) (hturn : engineTurn s = .next t) :
    Inv t := by
  have ⟨hs, hb, hf, hsuart⟩ := h
  rcases engineTurn_cases hturn with ⟨hp, rfl⟩ | ⟨hp, rfl⟩ | ⟨hp, rfl⟩ | ⟨hp, u, hexec, rfl⟩ | ⟨hp, rfl⟩
  · exact Inv.of_core h (sendBanner_core s) (sendBanner_framer hf) (sendBanner_suart hsuart hu hp)
  · exact Inv.of_core h (by constructor <;> rfl)
      (hf.sending _ hf.txptrFits fun hb => by rw [hp] at hb; cases hb) (beginReceive_suart hsuart hu hp)
  · have hsame : (decodePhase s).suart = s.suart := by rw [decodePhase, decodeLine_frame s]
    exact Inv.of_core h (decodePhase_core s) (decodePhase_framer hf hp)
      (hsuart.of_idle hu hsame (decodePhase_core s).cfg)
  · have hframe := exec_frame hexec
    have hs' := exec_sessionInv hs hexec
    have hb' := exec_bufferInv hb hexec
    exact ⟨⟨hs'.modeLegal, hs'.widthAdmitted⟩, ⟨hb'.wbSpans, hb'.closed, hb'.opened, hb'.cellsWf⟩,
      exec_framer hf hexec, hsuart.of_idle hu hframe.suart hframe.cfg⟩
  · exact Inv.of_core h (sendNext_core s) (sendNext_framer hf) (sendNext_suart hsuart hu (.inr hp))

/-- Settles O50, by the cases of a step: `rst` gives a state after reset, an edge that passes changes nothing of the
invariant, and SUART's cycles and ENGINE's turns keep it. -/
theorem stepKeepsTheInvariant : Obligations.StepKeepsTheInvariant := by
  unfold Obligations.StepKeepsTheInvariant
  intro s t h hstep
  rcases step_cases hstep with ⟨_, rfl⟩ | ⟨_, hu, rfl⟩ | ⟨_, hu, rfl⟩ | ⟨_, hu, rfl⟩ | ⟨_, _, _, rfl⟩ | ⟨_, hu, _, hturn⟩
  · exact resetMeetsTheInvariant _ _ _ _ _ _ (wf_cells_chipAfter _ _ h.bufferInv.cellsWf)
  · exact txCycle_inv h.tick hu
  · exact rxPollCycle_inv _ h.tick hu
  · exact rxCycle_inv _ h.tick hu
  · exact h.tick
  · exact engineTurn_inv h.turn (by simpa using hu) hturn

end Sys2Proof.Machine
end

section
/-! Nothing but the coming edge is read of the inputs (40_softuart.md R126). -/

namespace Sys2Proof.Machine

/-- A state with other edges to come. -/
def State.withEdges (s : State) (es : List Edge) (st : Edge) : State := { s with inputs := es, steady := st }

@[simp] theorem withEdges_phase (s : State) (es : List Edge) (st : Edge) : (s.withEdges es st).phase = s.phase := rfl
@[simp] theorem withEdges_suart (s : State) (es : List Edge) (st : Edge) : (s.withEdges es st).suart = s.suart := rfl
@[simp] theorem withEdges_par (s : State) (es : List Edge) (st : Edge) : (s.withEdges es st).par = s.par := rfl

@[simp] theorem withEdges_session (s : State) (es : List Edge) (st : Edge) :
    (s.withEdges es st).session = s.session := rfl
theorem writeCheck_withEdges (x : Session) (payload : List Byte) (s : State) (es : List Edge) (st : Edge) :
    writeCheck x payload (s.withEdges es st) = writeCheck x payload s := rfl

@[simp] theorem withoutInputs_withEdges (s : State) (es : List Edge) (st : Edge) :
    withoutInputs (.next (s.withEdges es st)) = withoutInputs (.next s) := rfl

theorem tick_eq_withEdges (s : State) : s.tick = s.withEdges s.inputs.tail s.steady := rfl

theorem turn_eq_withEdges (s : State) : s.turn = s.withEdges s.turn.inputs s.steady := turn_eq s

/-! The operations of the write-buffer manager, the framer and SUART do not read the inputs. -/

theorem wbPrime_withEdges (x : Session) (addr : Nat) (s : State) (es : List Edge) (st : Edge) :
    wbPrime x addr (s.withEdges es st) = (wbPrime x addr s).withEdges es st := by
  unfold wbPrime
  dsimp only
  split <;> rfl

theorem writePrime_withEdges (x : Session) (addr : Nat) (s : State) (es : List Edge) (st : Edge) :
    writePrime x addr (s.withEdges es st) = (writePrime x addr s).withEdges es st := by
  by_cases hm : s.mode = .ready
  · rw [writePrime, if_pos (by exact hm), writePrime, if_pos hm, wbPrime_withEdges]
  · rw [writePrime, if_neg (by exact hm), writePrime, if_neg hm]

theorem wbFlushLoop_withEdges (x : Session) (es : List Edge) (st : Edge) : ∀ (fuel : Nat) (s : State),
    wbFlushLoop x fuel (s.withEdges es st) = (wbFlushLoop x fuel s).withEdges es st := by
  intro fuel
  induction fuel with
  | zero => intro s; rfl
  | succ fuel ih =>
    intro s
    by_cases hlt : s.wbFill < x.pageSize
    · rw [wbFlushLoop, if_pos (by exact hlt), wbFlushLoop, if_pos hlt]
    · rw [wbFlushLoop, if_neg (by exact hlt), wbFlushLoop, if_neg hlt, ← ih]
      rfl

theorem writeBuffer_withEdges (x : Session) (payload : List Byte) (s : State) (es : List Edge) (st : Edge) :
    writeBuffer x payload (s.withEdges es st) = (writeBuffer x payload s).withEdges es st := by
  unfold writeBuffer
  rw [writePrime_withEdges]
  exact wbFlushLoop_withEdges x es st _ (wbAppend (dataBytes x payload) (writePrime x (addrOf x payload) s))

theorem tailBytes_withEdges (x : Session) (s : State) (es : List Edge) (st : Edge) :
    tailBytes x (s.withEdges es st) = ((tailBytes x s).1, (tailBytes x s).2.withEdges es st) := by
  unfold tailBytes
  rw [withEdges_par]
  cases s.par.tailFill <;> rfl

theorem wbFinalise_withEdges (x : Session) (s : State) (es : List Edge) (st : Edge) :
    wbFinalise x (s.withEdges es st) = (wbFinalise x s).withEdges es st := by
  by_cases hf : s.wbFill = 0
  · rw [wbFinalise_empty x s hf, wbFinalise_empty x _ (by exact hf)]
  · unfold wbFinalise
    rw [if_neg hf, if_neg (by exact hf), tailBytes_withEdges]
    rfl

/-- An instruction does not read the inputs. -/
theorem exec_withEdges (i : Instr) (s : State) (es : List Edge) (st : Edge) :
    withoutInputs (exec i (s.withEdges es st)) = withoutInputs (exec i s) := by
  have hadmitted : ∀ (admits : Mode → Bool) (run : State → Outcome),
      withoutInputs (run (s.withEdges es st)) = withoutInputs (run s) →
      withoutInputs (admitted admits run (s.withEdges es st)) = withoutInputs (admitted admits run s) := by
    intro admits run hrun
    by_cases hm : s.mode = .invalid
    · rw [admitted_of_invalid hm, admitted_of_invalid (by exact hm)]
    · cases ha : admits s.mode with
      | true => rw [admitted_of_admits hm ha, admitted_of_admits (by exact hm) (by exact ha), hrun]
      | false => rw [admitted_of_not_admits hm ha, admitted_of_not_admits (by exact hm) (by exact ha)]; rfl
  cases i with
  | reset payload => exact hadmitted (fun _ => true) (fun s => .next (doReset s)) rfl
  | init payload =>
    unfold exec execInit
    refine hadmitted _ _ ?_
    rw [withEdges_par]
    cases initCheck s.par payload <;> rfl
  | read payload =>
    unfold exec execRead
    refine hadmitted _ _ ?_
    rw [withEdges_session]
    cases readCheck s.session payload <;> rfl
  | write payload =>
    unfold exec execWrite
    refine hadmitted _ _ ?_
    rw [withEdges_session, writeCheck_withEdges]
    cases writeCheck s.session payload s with
    | some c => rfl
    | none => simp only [doWrite, writeBuffer_withEdges]; rfl
  | done payload =>
    unfold exec execDone
    refine hadmitted _ _ ?_
    simp only [withEdges_session, doDone, wbFinalise_withEdges]
    rfl
  | unrecognised line =>
    cases line with
    | framing => rfl
    | command c payload => exact hadmitted (fun _ => true) (fun s => .next (reject .unrecognised s)) rfl

theorem decodeDigits_withEdges (s : State) (es : List Edge) (st : Edge) :
    decodeDigits (s.withEdges es st) = (decodeDigits s).withEdges es st := by
  unfold decodeDigits State.withEdges
  dsimp only
  cases decodeLoop s.draws ((s.lbLen - 1) / 2) 0 s.lb <;> rfl

theorem decodePhase_withEdges (s : State) (es : List Edge) (st : Edge) :
    decodePhase (s.withEdges es st) = (decodePhase s).withEdges es st := by
  have hline : decodeLine (s.withEdges es st) = (decodeLine s).withEdges es st := by
    by_cases hovf : s.lbOvf = true
    · rw [decodeLine, if_pos (by exact hovf), decodeLine, if_pos hovf]
      rfl
    · by_cases heven : s.lbLen % 2 = 0
      · rw [decodeLine, if_neg (by exact hovf), if_pos (by exact heven), decodeLine, if_neg hovf, if_pos heven]
        rfl
      · rw [decodeLine, if_neg (by exact hovf), if_neg (by exact heven), decodeLine, if_neg hovf, if_neg heven]
        exact decodeDigits_withEdges (clearInvalid s) es st
  rw [decodePhase, hline]
  rfl

theorem sendNext_withEdges (s : State) (es : List Edge) (st : Edge) :
    sendNext (s.withEdges es st) = (sendNext s).withEdges es st := by
  unfold sendNext State.withEdges
  dsimp only
  cases s.resp[s.txptr]? <;> rfl

theorem sendBanner_withEdges (s : State) (es : List Edge) (st : Edge) :
    sendBanner (s.withEdges es st) = (sendBanner s).withEdges es st := by
  by_cases hresp : s.resp = []
  · rw [sendBanner, if_pos (by exact hresp), sendBanner, if_pos hresp]
    rfl
  · rw [sendBanner, if_neg (by exact hresp), sendBanner, if_neg hresp, sendNext_withEdges]

/-- What `leaveExec` does to PHASE does not depend on the inputs. -/
theorem withoutInputs_leaveExec {o o' : Outcome} (h : withoutInputs o = withoutInputs o') :
    withoutInputs (leaveExec o) = withoutInputs (leaveExec o') := by
  have hcomm : ∀ o : Outcome, withoutInputs (leaveExec o) = leaveExec (withoutInputs o) := by rintro (_ | _ | _) <;> rfl
  rw [hcomm, hcomm, h]

theorem execPhase_withEdges (s : State) (es : List Edge) (st : Edge) :
    withoutInputs (execPhase (s.withEdges es st)) = withoutInputs (execPhase s) :=
  withoutInputs_leaveExec (exec_withEdges (fetchInstr s) s es st)

/-- ENGINE's turn does not read the inputs. -/
theorem engineTurn_withEdges (s : State) (es : List Edge) (st : Edge) :
    withoutInputs (engineTurn (s.withEdges es st)) = withoutInputs (engineTurn s) := by
  unfold engineTurn
  rw [withEdges_phase]
  cases s.phase with
  | banner => simp only [sendBanner_withEdges, withoutInputs_withEdges]
  | rxLine => rfl
  | decode => simp only [decodePhase_withEdges, withoutInputs_withEdges]
  | exec => exact execPhase_withEdges s es st
  | respond => simp only [sendNext_withEdges, withoutInputs_withEdges]

theorem txCycle_withEdges (s : State) (es : List Edge) (st : Edge) :
    txCycle (s.withEdges es st) = (txCycle s).withEdges es st := by
  unfold txCycle State.withEdges
  dsimp only [State.par]
  split_ifs <;> rfl

theorem takeChar_withEdges (c : Byte) (s : State) (es : List Edge) (st : Edge) :
    takeChar c (s.withEdges es st) = (takeChar c s).withEdges es st := by
  by_cases hc : c = lineFeed
  · rw [takeChar, if_pos hc, takeChar, if_pos hc]
    rfl
  · by_cases hroom : s.lbLen < lineCap s.par - 1
    · rw [takeChar, if_neg hc, if_pos (by exact hroom), takeChar, if_neg hc, if_pos hroom]
      rfl
    · rw [takeChar, if_neg hc, if_neg (by exact hroom), takeChar, if_neg hc, if_neg hroom]
      rfl

theorem rxCycle_withEdges (rxd : Bool) (s : State) (es : List Edge) (st : Edge) :
    rxCycle rxd (s.withEdges es st) = (rxCycle rxd s).withEdges es st := by
  unfold rxCycle
  rw [withEdges_suart, withEdges_par]
  dsimp only
  split
  · rfl
  · split
    · rfl
    · exact takeChar_withEdges _ { s with suart := endFrame (tickDelay s.par s.suart) } es st

/-- Away from the sample points a receive frame does not look at the line (40_softuart.md R122, R126). -/
theorem rxCycle_of_not_sample {s : State} (hu : s.suart.uphase = .rxFrame) (h : ¬ atSamplePoint s) (a b : Bool) :
    rxCycle a s = rxCycle b s := by
  unfold rxCycle
  dsimp only
  split
  · rfl
  next hd =>
    split
    next hbit =>
      rw [tickDelay_bitcnt] at hbit
      have hten : s.suart.bitcnt = 10 := by
        by_contra hne
        exact h ⟨hu, by simpa using hd, hbit, hne⟩
      simp [rxNextBit, hten]
    next => rfl

/-- The accesses that `rst` finds issued do not depend on the later edges or on the line. -/
theorem issuedByEngine_withEdges {s : State} {es : List Edge} {st : Edge}
    (h : (s.withEdges es st).edge.issued = s.edge.issued) :
    issuedByEngine (s.withEdges es st) = issuedByEngine s := by
  have hexec := execPhase_withEdges s es st
  unfold issuedByEngine
  rw [withEdges_phase, withEdges_suart, h]
  split
  · cases ho : execPhase s with
    | next t =>
      cases ho' : execPhase (s.withEdges es st) with
      | next t' =>
        rw [ho, ho'] at hexec
        simp only [withoutInputs, Host.Outcome.next.injEq] at hexec
        have hlog : t'.chipLog = t.chipLog := (congrArg State.chipLog hexec :)
        simp only [hlog]
        rfl
      | fault f => rw [ho, ho'] at hexec; cases hexec
      | refused r => rw [ho, ho'] at hexec; cases hexec
    | fault f =>
      cases ho' : execPhase (s.withEdges es st) with
      | next t' => rw [ho, ho'] at hexec; cases hexec
      | fault f => rfl
      | refused r => rfl
    | refused r =>
      cases ho' : execPhase (s.withEdges es st) with
      | next t' => rw [ho, ho'] at hexec; cases hexec
      | fault f => rfl
      | refused r => rfl
  · rfl

/-- Settles O41, by what the step does: `rst`, a transmit cycle, a receive cycle away from the sample points, a held
edge, and ENGINE's turn read nothing of the inputs but the coming edge, and not its `rxd`. -/
theorem rxdHasNoOtherEffect : Obligations.RxdHasNoOtherEffect := by
  unfold Obligations.RxdHasNoOtherEffect
  intro s level es st hwait hsample hedge
  change (s.withEdges es st).edge = _ at hedge
  change withoutInputs (step s) = withoutInputs (step (s.withEdges es st))
  have hrst : (s.withEdges es st).edge.rst = s.edge.rst := by rw [hedge]
  have hhold : (s.withEdges es st).edge.hold = s.edge.hold := by rw [hedge]
  cases hr : s.edge.rst with
  | true =>
    rw [step_rst hr, step_rst (hrst.trans hr), rstEdge, rstEdge, issuedByEngine_withEdges (by rw [hedge])]
    rfl
  | false =>
    cases hu : s.suart.uphase with
    | tx =>
      rw [step_tx hr hu, step_tx (s := s.withEdges es st) (hrst.trans hr) hu]
      simp only [tick_eq_withEdges, txCycle_withEdges, withoutInputs_withEdges]
    | rxWait => exact absurd hu hwait
    | rxFrame =>
      rw [step_rx hr hu, step_rx (s := s.withEdges es st) (hrst.trans hr) hu]
      simp only [tick_eq_withEdges, rxCycle_withEdges, withoutInputs_withEdges]
      rw [rxCycle_of_not_sample hu hsample]
    | idle =>
      cases hh : s.edge.hold with
      | true =>
        rw [step_held hr hh hu, step_held (s := s.withEdges es st) (hrst.trans hr) (hhold.trans hh) hu]
        rfl
      | false =>
        rw [step_engine hr hh hu, step_engine (s := s.withEdges es st) (hrst.trans hr) (hhold.trans hh) hu,
          turn_eq_withEdges, engineTurn_withEdges, turn_eq_withEdges, engineTurn_withEdges, engineTurn_withEdges]

end Sys2Proof.Machine
end

section
/-! A transmit call, cycle by cycle (40_softuart.md R112 to R115). -/

namespace Sys2Proof.Machine

/-- `wait(T_TX)` and the like take at least one cycle in a legal instance (00_scope.md R4). -/
theorem pos_of_delayFits {unit t : Nat} (h : Params.delayFits unit t = true) : 0 < t := by
  obtain ⟨_, hpos, _⟩ := (Params.delayFits_iff unit t).mp h
  rcases Nat.eq_zero_or_pos t with rfl | ht
  · simp at hpos
  · exact ht

/-- The idle-high hold with `n` cycles left: only its counter moves, until its last edge starts the bits
(40_softuart.md R112). -/
theorem run_preHold : ∀ (n : Nat) (s : State), s.suart.uphase = .tx → s.suart.preLeft = n + 1 → noReset s (n + 1) →
    (∀ j, j < n + 1 → Host.Core.run Sys2Proof.core j s
      = .next (s.put (s.inputs.drop j) { s.suart with preLeft := n + 1 - j }))
    ∧ Host.Core.run Sys2Proof.core (n + 1) s
      = .next (s.put (s.inputs.drop (n + 1)) (startBits s.par (currentChar s) s.suart)) := by
  intro n
  induction n with
  | zero =>
    intro s hu hpre hn
    have hstep := step_tx (noReset_edge hn) hu
    rw [txCycle, tick_suart, hpre, if_neg (by omega), if_pos rfl] at hstep
    refine ⟨fun j hj => ?_, ?_⟩
    · obtain rfl : j = 0 := by omega
      rw [Nat.sub_zero, ← hpre]
      rfl
    · rw [run_succ 0 s _ hstep, List.drop_one]
      rfl
  | succ n ih =>
    intro s hu hpre hn
    have hstep := step_tx (noReset_edge hn) hu
    rw [txCycle, tick_suart, hpre, if_pos (by omega)] at hstep
    have hnext : step s = .next (s.put s.inputs.tail { s.suart with preLeft := n + 1 }) := hstep
    obtain ⟨hhold, hend⟩ := ih (s.put s.inputs.tail { s.suart with preLeft := n + 1 }) hu rfl (noReset_put_tail hn _)
    refine ⟨fun j hj => ?_, ?_⟩
    · cases j with
      | zero =>
        rw [Nat.sub_zero, ← hpre]
        rfl
      | succ j =>
        rw [run_succ j s _ hnext, hhold j (by omega)]
        simp
    · rw [run_succ (n + 1) s _ hnext, hend, put_inputs, List.drop_tail, put_put]
      rfl

/-- SUART at the start of bit period `k` of the frame of `b` (40_softuart.md R112, R113). -/
def periodStart (p : Params) (b : Byte) (u : Suart) (k : Nat) : Suart :=
  { startBits p b u with bitcnt := 10 - k, txd := (txFrame b).getLsbD k }

theorem periodStart_zero (p : Params) (b : Byte) (u : Suart) : periodStart p b u 0 = startBits p b u := rfl

theorem waiting_periodStart {p : Params} (hp : p.legal = true) (b : Byte) (u : Suart) (k : Nat) :
    Waiting p (periodStart p b u k) :=
  waiting_loadDelay (Params.legal_dlyUnit hp) { startBits p b u with bitcnt := 10 - k, txd := (txFrame b).getLsbD k }
    (Params.legal_tTx hp)

theorem cyclesLeft_periodStart {p : Params} (hp : p.legal = true) (b : Byte) (u : Suart) (k : Nat) :
    cyclesLeft p (periodStart p b u k) = p.tTx :=
  cyclesLeft_loadDelay p p.tTx u (Params.legal_tTx hp)

/-- After a bit period the next one carries the next level. -/
theorem txWaitEnd_period (s : State) (es : List Edge) (b : Byte) (u : Suart) {k : Nat} (hk : k < 9) :
    txWaitEnd (s.put es (periodStart s.par b u k)) = s.put es (periodStart s.par b u (k + 1)) := by
  have hlevel : 11 - (10 - k) = k + 1 := by omega
  have hcount : 10 - k - 1 = 10 - (k + 1) := by omega
  have hnext : txNextBit s.par ((periodStart s.par b u k).delayed 0 0) = periodStart s.par b u (k + 1) := by
    simp only [txNextBit, periodStart, Suart.delayed, startBits, loadDelay, hlevel, hcount]
  rw [← hnext]
  exact if_pos (show 1 < 10 - k by omega)

/-- After the last bit period the call is over (40_softuart.md R112). -/
theorem txWaitEnd_last (s : State) (es : List Edge) (b : Byte) (u : Suart) :
    txWaitEnd (s.put es (periodStart s.par b u 9))
      = { s with inputs := es, suart := endFrame (periodStart s.par b u 9), txptr := s.txptr + 1 } :=
  if_neg (show ¬1 < 10 - 9 by decide)

/-- Bit period `k` of a frame: TXD holds its level for T_TX cycles, and then the next period starts, or the frame
ends. -/
theorem run_period {s : State} {b : Byte} {u : Suart} {k : Nat} (hs : s.suart = periodStart s.par b u k)
    (hu : u.uphase = .tx) (hn : noReset s s.par.tTx) :
    (∀ j, j < s.par.tTx → ∃ d e, Host.Core.run Sys2Proof.core j s
      = .next (s.put (s.inputs.drop j) ((periodStart s.par b u k).delayed d e)))
    ∧ Host.Core.run Sys2Proof.core s.par.tTx s
      = .next (txWaitEnd (s.put (s.inputs.drop s.par.tTx) (periodStart s.par b u k))) := by
  have hlegal := s.cfg.property
  have hrun := run_txWait s.par.tTx s (by rw [hs]; exact hu) (by rw [hs]; rfl)
    (by rw [hs]; exact waiting_periodStart hlegal b u k) (by rw [hs]; exact cyclesLeft_periodStart hlegal b u k) hn
  rwa [hs] at hrun

/-- The bit periods follow each other every T_TX cycles. -/
theorem run_to_period {s : State} {b : Byte} {u : Suart} (hs : s.suart = periodStart s.par b u 0)
    (hu : u.uphase = .tx) (hn : noReset s (10 * s.par.tTx)) : ∀ k, k < 10 →
    Host.Core.run Sys2Proof.core (k * s.par.tTx) s
      = .next (s.put (s.inputs.drop (k * s.par.tTx)) (periodStart s.par b u k)) := by
  intro k
  induction k with
  | zero =>
    intro _
    rw [Nat.zero_mul, ← hs]
    rfl
  | succ k ih =>
    intro hk
    have hfit : k * s.par.tTx + s.par.tTx ≤ 10 * s.par.tTx := by
      rw [← Nat.succ_mul]
      exact Nat.mul_le_mul_right _ (by omega)
    have hprev := ih (by omega)
    obtain ⟨_, hend⟩ := run_period (s := s.put (s.inputs.drop (k * s.par.tTx)) (periodStart s.par b u k)) rfl hu
      (noReset_put_drop hn _ _ _ hfit)
    rw [Nat.succ_mul, run_add _ _ _ _ hprev]
    simp only [put_par, put_inputs, put_put, List.drop_drop] at hend
    rw [hend, txWaitEnd_period s _ b u (by omega)]

/-- SUART in a transmit call, before its idle-high hold (40_softuart.md R112). -/
def callEntered (p : Params) (u : Suart) : Suart :=
  { u with uphase := .tx, crit := true, txdOe := p.singleWire || u.txdOe, txd := true }

theorem sendNext_of_char {s : State} {b : Byte} (hb : s.resp[s.txptr]? = some b) :
    sendNext s = s.put s.inputs (txEnter s.par b s.suart) := by
  rw [sendNext, hb]
  rfl

/-- ENGINE's turn with a character to send enters the transmit call (41_framer.md R160). -/
theorem step_send {s : State} {b : Byte} (hidle : s.suart.uphase = .idle) (hp : s.phase = .banner ∨ s.phase = .respond)
    (hb : s.resp[s.txptr]? = some b) (hrst : s.edge.rst = false) (hhold : s.edge.hold = false) :
    step s = .next (s.turn.put s.turn.inputs (txEnter s.par b s.suart)) := by
  have hsend := sendNext_of_char (s := s.turn) (b := b) (by simpa using hb)
  rw [turn_par, turn_suart] at hsend
  rw [step_engine hrst hhold hidle, engineTurn, turn_phase]
  rcases hp with hp | hp
  · have hresp : s.turn.resp ≠ [] := by
      rw [turn_resp]
      rintro hnil
      simp [hnil] at hb
    rw [hp, ← hsend]
    exact congrArg Host.Outcome.next (if_neg hresp)
  · rw [hp, ← hsend]

/-- From the entry of the call the line is held high for TX_PRE cycles, and then the first bit period starts. -/
theorem run_callEntered {s : State} {b : Byte} {u : Suart} (hs : s.suart = txEnter s.par b u)
    (hb : s.resp[s.txptr]? = some b) (hn : noReset s s.par.txPre) :
    (∀ j, j < s.par.txPre → ∃ n, Host.Core.run Sys2Proof.core j s
      = .next (s.put (s.inputs.drop j) { callEntered s.par u with preLeft := n }))
    ∧ Host.Core.run Sys2Proof.core s.par.txPre s
      = .next (s.put (s.inputs.drop s.par.txPre) (periodStart s.par b (callEntered s.par u) 0)) := by
  rw [txEnter_eq] at hs
  cases hpre : s.par.txPre with
  | zero =>
    rw [hpre, if_pos rfl] at hs
    refine ⟨fun j hj => absurd hj (Nat.not_lt_zero j), ?_⟩
    rw [periodStart_zero, callEntered, ← hs]
    rfl
  | succ n =>
    rw [hpre, if_neg (Nat.succ_ne_zero n)] at hs
    obtain ⟨hhold, hend⟩ := run_preHold n s (by rw [hs]) (by rw [hs]) (hpre ▸ hn)
    rw [hs] at hhold hend
    rw [currentChar_eq hb] at hend
    exact ⟨fun j hj => ⟨_, hhold j hj⟩, hend⟩

/-- The frame of `b` from its first bit period to its end: the levels of TXD with CRIT 1, then the cursor moves on. -/
theorem run_frame {s : State} {b : Byte} {u : Suart} (hs : s.suart = periodStart s.par b (callEntered s.par u) 0)
    (hn : noReset s (10 * s.par.tTx)) :
    (∀ k j, k < 10 → j < s.par.tTx → ∃ t : State, Host.Core.run Sys2Proof.core (k * s.par.tTx + j) s = .next t
      ∧ t.txptr = s.txptr ∧ t.suart.txd = (txFrame b).getLsbD k ∧ t.suart.crit = true)
    ∧ Host.Core.run Sys2Proof.core (10 * s.par.tTx) s = .next { s with
        inputs := s.inputs.drop (10 * s.par.tTx)
        suart := endFrame (periodStart s.par b (callEntered s.par u) 9)
        txptr := s.txptr + 1 } := by
  have hstart := run_to_period hs rfl hn
  have hperiod : ∀ k, k < 10 → _ := fun k (hk : k < 10) =>
    run_period (s := s.put (s.inputs.drop (k * s.par.tTx)) (periodStart s.par b (callEntered s.par u) k)) rfl rfl
      (noReset_put_drop hn _ _ _ (by
        rw [put_par, ← Nat.succ_mul]
        exact Nat.mul_le_mul_right _ hk))
  refine ⟨fun k j hk hj => ?_, ?_⟩
  · obtain ⟨d, e, hrun⟩ := (hperiod k hk).1 j hj
    exact ⟨_, (run_add _ _ _ _ (hstart k hk)).trans hrun, rfl, rfl, rfl⟩
  · have hend := (hperiod 9 (by decide)).2
    simp only [put_par, put_inputs, put_put, List.drop_drop, txWaitEnd_last] at hend
    rw [show 10 * s.par.tTx = 9 * s.par.tTx + s.par.tTx by omega, run_add _ _ _ _ (hstart 9 (by decide)), hend]

/-- SUART after a transmit call of `b` (40_softuart.md R112, R115). -/
theorem endFrame_periodStart (p : Params) (b : Byte) (u : Suart) :
    endFrame (periodStart p b (callEntered p u) 9) = { u with
      uphase := .idle
      txsr := txFrame b
      bitcnt := 0
      dly := 0
      dlySub := 0
      preLeft := 0
      crit := false
      txd := true
      txdOe := p.singleWire || u.txdOe } := by
  have hstop := txFrame_stop b
  simp only [endFrame, critOff, periodStart, hstop, startBits, loadDelay, callEntered]

/-- A transmit call from ENGINE's turn to its end: the idle-high hold, the ten levels, the state it leaves. The cursor
stays until the end. -/
theorem run_transmit {s : State} {b : Byte} (hidle : s.suart.uphase = .idle)
    (hp : s.phase = .banner ∨ s.phase = .respond) (hb : s.resp[s.txptr]? = some b) (hrst : s.edge.rst = false)
    (hhold : s.edge.hold = false) (hn : noReset s.turn (s.par.txPre + 10 * s.par.tTx)) :
    (∀ j, j < s.par.txPre → ∃ t : State, Host.Core.run Sys2Proof.core (1 + j) s = .next t
      ∧ t.txptr = s.txptr ∧ t.suart.txd = true ∧ t.suart.crit = true)
    ∧ (∀ k j, k < 10 → j < s.par.tTx → ∃ t : State,
        Host.Core.run Sys2Proof.core (1 + s.par.txPre + k * s.par.tTx + j) s = .next t
        ∧ t.txptr = s.txptr ∧ t.suart.txd = (txFrame b).getLsbD k ∧ t.suart.crit = true)
    ∧ Host.Core.run Sys2Proof.core (1 + s.par.txPre + 10 * s.par.tTx) s = .next { s with
        txptr := s.txptr + 1
        inputs := s.turn.inputs.drop (s.par.txPre + 10 * s.par.tTx)
        suart := endFrame (periodStart s.par b (callEntered s.par s.suart) 9) } := by
  have hstep := step_send hidle hp hb hrst hhold
  generalize hentered : s.turn.put s.turn.inputs (txEnter s.par b s.suart) = e at hstep
  have hpar : e.par = s.par := by rw [← hentered, put_par, turn_par]
  have hptr : e.txptr = s.txptr := by rw [← hentered, put_txptr, turn_txptr]
  have hne : noReset e (s.par.txPre + 10 * s.par.tTx) := by rw [← hentered]; exact hn
  obtain ⟨hpre, hstart⟩ := run_callEntered (s := e) (b := b) (u := s.suart) (by rw [hpar, ← hentered, put_suart])
    (by rw [← hentered, put_resp, put_txptr, turn_resp, turn_txptr, hb]) (fun k hk => hne k (by rw [hpar] at hk; omega))
  rw [hpar] at hpre hstart
  obtain ⟨hlevels, hend⟩ := run_frame (s := e.put (e.inputs.drop s.par.txPre)
    (periodStart s.par b (callEntered s.par s.suart) 0)) (b := b) (u := s.suart) (by rw [put_suart, put_par, hpar])
    (noReset_put_drop hne _ _ _ (by rw [put_par, hpar]))
  rw [put_par, hpar] at hlevels hend
  have hengine : ∀ n, Host.Core.run Sys2Proof.core (1 + n) s = Host.Core.run Sys2Proof.core n e := fun n => by
    rw [Nat.add_comm, run_succ n s e hstep]
  have hfirst := (hengine s.par.txPre).trans hstart
  refine ⟨fun j hj => ?_, fun k j hk hj => ?_, ?_⟩
  · obtain ⟨n, hrun⟩ := hpre j hj
    exact ⟨_, (hengine j).trans hrun, hptr, rfl, rfl⟩
  · obtain ⟨t, hrun, htxptr, hlevel⟩ := hlevels k j hk hj
    exact ⟨t, by rw [Nat.add_assoc, run_add _ _ _ _ hfirst, hrun], htxptr.trans hptr, hlevel⟩
  · rw [run_add _ _ _ _ hfirst, hend, ← hentered, turn_eq s]
    simp only [State.put, List.drop_drop]

/-- Settles O37: `run_transmit`, with SUART's last state written out (`endFrame_periodStart`). -/
theorem transmitHoldsEachLevel : Obligations.TransmitHoldsEachLevel := by
  unfold Obligations.TransmitHoldsEachLevel
  intro s b hidle hp hb hrst hhold hn
  obtain ⟨hpre, hlevels, hend⟩ := run_transmit hidle hp hb hrst hhold hn
  rw [endFrame_periodStart] at hend
  refine ⟨fun j hj => ?_, fun k j hk hj => ?_, hend⟩
  · obtain ⟨t, hrun, _, hlevel⟩ := hpre j hj
    exact ⟨t, hrun, hlevel⟩
  · obtain ⟨t, hrun, _, hlevel⟩ := hlevels k j hk hj
    exact ⟨t, hrun, hlevel⟩

end Sys2Proof.Machine
end

section
/-! A whole response line, and the poll after it (41_framer.md R140, R160). -/

namespace Sys2Proof.Machine

/-- The state after `i` calls of a response line that takes `call` edges a call: the cursor has moved on, the edges have
passed, and SUART is idle again. -/
structure CallsDone (call i : Nat) (s t : State) : Prop where
  state : t = { s with txptr := i, inputs := s.inputs.drop (i * call), suart := t.suart }
  idle : t.suart.uphase = .idle

theorem CallsDone.edgeAt {call i : Nat} {s t : State} (h : CallsDone call i s t) (k : Nat) :
    edgeAt t k = edgeAt s (i * call + k) := by
  rw [h.state]
  simp [Machine.edgeAt, List.getD_eq_getElem?_getD, List.getElem?_drop]

/-- Where ENGINE takes no time, the next turn after some calls takes no time either. -/
theorem CallsDone.noDelay {call i n : Nat} {s t : State} (h : CallsDone call i s t)
    (hn : noDelay s (i * call + n)) : noDelay t n := by
  intro k hk
  rw [h.edgeAt]
  exact hn _ (by omega)

theorem noDelay_mono {s : State} {n m : Nat} (h : noDelay s n) (hm : m ≤ n) : noDelay s m :=
  fun k hk => h k (by omega)

theorem edge_of_noDelay {s : State} {n : Nat} (h : noDelay s (n + 1)) :
    s.edge.rst = false ∧ s.edge.hold = false ∧ s.edge.passes = false := by
  rw [State.edge_eq]
  exact h 0 (by omega)

/-- A call moves the cursor on by one, lets its edges pass and leaves SUART idle. -/
theorem CallsDone.next {call i : Nat} {s t : State} (h : CallsDone call i s t) {u : Suart} (hu : u.uphase = .idle) :
    CallsDone call (i + 1) s { t with txptr := t.txptr + 1, inputs := t.inputs.drop call, suart := u } := by
  obtain ⟨hstate, _⟩ := h
  generalize t.suart = v at hstate
  subst hstate
  refine ⟨?_, hu⟩
  simp only [List.drop_drop, Nat.succ_mul]

/-- One call of the line: `run_transmit` where ENGINE takes no time. -/
theorem CallsDone.transmit {i : Nat} {s t : State} {b : Byte} (h : CallsDone (s.par.txPre + 10 * s.par.tTx) i s t)
    (hp : s.phase = .banner ∨ s.phase = .respond) (hb : s.resp[i]? = some b)
    (hn : Machine.noDelay t (s.par.txPre + 10 * s.par.tTx + 1)) :
    (∀ j, j < s.par.txPre → ∃ u : State, Host.Core.run Sys2Proof.core (1 + j) t = .next u
      ∧ u.txptr = i ∧ u.suart.txd = true ∧ u.suart.crit = true)
    ∧ (∀ k j, k < 10 → j < s.par.tTx → ∃ u : State,
        Host.Core.run Sys2Proof.core (1 + s.par.txPre + k * s.par.tTx + j) t = .next u
        ∧ u.txptr = i ∧ u.suart.txd = (txFrame b).getLsbD k ∧ u.suart.crit = true)
    ∧ ∃ u, Host.Core.run Sys2Proof.core (1 + (s.par.txPre + 10 * s.par.tTx)) t = .next u
        ∧ CallsDone (s.par.txPre + 10 * s.par.tTx) (i + 1) s u := by
  obtain ⟨hrst, hhold, hpasses⟩ := edge_of_noDelay hn
  have hpar : t.par = s.par := by rw [h.state]; rfl
  have hphase : t.phase = s.phase := by rw [h.state]
  have hptr : t.txptr = i := by rw [h.state]
  have hresp : t.resp = s.resp := by rw [h.state]
  have hturn := turn_of_not_passes hpasses
  obtain ⟨hpre, hlevels, hend⟩ := run_transmit (b := b) h.idle (hphase ▸ hp) (by rw [hresp, hptr, hb]) hrst hhold
    (by rw [hturn, hpar]; exact fun k hk => (hn k (by omega)).1)
  rw [hpar, hptr] at hpre
  rw [hpar, hptr] at hlevels
  rw [hpar, hturn] at hend
  exact ⟨hpre, hlevels, _, by rw [← Nat.add_assoc, hend], h.next rfl⟩

/-- The calls of a line follow each other, each after one step of ENGINE. -/
theorem run_calls {s : State} (hidle : s.suart.uphase = .idle) (hp : s.phase = .banner ∨ s.phase = .respond)
    (hptr : s.txptr = 0) (hn : noDelay s (s.resp.length * (s.par.txPre + 10 * s.par.tTx) + 1)) :
    ∀ i, i ≤ s.resp.length → ∃ t, Host.Core.run Sys2Proof.core (i * (1 + (s.par.txPre + 10 * s.par.tTx))) s = .next t
      ∧ CallsDone (s.par.txPre + 10 * s.par.tTx) i s t := by
  intro i
  induction i with
  | zero =>
    intro _
    refine ⟨s, by rw [Nat.zero_mul]; rfl, ?_, hidle⟩
    rw [Nat.zero_mul, List.drop_zero, ← hptr]
  | succ i ih =>
    intro hi
    obtain ⟨t, hrun, hdone⟩ := ih (by omega)
    obtain ⟨_, _, u, hnext, hdone'⟩ := hdone.transmit hp (List.getElem?_eq_getElem hi) (hdone.noDelay
      (noDelay_mono hn (by rw [← Nat.add_assoc, ← Nat.succ_mul]; exact Nat.succ_le_succ (Nat.mul_le_mul_right _ hi))))
    exact ⟨u, by rw [Nat.succ_mul, run_add _ _ _ _ hrun, hnext], hdone'⟩

/-- After the last character ENGINE's turn enters P_RXLINE, and the next one starts the poll (41_framer.md R141). -/
theorem run_lineEnd {s : State} (hidle : s.suart.uphase = .idle)
    (hp : s.phase = .respond ∨ (s.phase = .banner ∧ s.resp ≠ [])) (hend : s.txptr = s.resp.length)
    (hn : noDelay s 1) :
    step s = .next (enterRxLine s) ∧ step (enterRxLine s) = .next (beginReceive (enterRxLine s)) := by
  have hnone : sendNext s = enterRxLine s := by simp [sendNext, hend]
  refine ⟨?_, ?_⟩
  · rw [step_of_noDelay hn hidle, ← hnone]
    rcases hp with hp | ⟨hp, hresp⟩
    · simp [engineTurn, hp]
    · simp [engineTurn, hp, sendBanner, hresp]
  · exact step_of_noDelay (s := enterRxLine s) hn hidle

/-- Settles O42: the calls of the line (`run_calls`, `CallsDone.transmit`), and then its end (`run_lineEnd`). -/
theorem wholeLineIsSentThenReading : Obligations.WholeLineIsSentThenReading := by
  unfold Obligations.WholeLineIsSentThenReading
  rintro s m call hidle hp hptr rfl rfl hn
  have hphase : s.phase = .banner ∨ s.phase = .respond := hp.elim .inr fun h => .inl h.1
  have hcalls := run_calls hidle hphase hptr hn
  refine ⟨fun i b hb => ?_, ?_⟩
  · have hi : i < s.resp.length := (List.getElem?_eq_some_iff.mp hb).1
    obtain ⟨t, hrun, hdone⟩ := hcalls i hi.le
    obtain ⟨hpre, hlevels, _⟩ := hdone.transmit hphase hb (hdone.noDelay (noDelay_mono hn
      (by rw [← Nat.add_assoc, ← Nat.succ_mul]; exact Nat.succ_le_succ (Nat.mul_le_mul_right _ hi))))
    refine ⟨fun j hj => ?_, fun k j hk hj => ?_⟩
    · rw [Nat.add_assoc, run_add _ _ _ _ hrun]
      exact hpre j hj
    · rw [show ∀ a b c d e : Nat, a + b + c + d + e = a + (b + c + d + e) by omega, run_add _ _ _ _ hrun]
      exact hlevels k j hk hj
  · obtain ⟨t, hrun, hdone⟩ := hcalls s.resp.length le_rfl
    have hstate := hdone.state
    obtain ⟨hlast, hpoll⟩ := run_lineEnd hdone.idle (by rw [hstate]; exact hp) (by rw [hstate]) (hdone.noDelay hn)
    refine ⟨enterRxLine t, _, by rw [run_add _ _ _ _ hrun, run_succ 0 t _ hlast]; rfl, rfl, rfl, rfl, ?_, hdone.idle, ?_,
      ?_, ?_, ?_, ?_, ?_, ?_, ?_, hpoll, rfl, rfl⟩ <;> rw [hstate] <;> rfl

end Sys2Proof.Machine
end

section
/-! A receive frame, wait by wait (40_softuart.md R120 to R125). -/

namespace Sys2Proof.Machine

/-- SUART in a receive frame at the start of a wait of `t` cycles, with `c` waits to go and `r` in RXSR. -/
def rxWaitStart (p : Params) (u : Suart) (t c : Nat) (r : BitVec 8) : Suart :=
  loadDelay p t { u with uphase := .rxFrame, crit := true, bitcnt := c, rxsr := r }

/-- A wait of a receive frame: nothing but the delay counter moves, with CRIT 1, until its last edge. -/
theorem run_wait {s : State} {u : Suart} {t c : Nat} {r : BitVec 8} (hs : s.suart = rxWaitStart s.par u t c r)
    (ht : Params.delayFits s.par.dlyUnit t = true) (hn : noReset s t) :
    (∀ j, j < t → ∃ v : State, Host.Core.run Sys2Proof.core j s = .next v ∧ v.suart.crit = true)
    ∧ Host.Core.run Sys2Proof.core t s = .next (rxWaitEnd (edgeAt s (t - 1)).rxd
        (s.put (s.inputs.drop t) (rxWaitStart s.par u t c r))) := by
  have hlegal := s.cfg.property
  obtain ⟨hwait, hend⟩ := run_rxWait t s (by rw [hs]; rfl)
    (by rw [hs]; exact waiting_loadDelay (Params.legal_dlyUnit hlegal) _ ht)
    (by rw [hs]; exact cyclesLeft_loadDelay _ _ _ ht) hn
  rw [hs] at hend
  refine ⟨fun j hj => ?_, hend⟩
  obtain ⟨d, e, hrun⟩ := hwait j hj
  exact ⟨_, hrun, by rw [put_suart, delayed_crit, hs]; rfl⟩

/-- The half-bit pre-roll ends without a sample (40_softuart.md R120). -/
theorem rxWaitEnd_preRoll (s : State) (es : List Edge) (u : Suart) (t : Nat) (r : BitVec 8) (rxd : Bool) :
    rxWaitEnd rxd (s.put es (rxWaitStart s.par u t 10 r)) = s.put es (rxWaitStart s.par u s.par.tRx 9 r) :=
  if_pos (show 1 < 10 by decide)

/-- The wait before data bit `k` ends with its sample (40_softuart.md R120, R122). -/
theorem rxWaitEnd_sample (s : State) (es : List Edge) (u : Suart) (t : Nat) (r : BitVec 8) (rxd : Bool) {k : Nat}
    (hk : k < 8) : ∃ r' : BitVec 8, (∀ i, i < 8 → r'.getLsbD i = if i = k then rxd else r.getLsbD i)
      ∧ rxWaitEnd rxd (s.put es (rxWaitStart s.par u t (9 - k) r))
        = s.put es (rxWaitStart s.par u s.par.tRx (9 - (k + 1)) r') := by
  have hbit : 9 - (9 - k) = k := by omega
  refine ⟨_, fun i hi => ?_, if_pos (show 1 < 9 - k by omega)⟩
  have hsample := rxNextBit_rxsr s.par rxd ((rxWaitStart s.par u t (9 - k) r).delayed 0 0)
    (show 9 - k ≠ 10 by omega) i hi
  rwa [show ((rxWaitStart s.par u t (9 - k) r).delayed 0 0).bitcnt = 9 - k from rfl, hbit] at hsample

/-- The last wait ends with the byte handed over, whatever the stop bit's level (40_softuart.md R123). -/
theorem rxWaitEnd_last (s : State) (es : List Edge) (u : Suart) (t : Nat) (r : BitVec 8) (rxd : Bool) :
    rxWaitEnd rxd (s.put es (rxWaitStart s.par u t 1 r)) = takeChar r { s with
      inputs := es
      suart := { u with
        uphase := .idle
        rxsr := r
        bitcnt := 0
        dly := 0
        dlySub := 0
        preLeft := 0
        crit := false } } :=
  if_neg (show ¬1 < 1 by decide)

/-- The poll reads a 0: SUART enters the frame at its half-bit pre-roll (40_softuart.md R120). -/
theorem step_startEdge {s : State} (hu : s.suart.uphase = .rxWait) (hrst : s.edge.rst = false)
    (hrxd : s.edge.rxd = false) :
    step s = .next (s.put s.inputs.tail (rxWaitStart s.par s.suart s.par.tHalf 10 s.suart.rxsr)) := by
  rw [step_poll hrst hu, hrxd]
  rfl

/-- The wait that starts `n` edges after `s`: `run_wait`, with the edges counted from `s`. -/
theorem run_wait_from {s : State} {u : Suart} {n t c : Nat} {r : BitVec 8}
    (hrun : Host.Core.run Sys2Proof.core n s = .next (s.put (s.inputs.drop n) (rxWaitStart s.par u t c r)))
    (ht : Params.delayFits s.par.dlyUnit t = true) (hn : noReset s (n + t)) :
    (∀ j, j < t → ∃ v : State, Host.Core.run Sys2Proof.core (n + j) s = .next v ∧ v.suart.crit = true)
    ∧ Host.Core.run Sys2Proof.core (n + t) s = .next (rxWaitEnd (edgeAt s (n + (t - 1))).rxd
        (s.put (s.inputs.drop (n + t)) (rxWaitStart s.par u t c r))) := by
  obtain ⟨hwait, hend⟩ := run_wait (s := s.put (s.inputs.drop n) (rxWaitStart s.par u t c r)) (u := u) (c := c) (r := r)
    rfl ht (noReset_put_drop hn _ _ _ le_rfl)
  simp only [edgeAt_put_drop, put_par, put_inputs, put_put, List.drop_drop] at hend
  refine ⟨fun j hj => ?_, by rw [run_add _ _ _ _ hrun, hend]⟩
  rw [run_add _ _ _ _ hrun]
  exact hwait j hj

/-- The half-bit pre-roll of a frame: CRIT is 1, and then the wait before data bit 0 starts. -/
theorem run_preRoll {s : State} (hu : s.suart.uphase = .rxWait) (hrxd : (edgeAt s 0).rxd = false)
    (hn : noReset s (1 + s.par.tHalf)) :
    (∀ j, j < s.par.tHalf → ∃ v : State, Host.Core.run Sys2Proof.core (1 + j) s = .next v ∧ v.suart.crit = true)
    ∧ Host.Core.run Sys2Proof.core (1 + s.par.tHalf) s = .next (s.put (s.inputs.drop (1 + s.par.tHalf))
        (rxWaitStart s.par s.suart s.par.tRx 9 s.suart.rxsr)) := by
  have hstart : Host.Core.run Sys2Proof.core 1 s = .next (s.put (s.inputs.drop 1)
      (rxWaitStart s.par s.suart s.par.tHalf 10 s.suart.rxsr)) := by
    rw [run_succ 0 s _ (step_startEdge hu (by rw [State.edge_eq]; exact hn 0 (by omega)) (by rw [State.edge_eq, hrxd])),
      List.drop_one]
    rfl
  obtain ⟨hwait, hend⟩ := run_wait_from hstart (Params.legal_tHalf s.cfg.property) hn
  exact ⟨hwait, by rw [hend, rxWaitEnd_preRoll]⟩

/-- The first `k` data bits are those of the line at their sample points, and `k` waits are over. -/
theorem run_to_bit {s : State} (hu : s.suart.uphase = .rxWait) (hrxd : (edgeAt s 0).rxd = false)
    (hn : noReset s (1 + s.par.tHalf + 9 * s.par.tRx)) : ∀ k, k ≤ 8 → ∃ r : BitVec 8,
    (∀ i, i < k → r.getLsbD i = (edgeAt s (s.par.tHalf + (i + 1) * s.par.tRx)).rxd)
    ∧ Host.Core.run Sys2Proof.core (1 + s.par.tHalf + k * s.par.tRx) s = .next (s.put
        (s.inputs.drop (1 + s.par.tHalf + k * s.par.tRx)) (rxWaitStart s.par s.suart s.par.tRx (9 - k) r)) := by
  have hlegal := s.cfg.property
  intro k
  induction k with
  | zero =>
    intro _
    obtain ⟨_, hstart⟩ := run_preRoll hu hrxd fun j hj => hn j (by omega)
    exact ⟨s.suart.rxsr, fun i hi => absurd hi (Nat.not_lt_zero i), by rw [Nat.zero_mul]; exact hstart⟩
  | succ k ih =>
    intro hk
    have hpos : 0 < s.par.tRx := pos_of_delayFits (Params.legal_tRx hlegal)
    have hfit : (k + 1) * s.par.tRx ≤ 9 * s.par.tRx := Nat.mul_le_mul_right _ (by omega)
    obtain ⟨r, hbits, hrun⟩ := ih (by omega)
    obtain ⟨_, hend⟩ := run_wait_from hrun (Params.legal_tRx hlegal) fun j hj => hn j (by rw [Nat.succ_mul] at hfit; omega)
    have hedge : 1 + s.par.tHalf + k * s.par.tRx + (s.par.tRx - 1) = s.par.tHalf + (k + 1) * s.par.tRx := by
      rw [Nat.succ_mul]
      omega
    obtain ⟨r', hbit, hnext⟩ := rxWaitEnd_sample s (s.inputs.drop (1 + s.par.tHalf + k * s.par.tRx + s.par.tRx)) s.suart
      s.par.tRx r (edgeAt s (s.par.tHalf + (k + 1) * s.par.tRx)).rxd (k := k) (by omega)
    rw [hedge, hnext] at hend
    refine ⟨r', fun i hi => ?_, by rw [Nat.succ_mul, ← Nat.add_assoc, hend]⟩
    rw [hbit i (by omega)]
    split
    next h => rw [h]
    next h => exact hbits i (by omega)

/-- A cycle of the nine waits after the pre-roll is the `j`-th of wait `k`. -/
theorem exists_wait {t j : Nat} (hj : j < 9 * t) : ∃ k i, k ≤ 8 ∧ i < t ∧ j = k * t + i := by
  have hpos : 0 < t := by omega
  refine ⟨j / t, j % t, Nat.le_of_lt_succ (Nat.div_lt_of_lt_mul (by rwa [Nat.mul_comm])), Nat.mod_lt _ hpos, ?_⟩
  rw [Nat.mul_comm, Nat.div_add_mod]

/-- Settles O39: the pre-roll and the nine waits after it, whose last hands the byte over. -/
theorem receiveSamplesMidBit : Obligations.ReceiveSamplesMidBit := by
  unfold Obligations.ReceiveSamplesMidBit
  intro s hu hrxd hn
  have hlegal := s.cfg.property
  have hcount : s.par.tHalf + 9 * s.par.tRx + 1 = 1 + s.par.tHalf + 8 * s.par.tRx + s.par.tRx := by omega
  have hn' : noReset s (1 + s.par.tHalf + 9 * s.par.tRx) := fun j hj => hn j (by omega)
  have hbits := run_to_bit hu hrxd hn'
  refine ⟨fun j hj => ?_, ?_⟩
  · rcases Nat.lt_or_ge j s.par.tHalf with hlt | hge
    · obtain ⟨hwait, _⟩ := run_preRoll hu hrxd fun i hi => hn i (by omega)
      exact hwait j hlt
    · obtain ⟨k, i, hk, hi, hj'⟩ := exists_wait (t := s.par.tRx) (j := j - s.par.tHalf) (by omega)
      obtain ⟨r, _, hrun⟩ := hbits k hk
      have hfit : k * s.par.tRx ≤ 8 * s.par.tRx := Nat.mul_le_mul_right _ hk
      obtain ⟨hwait, _⟩ := run_wait_from hrun (Params.legal_tRx hlegal) fun i hi => hn i (by omega)
      rw [show 1 + j = 1 + s.par.tHalf + k * s.par.tRx + i by omega]
      exact hwait i hi
  · obtain ⟨byte, hbyte, hrun⟩ := hbits 8 le_rfl
    obtain ⟨_, hend⟩ := run_wait_from hrun (Params.legal_tRx hlegal) (hcount ▸ hn)
    exact ⟨byte, hbyte, by rw [hcount, hend, rxWaitEnd_last]⟩

end Sys2Proof.Machine
end
